-- ==== Sys2Proof/Word.lean ====
section
/-! DEFINITION. The word types of FMQD's ports and cells (spec/00 R10, R13; spec/30 R90 to R93). Bit 0 is the least
significant bit of every word. -/

namespace Sys2Proof

/-- One cell or register of 32 bits: in profile `B32` a `Num` is such a pattern (R9, R10, R15). -/
abbrev Word := BitVec 32

/-- One entry of `CMDQ` (R90). -/
abbrev CmdWord := BitVec 64

/-- One entry of `RSPQ` (R91). -/
abbrev RspWord := BitVec 40

/-- One entry of `INQ` (R92). -/
abbrev SmpWord := BitVec 65

end Sys2Proof
end

