-- ==== Sys2Proof/Config.lean ====
section
/-! DEFINITION. What is fixed for the machine (spec/00 section 3), and the free values: opaque constants about which
nothing can be proved, one for each point the spec leaves open (spec/93 part 1). -/

namespace Sys2Proof.Config

/-- R7: the number of phases of the filter bank, fixed by the source. -/
def NPH : Nat := 32

/-- R8: the greatest number of taps per phase that the address field of `LDTAP` can reach. -/
def maxTapsPerPhase : Nat := 2 ^ 19

/-- The value of the parameter `L` in `State.reset`. DESIGN CHOICE (unsafe, log 2): the spec leaves `L` open (R8); every
other state may hold any `L`. -/
def tapsPerPhase : Nat := 2

/-- Free value `ARB` (R11, R188, log 4): choice number `n` between `STEP_CMD` (`true`) and `STEP_SAMPLE` (`false`). -/
opaque arb : Nat → Bool

/-- The premise of weak fairness (R188, U10, log 16): neither kind of step is passed over for ever. -/
def WeaklyFairArb : Prop :=
  ∀ n, ∀ b, ∃ m, n ≤ m ∧ arb m = b

/-- Free value (R252, U5, log 3): `tapsDraw e j` is what cell `j` of `TAPS` holds after the hardware reset number `e`
until an accepted `LDTAP j` writes it. -/
opaque tapsDraw : Nat → Nat → Word

/-- The four rounded operations of R14 that can produce a NaN. -/
inductive FloatOp where
  | add | sub | mul | div
  deriving DecidableEq, Repr

/-- Free value (R15, U6, log 6): sign (bit 23) and payload (bits 22 to 0) of the NaN an operation produces. R14 makes it
a function of the operation and its operands alone. -/
opaque nanDraw : FloatOp → Word → Word → BitVec 24

/-- Free value (R14, U7, log 5): magnitude of `fatan2` off the axes, as a function of the two normalised significands,
the difference of the two exponents (`y`'s less `x`'s) and whether `x` is negative. -/
opaque atan2Mag : Nat → Nat → Int → Bool → Nat

/-- Free value (U3, log 5): `fatan2` where an argument is an infinity or a NaN. -/
opaque atan2NonFinite : Word → Word → Word

/-- Free value (U7 (a), log 5): a pattern from which `fatan2 y x` is made for `y` zero and `x` negative, as a function of
the sign of `y` and the normalised significand of `x`. The rules never call it so. -/
opaque atan2NegativeAxis : Bool → Nat → Word

/-- Free value (U7 (a), log 5): `fatan2` with both arguments zero, where it need not be defined. -/
opaque atan2Origin : Word → Word → Word

/-- Free value (R14, log 25): numerator and denominator, each less 1, of the magnitude of `val` under `IDEAL` at a real
number that is not rational, where "the exact rational value" does not exist. -/
opaque irrationalVal : ℝ → Nat × Nat

/-- R9, R14: a numeric profile `NUM`, "a record of a value type and total operations". The machine runs with the profile
`B32` (`Sys2Proof.Machine.b32`); every meaning is written once over any profile, so that a run has a meaning under
`IDEAL` (`Sys2Proof.Machine.ideal`) too (log 1). -/
structure NumProfile (α : Type) where
  /-- `NUM_ZERO` -/
  zero : α
  /-- `NUM_ONE` -/
  one : α
  /-- `NUM_HALF` -/
  half : α
  /-- `NUM_TENTH` -/
  tenth : α
  /-- `NUM_PI` -/
  pi : α
  /-- `NUM_TWO_PI` -/
  twoPi : α
  /-- `fadd` -/
  add : α → α → α
  /-- `fsub` -/
  sub : α → α → α
  /-- `fmul` -/
  mul : α → α → α
  /-- `fdiv` -/
  div : α → α → α
  /-- `fatan2` (first argument `y`) -/
  atan2 : α → α → α
  /-- `flt` -/
  lt : α → α → Bool
  /-- `fgt0` -/
  gt0 : α → Bool
  /-- `iszero` -/
  isZero : α → Bool
  /-- `isfinite` -/
  isFinite : α → Bool
  /-- `val` -/
  val : α → Rat
  /-- `ofrat` -/
  ofRat : Rat → α

end Sys2Proof.Config
end

