-- ==== Sys2Proof/Machine/Float.lean ====
section
/-! DEFINITION. Profile `B32` (spec/00 R9, R14, R15): binary32 with round to nearest, ties to even, subnormals kept, no
flags and no traps. Every finite operation computes the exact rational result and narrows it once. What R15 leaves to
the IEEE 754 standard (signed zeros, infinities) is PRESUMED from it (log 13). -/

namespace Sys2Proof.Machine

/-! ## The format (R15) -/

/-- Bit 31: the sign. -/
def fsign (a : Word) : Bool := a.getLsbD 31

/-- Bits 30 to 23: the biased exponent. -/
def fexp (a : Word) : Nat := (a.extractLsb' 23 8).toNat

/-- Bits 22 to 0: the fraction. -/
def ffrac (a : Word) : Nat := (a.extractLsb' 0 23).toNat

/-- Bits 30 to 0: the pattern of the magnitude. Magnitudes that are no NaN are ordered as their patterns are. -/
def fmag (a : Word) : Nat := (a.extractLsb' 0 31).toNat

/-- A word from a sign and the pattern of a magnitude. -/
def withSign (s : Bool) (m : Nat) : Word := BitVec.ofBool s ++ BitVec.ofNat 31 m

/-- The magnitude pattern of an infinity. -/
def infMag : Nat := 0x7F800000

/-- NaN: exponent 255 and a fraction that is not zero. -/
def isnan (a : Word) : Bool := decide (infMag < fmag a)

/-- Infinity: exponent 255 and fraction zero. -/
def isinf (a : Word) : Bool := decide (fmag a = infMag)

/-- `isfinite`: neither an infinity nor a NaN (R14). -/
def isfinite (a : Word) : Bool := decide (fmag a < infMag)

/-- `iszero`: `+0` or `-0` (R14). -/
def iszero (a : Word) : Bool := decide (fmag a = 0)

/-- The integer significand, with the hidden bit of a normal number. -/
def significand (a : Word) : Nat := if fexp a = 0 then ffrac a else 2 ^ 23 + ffrac a

/-- The weight of the significand's last bit is `2 ^ (quantum a - 150)`. -/
def quantum (a : Word) : Nat := max (fexp a) 1

/-- The exact magnitude of a finite pattern (of others: log 24). -/
def magVal (a : Word) : Rat := mkRat (significand a * 2 ^ quantum a : Nat) (2 ^ 150)

/-- `val`: the exact rational value of a finite pattern (R14). Of an infinity or a NaN the rule gives no value; the number
that the bits would have there is the model's choice, and no rule asks for it (log 24). -/
def val (a : Word) : Rat := if fsign a then -magVal a else magVal a

/-! ## Rounding -/

/-- The integer nearest to `n / d`, the even one of two (`d > 0`). -/
def rneDiv (n d : Nat) : Nat :=
  if 2 * (n % d) < d then n / d
  else if d < 2 * (n % d) then n / d + 1
  else n / d + (n / d) % 2

/-- The magnitude pattern nearest to `q >= 0`: `q` is counted in units of `2 ^ -149`, rounded at 24 significant bits, and
a carry out of the significand steps the exponent; past the largest finite pattern it is the infinity. -/
def roundMag (q : Rat) : Nat :=
  let n := q.num.natAbs * 2 ^ 149
  let k := Nat.log2 (n / q.den) - 23
  min (k * 2 ^ 23 + rneDiv n (q.den * 2 ^ k)) infMag

/-- `ofrat`: a rational rounded once (R14). -/
def ofrat (q : Rat) : Word := withSign (decide (q < 0)) (roundMag q)

/-! ## Constants (R14) -/

/-- `+0` -/
def NUM_ZERO : Word := 0x00000000
/-- 1 -/
def NUM_ONE : Word := 0x3F800000
/-- 0.5 -/
def NUM_HALF : Word := 0x3F000000
/-- 0.1 rounded once -/
def NUM_TENTH : Word := 0x3DCCCCCD
/-- π rounded once -/
def NUM_PI : Word := 0x40490FDB
/-- 2π rounded once -/
def NUM_TWO_PI : Word := 0x40C90FDB
/-- π/2 rounded once (U7 (c)) -/
def NUM_HALF_PI : Word := 0x3FC90FDB

/-! ## Comparison (R14) -/

/-- The order of the values that are no NaN, both zeros at 0. -/
def orderKey (a : Word) : Int := if fsign a then -(fmag a : Int) else fmag a

/-- `flt`: false if either is a NaN. -/
def flt (a b : Word) : Bool := !isnan a && !isnan b && decide (orderKey a < orderKey b)

/-- `fgt0`: false for both zeros, negative values and NaN. -/
def fgt0 (a : Word) : Bool := !isnan a && decide (0 < orderKey a)

/-! ## The four rounded operations (R14, R15) -/

/-- A NaN whose sign and payload are a draw (R15, U6, log 6). -/
def nanOf (draw : BitVec 24) : Word :=
  withSign (draw.getLsbD 23)
    (infMag + (if draw.extractLsb' 0 23 = 0 then 2 ^ 22 else (draw.extractLsb' 0 23).toNat))

/-- The NaN that an operation produces from two operands. -/
def nanResult (op : Config.FloatOp) (a b : Word) : Word := nanOf (Config.nanDraw op a b)

/-- The same magnitude with the other sign. -/
def fneg (a : Word) : Word := withSign (!fsign a) (fmag a)

/-- The sum of two operands, `nan` where there is none. An exact zero sum is `-0` only if both operands are negative. -/
def sumOr (nan : Word) (a b : Word) : Word :=
  if isnan a || isnan b then nan
  else if isinf a then (if isinf b && fsign a != fsign b then nan else a)
  else if isinf b then b
  else if val a + val b = 0 then withSign (fsign a && fsign b) 0
  else ofrat (val a + val b)

/-- `fadd` -/
def fadd (a b : Word) : Word := sumOr (nanResult .add a b) a b

/-- `fsub`: the sum with the second operand's sign turned. -/
def fsub (a b : Word) : Word := sumOr (nanResult .sub a b) a (fneg b)

/-- `fmul` -/
def fmul (a b : Word) : Word :=
  if isnan a || isnan b then nanResult .mul a b
  else if isinf a || isinf b then
    (if iszero a || iszero b then nanResult .mul a b else withSign (fsign a != fsign b) infMag)
  else withSign (fsign a != fsign b) (roundMag (magVal a * magVal b))

/-- `fdiv` -/
def fdiv (a b : Word) : Word :=
  if isnan a || isnan b then nanResult .div a b
  else if isinf a then
    (if isinf b then nanResult .div a b else withSign (fsign a != fsign b) infMag)
  else if isinf b then withSign (fsign a != fsign b) 0
  else if iszero b then
    (if iszero a then nanResult .div a b else withSign (fsign a != fsign b) infMag)
  else withSign (fsign a != fsign b) (roundMag (magVal a / magVal b))

/-! ## The angle (R14, U7) -/

/-- How far the significand of a magnitude that is not zero must shift to have its top bit at bit 23. -/
def normShift (a : Word) : Nat := 23 - Nat.log2 (significand a)

/-- The significand shifted so. -/
def normSignificand (a : Word) : Nat := significand a * 2 ^ normShift a

/-- The exponent that goes with `normSignificand`. -/
def normExponent (a : Word) : Int := (quantum a : Int) - normShift a

/-- The angle on the negative axis, which the rules never ask for: a free pattern kept within `NUM_PI` (U7 (b)). -/
def negativeAxis (free : Word) : Word := withSign (fsign free) (min (fmag free) (fmag NUM_PI))

/-- `fatan2 y x`, "a configuration field of the model" (R14): free but for the properties U7 (b) to (f). On the axes it
is what U7 (c) says, and on the negative one, of which (c) is silent, free within `NUM_PI`; elsewhere it has the sign of
`y` and a free magnitude of at most `NUM_PI` that powers of two common to both arguments do not change (log 5). -/
def fatan2 (y x : Word) : Word :=
  if !(isfinite y && isfinite x) then Config.atan2NonFinite y x
  else if iszero y then
    (if fgt0 x then y
     else if iszero x then Config.atan2Origin y x
     else negativeAxis (Config.atan2NegativeAxis (fsign y) (normSignificand x)))
  else if iszero x then withSign (fsign y) (fmag NUM_HALF_PI)
  else withSign (fsign y)
    (min
      (Config.atan2Mag (normSignificand y) (normSignificand x) (normExponent y - normExponent x) (fsign x))
      (fmag NUM_PI))

/-- Profile `B32` (R9), the one the encodings assume. -/
def b32 : Config.NumProfile Word where
  zero := NUM_ZERO
  one := NUM_ONE
  half := NUM_HALF
  tenth := NUM_TENTH
  pi := NUM_PI
  twoPi := NUM_TWO_PI
  add := fadd
  sub := fsub
  mul := fmul
  div := fdiv
  atan2 := fatan2
  lt := flt
  gt0 := fgt0
  isZero := iszero
  isFinite := isfinite
  val := val
  ofRat := ofrat

end Sys2Proof.Machine
end

