-- ==== Sys2Proof/Syntax.lean ====
section
/-! DEFINITION. The twelve operations of spec/30 R98 and R105, one constructor for each row of spec/opcode_table.json. -/

namespace Sys2Proof

/-- An operation as the assembler line writes it (R105). `<num>` operands are `Num` patterns; the `<int>` operand of
`LDTAP` and the address of `RDREG` are natural numbers, which `WellFormed` bounds by the width of their field. -/
inductive Instr where
  /-- R192: load the construction argument `quadrature_rate`. -/
  | ldqr (d : Word)
  /-- R193: load the construction argument `audio_rate`. -/
  | ldar (d : Word)
  /-- R194: load the construction argument `max_deviation`. -/
  | lddv (d : Word)
  /-- R195: load the construction argument `deemphasis_tau`. -/
  | ldtc (d : Word)
  /-- R163: write tap `j`. -/
  | ldtap (j : Nat) (d : Word)
  /-- R196: construction. -/
  | build
  /-- R197: teardown. -/
  | teardn
  /-- R198: read the control and status register at word address `a`. -/
  | rdreg (a : Nat)
  /-- R121: `set_max_deviation`. -/
  | setdev (d : Word)
  /-- R147: `set_deemphasis_tau`. -/
  | settau (d : Word)
  /-- R199 with `LAST = 1`: the sample that ends its batch. -/
  | sample (i q : Word)
  /-- R199 with `LAST = 0`: a sample inside its batch. -/
  | samplec (i q : Word)
  deriving DecidableEq, Repr

/-- Which queue the operation's word travels on (R98): `true` for the ten commands of `CMDQ`. -/
def Instr.isCommand : Instr → Bool
  | .ldqr _ => true
  | .ldar _ => true
  | .lddv _ => true
  | .ldtc _ => true
  | .ldtap _ _ => true
  | .build => true
  | .teardn => true
  | .rdreg _ => true
  | .setdev _ => true
  | .settau _ => true
  | .sample _ _ => false
  | .samplec _ _ => false

end Sys2Proof
end

