-- ==== Sys2Proof/Machine/State.lean ====
section
/-! DEFINITION. The state of `BLOCK` and of its four queues as plain data (spec/10), the reasons a step can stop, and the
state after hardware reset (R45, R251). -/

namespace Sys2Proof.Machine

/-- The states of the pipeline controller (R27, R190). The transient ones exist only inside one atomic step (R203), so
no step starts or ends in them (log 9). -/
inductive Fsm where
  /-- encoding 0: no pipeline exists -/
  | unbuilt
  /-- encoding 1: transient, inside an accepted `BUILD` -/
  | building
  /-- encoding 2: samples are processed -/
  | run
  /-- encoding 3: transient, inside an accepted `SETDEV` or `SETTAU` -/
  | reconf
  deriving DecidableEq, Repr

/-- The causes of a rejection (R221). A rejection is a next state, not a stop of the machine (R230). -/
inductive Cause where
  /-- `E_ILLEGAL` (R222) -/
  | illegal
  /-- `E_STATE` (R223) -/
  | state
  /-- `E_ADDR` (R224) -/
  | addr
  /-- `E_QRATE` (R225) -/
  | qrate
  /-- `E_ARATE` (R226) -/
  | arate
  /-- `E_MAXDEV` (R227) -/
  | maxdev
  /-- `E_CUTOFF` (R228) -/
  | cutoff
  /-- `E_TAU` (R229) -/
  | tau
  deriving DecidableEq, Repr

/-- Why a step stops with a fault. -/
inductive Fault where
  /-- Raised by `SAMPLE` and `SAMPLEC` in a state with `RSTEP <= 0` or `RPOS < 0`, where the loop of R170 has no end or
  asks for a phase that does not exist. No run from reset meets such a state while `FSM = RUN` (R47 I3). Safe: the
  machine stops where the spec gives no next state (log 12). -/
  | schedulerInvalid
  deriving DecidableEq, Repr

/-- Why a step refuses an instruction. -/
inductive Refusal where
  /-- Answered by an arm of `exec` whose instruction has no meaning yet; no arm of this model does. Safe: nothing is
  claimed of the instruction. -/
  | notModelled (mnemonic : String)
  deriving DecidableEq, Repr

/-- The written cells of `TAPS` (R42, R62): (index, word) pairs with rising indices. A cell that is not listed has not
been written since hardware reset and holds its draw (R252, log 3). -/
abbrev Memory (Num : Type) := List (Nat × Num)

/-- The complete state (R20, R44) over the value type of a profile and the entry types of the four queues. The last three
fields are the model's own. -/
structure StateOf (Num Cmd Rsp Smp : Type) where
  /-- `FSM` (R27) -/
  fsm : Fsm
  /-- `DE_EN` (R28) -/
  deEn : Bool
  /-- `PREV_VALID` (R29) -/
  prevValid : Bool
  /-- `INBATCH` (R30) -/
  inbatch : Bool
  /-- `ERRV` (R37) -/
  errv : Bool
  /-- `QRATE` (R33) -/
  qrate : Num
  /-- `ARATE` (R34) -/
  arate : Num
  /-- `MAXDEV` (R35) -/
  maxdev : Num
  /-- `TAU` (R36) -/
  tau : Num
  /-- `GAIN` (R22) -/
  gain : Num
  /-- `ALPHA` (R23) -/
  alpha : Num
  /-- `BETA` (R23) -/
  beta : Num
  /-- `PREV_I` (R24) -/
  prevI : Num
  /-- `PREV_Q` (R24) -/
  prevQ : Num
  /-- `YPREV` (R25) -/
  yprev : Num
  /-- `ERRCODE` (R37) -/
  errcode : Word
  /-- `ERRCMDH` (R37) -/
  errcmdh : Word
  /-- `ERRCMDL` (R37) -/
  errcmdl : Num
  /-- `HIST` (R41), the newest sample first -/
  hist : List Num
  /-- `TAPS` (R42): its written cells -/
  taps : Memory Num
  /-- `RPOS` (R43), in phase units -/
  rpos : Rat
  /-- `RSTEP` (R43), in phase units -/
  rstep : Rat
  /-- `CMDQ` (R44), the head first -/
  cmdq : List Cmd
  /-- `RSPQ` (R44), the oldest first -/
  rspq : List Rsp
  /-- `INQ` (R44), the head first -/
  inq : List Smp
  /-- `OUTQ` (R44), the oldest first -/
  outq : List Num
  /-- The parameter `L` (R8), which nothing changes (R46, log 2). -/
  L : Nat
  /-- How many choices of `ARB` have been drawn (R188, log 4). -/
  arbCount : Nat
  /-- Which hardware reset drew the unwritten cells of `TAPS` (R252, log 3). -/
  tapsEpoch : Nat
  deriving DecidableEq, Repr

/-- The complete state of the machine: profile `B32`, every value and every queue entry a word of its width (R10). -/
structure State extends StateOf Word CmdWord RspWord SmpWord
  deriving DecidableEq, Repr

/-- What a step answers under any profile. -/
abbrev OutcomeOf (Num Cmd Rsp Smp : Type) := Host.Outcome (StateOf Num Cmd Rsp Smp) Fault Refusal

/-- What every arm of `exec` answers. -/
abbrev Outcome := Host.Outcome State Fault Refusal

/-- An answer under profile `B32` as the machine's. -/
def OutcomeOf.toState : OutcomeOf Word CmdWord RspWord SmpWord → Outcome
  | .next s => .next ⟨s⟩
  | .fault f => .fault f
  | .refused r => .refused r

/-- The state at launch for a block with `L` taps per phase (R251, R256), under any profile, whose `NUM_ZERO` is given:
the column "value after hardware reset" of R45, all four queues empty, no cell of `TAPS` written. -/
def StateOf.launch {Num Cmd Rsp Smp : Type} (zero : Num) (L : Nat) : StateOf Num Cmd Rsp Smp where
  fsm := .unbuilt
  deEn := false
  prevValid := false
  inbatch := false
  errv := false
  qrate := zero
  arate := zero
  maxdev := zero
  tau := zero
  gain := zero
  alpha := zero
  beta := zero
  prevI := zero
  prevQ := zero
  yprev := zero
  errcode := 0
  errcmdh := 0
  errcmdl := zero
  hist := List.replicate L zero
  taps := []
  rpos := 0
  rstep := 0
  cmdq := []
  rspq := []
  inq := []
  outq := []
  L := L
  arbCount := 0
  tapsEpoch := 0

/-- The state of the machine at launch. -/
def State.launch (L : Nat) : State := ⟨StateOf.launch 0 L⟩

/-- The machine right after reset. -/
def State.reset : State := State.launch Config.tapsPerPhase

end Sys2Proof.Machine
end

