-- ==== Sys2Proof/Machine/Flags.lean ====
section
/-! DEFINITION. The flags: how `STATUS` shows them and how each is computed (spec/10 R27 to R32, R37). -/

namespace Sys2Proof.Machine

/-- R27: the two bits of `FSM`. -/
def fsmCode : Fsm → BitVec 2
  | .unbuilt => 0
  | .building => 1
  | .run => 2
  | .reconf => 3

/-- R32: `STATUS`. Bits `[1:0]` `FSM`, 2 `DE_EN`, 3 `PREV_VALID`, 4 `ERRV`, the others 0. -/
def statusWord (f : Fsm) (deEn prevValid errv : Bool) : Word :=
  (0 : BitVec 27) ++ BitVec.ofBool errv ++ BitVec.ofBool prevValid ++ BitVec.ofBool deEn ++ fsmCode f

/-- R28, R145: `DE_EN` for a time constant, under any profile. -/
def deEnFlag {α : Type} (P : Config.NumProfile α) (tau : α) : Bool := P.gt0 tau

/-- R199: `INBATCH` after a sample word with this `LAST` bit. -/
def inbatchFlag (last : Bool) : Bool := !last

/-- R131: `PREV_VALID` after a sample: set by a sample of non-zero magnitude, never cleared by one (R132). -/
def prevValidFlag (zeroMagnitude prevValid : Bool) : Bool := !zeroMagnitude || prevValid

/-- R230: `ERRV` after a rejection; no command clears it (R232). -/
def errvFlag : Bool := true

end Sys2Proof.Machine
end

