-- ==== Sys2Proof/WellFormed.lean ====
section
/-! DEFINITION. Which operations have a word (spec/30 R105: the assembler refuses an `<int>` that does not fit its 24-bit
field; it does not refuse an address that the block will reject). -/

namespace Sys2Proof

/-- R90, R96, R97, R105: the integer operand fits the 24-bit field `a`. -/
def fitsAddressField (a : Nat) : Bool := decide (a < 2 ^ 24)

/-- The operation can be written as one word. -/
def Instr.wellFormed : Instr → Bool
  | .ldqr _ => true
  | .ldar _ => true
  | .lddv _ => true
  | .ldtc _ => true
  | .ldtap j _ => fitsAddressField j
  | .build => true
  | .teardn => true
  | .rdreg a => fitsAddressField a
  | .setdev _ => true
  | .settau _ => true
  | .sample _ _ => true
  | .samplec _ _ => true

/-- `wellFormed` as a proposition. -/
abbrev WellFormed (i : Instr) : Prop := i.wellFormed = true

end Sys2Proof
end

