-- ==== Sys2Proof/Decode.lean ====
section
/-! DEFINITION. Fields, opcode map, decoder, encoder and byte serialisation (spec/30; spec/20 R64). -/

namespace Sys2Proof

/-! ## Fields (R90, R92) -/

/-- `op = w[63:56]`. -/
def opField (w : CmdWord) : BitVec 8 := w.extractLsb' 56 8

/-- `a = w[55:32]`. -/
def aField (w : CmdWord) : BitVec 24 := w.extractLsb' 32 24

/-- `d = w[31:0]`, used unchanged (R99). -/
def dField (w : CmdWord) : Word := w.extractLsb' 0 32

/-- `LAST = s[64]`. -/
def lastField (s : SmpWord) : Bool := s.getLsbD 64

/-- `Q = s[63:32]`. -/
def qField (s : SmpWord) : Word := s.extractLsb' 32 32

/-- `I = s[31:0]`. -/
def iField (s : SmpWord) : Word := s.extractLsb' 0 32

/-! ## Decoding -/

/-- Why a word or a run of bytes is no operation. -/
inductive DecodeError where
  /-- R100 (a), R101: the opcode is reserved. -/
  | reservedOpcode
  /-- R100 (b): a must-be-zero field is not zero. -/
  | mustBeZero
  /-- R64, R92: the bits above `LAST` of a serialised sample are not zero. -/
  | samplePadding
  /-- R64: neither the 8 bytes of a command nor the 9 of a sample. -/
  | wordLength
  deriving DecidableEq, Repr

/-- The three fields of a command (R90), its datum a value of any profile. -/
structure Command (Num : Type) where
  /-- `op` -/
  op : BitVec 8
  /-- `a` -/
  a : BitVec 24
  /-- `d` -/
  d : Num
  deriving DecidableEq, Repr

/-- What each of the ten command opcodes stands for: an operation, or its meaning. -/
structure Operations (Num β : Type) where
  ldqr : Num → β
  ldar : Num → β
  lddv : Num → β
  ldtc : Num → β
  ldtap : Nat → Num → β
  build : β
  teardn : β
  rdreg : Nat → β
  setdev : Num → β
  settau : Num → β

section Formats
variable {Num β : Type}

/-- Format `C0` (R94): `a` and `d` must be 0. -/
def formatC0 (c : Command Num) (dZero : Bool) (x : β) : Except DecodeError β :=
  if c.a = 0 ∧ dZero = true then .ok x else .error .mustBeZero

/-- Format `CD` (R95): `a` must be 0. -/
def formatCD (c : Command Num) (mk : Num → β) : Except DecodeError β :=
  if c.a = 0 then .ok (mk c.d) else .error .mustBeZero

/-- Format `CAD` (R96): no field must be 0. -/
def formatCAD (c : Command Num) (mk : Nat → Num → β) : Except DecodeError β :=
  .ok (mk c.a.toNat c.d)

/-- Format `CA` (R97): `d` must be 0. -/
def formatCA (c : Command Num) (dZero : Bool) (mk : Nat → β) : Except DecodeError β :=
  if dZero = true then .ok (mk c.a.toNat) else .error .mustBeZero

/-- R98, R104: the decoder by fields; `dZero` says whether `d` is 0. -/
def decodeFields (m : Operations Num β) (c : Command Num) (dZero : Bool) : Except DecodeError β :=
  match c.op.toNat with
  | 0x01 => formatCD c m.ldqr
  | 0x02 => formatCD c m.ldar
  | 0x03 => formatCD c m.lddv
  | 0x04 => formatCD c m.ldtc
  | 0x05 => formatCAD c m.ldtap
  | 0x06 => formatC0 c dZero m.build
  | 0x07 => formatC0 c dZero m.teardn
  | 0x08 => formatCA c dZero m.rdreg
  | 0x10 => formatCD c m.setdev
  | 0x11 => formatCD c m.settau
  | _ => .error .reservedOpcode

end Formats

/-- The operations of the assembler (R105). -/
def instructions : Operations Word Instr where
  ldqr := .ldqr
  ldar := .ldar
  lddv := .lddv
  ldtc := .ldtc
  ldtap := .ldtap
  build := .build
  teardn := .teardn
  rdreg := .rdreg
  setdev := .setdev
  settau := .settau

/-- The fields of a command word. -/
def commandFields (w : CmdWord) : Command Word := ⟨opField w, aField w, dField w⟩

/-- R104: the decoder of command words. It does not depend on the state (R103). -/
def decodeCommand (w : CmdWord) : Except DecodeError Instr :=
  decodeFields instructions (commandFields w) (decide (dField w = 0))

/-- R92: every sample word is legal. -/
def decodeSample (s : SmpWord) : Instr :=
  if lastField s then .sample (iField s) (qField s) else .samplec (iField s) (qField s)

/-- A word of one of the two input ports. -/
inductive PortWord where
  /-- an entry of `CMDQ` -/
  | cmd (w : CmdWord)
  /-- an entry of `INQ` -/
  | smp (s : SmpWord)
  deriving DecidableEq, Repr

/-- The port selects the decoder: a sample's pattern never competes with a command's (R98). -/
def decode : PortWord → Except DecodeError Instr
  | .cmd w => decodeCommand w
  | .smp s => .ok (decodeSample s)

/-! ## Encoding -/

/-- R90: a command word from its three fields. -/
def packCommand (op : BitVec 8) (a : BitVec 24) (d : Word) : CmdWord := op ++ a ++ d

/-- R92: a sample word from its three fields. -/
def packSample (last : Bool) (q i : Word) : SmpWord := BitVec.ofBool last ++ q ++ i

/-- R98: the word of a command (of a sample: the all-zero word, which is no command). -/
def encodeCommand : Instr → CmdWord
  | .ldqr d => packCommand 0x01 0 d
  | .ldar d => packCommand 0x02 0 d
  | .lddv d => packCommand 0x03 0 d
  | .ldtc d => packCommand 0x04 0 d
  | .ldtap j d => packCommand 0x05 (BitVec.ofNat 24 j) d
  | .build => packCommand 0x06 0 0
  | .teardn => packCommand 0x07 0 0
  | .rdreg a => packCommand 0x08 (BitVec.ofNat 24 a) 0
  | .setdev d => packCommand 0x10 0 d
  | .settau d => packCommand 0x11 0 d
  | .sample _ _ => 0
  | .samplec _ _ => 0

/-- The word of a well-formed operation, on the port it travels on (R98). -/
def encode : Instr → PortWord
  | .ldqr d => .cmd (encodeCommand (.ldqr d))
  | .ldar d => .cmd (encodeCommand (.ldar d))
  | .lddv d => .cmd (encodeCommand (.lddv d))
  | .ldtc d => .cmd (encodeCommand (.ldtc d))
  | .ldtap j d => .cmd (encodeCommand (.ldtap j d))
  | .build => .cmd (encodeCommand .build)
  | .teardn => .cmd (encodeCommand .teardn)
  | .rdreg a => .cmd (encodeCommand (.rdreg a))
  | .setdev d => .cmd (encodeCommand (.setdev d))
  | .settau d => .cmd (encodeCommand (.settau d))
  | .sample i q => .smp (packSample true q i)
  | .samplec i q => .smp (packSample false q i)

/-! ## The opcode map as masks and patterns -/

/-- R98: the columns `mask` and `match` of the operation's row, over the 64 or 65 bits of its word. -/
def opcodeRow : Instr → Nat × Nat
  | .ldqr _ => (0xFFFFFFFF00000000, 0x0100000000000000)
  | .ldar _ => (0xFFFFFFFF00000000, 0x0200000000000000)
  | .lddv _ => (0xFFFFFFFF00000000, 0x0300000000000000)
  | .ldtc _ => (0xFFFFFFFF00000000, 0x0400000000000000)
  | .ldtap _ _ => (0xFF00000000000000, 0x0500000000000000)
  | .build => (0xFFFFFFFFFFFFFFFF, 0x0600000000000000)
  | .teardn => (0xFFFFFFFFFFFFFFFF, 0x0700000000000000)
  | .rdreg _ => (0xFF000000FFFFFFFF, 0x0800000000000000)
  | .setdev _ => (0xFFFFFFFF00000000, 0x1000000000000000)
  | .settau _ => (0xFFFFFFFF00000000, 0x1100000000000000)
  | .sample _ _ => (0x10000000000000000, 0x10000000000000000)
  | .samplec _ _ => (0x10000000000000000, 0x00000000000000000)

/-- The bits of a port word as a number. -/
def PortWord.bits : PortWord → Nat
  | .cmd w => w.toNat
  | .smp s => s.toNat

/-! ## Serialisation (R64: little-endian; a sample takes 9 bytes) -/

/-- The `n` low bytes of `w`, the least significant first. -/
def bytesLE (n w : Nat) : List (BitVec 8) :=
  (List.range n).map fun k => BitVec.ofNat 8 (w >>> (8 * k))

/-- The number that bytes carry, the first byte in bits 7 to 0. -/
def natOfBytesLE : List (BitVec 8) → Nat
  | [] => 0
  | b :: bs => b.toNat + 256 * natOfBytesLE bs

/-- The bytes of a port word. -/
def PortWord.toBytes : PortWord → List (BitVec 8)
  | .cmd w => bytesLE 8 w.toNat
  | .smp s => bytesLE 9 s.toNat

/-- The port word that bytes carry: 8 bytes are a command, 9 bytes with zeros above `LAST` a sample. -/
def portWordOfBytes (bs : List (BitVec 8)) : Except DecodeError PortWord :=
  match bs.length with
  | 8 => .ok (.cmd (BitVec.ofNat 64 (natOfBytesLE bs)))
  | 9 =>
    if natOfBytesLE bs < 2 ^ 65 then .ok (.smp (BitVec.ofNat 65 (natOfBytesLE bs)))
    else .error .samplePadding
  | _ => .error .wordLength

/-- The decoder on bytes, total on every list of bytes. -/
def decodeBytes (bs : List (BitVec 8)) : Except DecodeError Instr :=
  match portWordOfBytes bs with
  | .ok p => decode p
  | .error e => .error e

/-- How many bytes hold an instruction of `nbits` bits: the 8 of a command, or as many as the bits need. -/
def byteCount (nbits : Nat) : Nat := if nbits ≤ 64 then 8 else (nbits + 7) / 8

/-- The instruction the decoder reads from the opcode-table word `w`: 64 bits are a command, 65 (in whole bytes 72) a
sample. -/
def decodeTableWord (nbits w : Nat) : Option Instr :=
  match decodeBytes (bytesLE (byteCount nbits) w) with
  | .ok i => some i
  | .error _ => none

end Sys2Proof
end

