-- ==== Sys2Proof/Machine/Profile.lean ====
section
/-! DEFINITION. What a run takes from its numeric profile (spec/00 R9; spec/70 R256): the value type with its operations,
the draw of `TAPS`, and how queue entries carry values. The words of spec/30 are those of profile `B32`. -/

namespace Sys2Proof.Machine

/-- The datum of a response (R91): a value, or an unsigned word that is no value (R39). -/
inductive Datum (Num : Type) where
  | num (v : Num)
  | bits (w : Word)
  deriving DecidableEq, Repr

/-- A response by its fields (R91). -/
structure Response (Num : Type) where
  /-- `code` -/
  code : BitVec 8
  /-- `data` -/
  data : Datum Num
  deriving DecidableEq, Repr

/-- A sample by its fields (R92). -/
structure Sample (Num : Type) where
  /-- `LAST` -/
  last : Bool
  /-- `Q` -/
  q : Num
  /-- `I` -/
  i : Num
  deriving DecidableEq, Repr

/-- A numeric profile with its queue entries. -/
structure Profile (Num Cmd Rsp Smp : Type) where
  /-- the value type's operations (R14) -/
  num : Config.NumProfile Num
  /-- what the cells of `TAPS` hold after each hardware reset (R252) -/
  tapsDraw : Nat → Nat → Num
  /-- `d` is 0, as a field that must be 0 (R94, R97) -/
  isClear : Num → Bool
  /-- a command entry by its fields (R90) -/
  fields : Cmd → Command Num
  /-- the command entry with these fields -/
  pack : Command Num → Cmd
  /-- bits 63 to 32 of a command entry (R230) -/
  high : Cmd → Word
  /-- bits 31 to 0 of a command entry (R230) -/
  low : Cmd → Num
  /-- the response entry with these fields (R91) -/
  response : Response Num → Rsp
  /-- a sample entry by its fields (R92) -/
  sample : Smp → Sample Num

/-- The entry of each command (R98). -/
def Profile.word {Num Cmd Rsp Smp : Type} (P : Profile Num Cmd Rsp Smp) : Operations Num Cmd where
  ldqr := fun d => P.pack ⟨0x01, 0, d⟩
  ldar := fun d => P.pack ⟨0x02, 0, d⟩
  lddv := fun d => P.pack ⟨0x03, 0, d⟩
  ldtc := fun d => P.pack ⟨0x04, 0, d⟩
  ldtap := fun j d => P.pack ⟨0x05, BitVec.ofNat 24 j, d⟩
  build := P.pack ⟨0x06, 0, P.num.zero⟩
  teardn := P.pack ⟨0x07, 0, P.num.zero⟩
  rdreg := fun a => P.pack ⟨0x08, BitVec.ofNat 24 a, P.num.zero⟩
  setdev := fun d => P.pack ⟨0x10, 0, d⟩
  settau := fun d => P.pack ⟨0x11, 0, d⟩

/-- The bits of a datum in profile `B32`. -/
def Datum.word : Datum Word → Word
  | .num v => v
  | .bits w => w

/-- R91: a response word. -/
def responseWord (code : BitVec 8) (data : Word) : RspWord := code ++ data

/-- Profile `B32`, the one of the machine: every entry a word of spec/30. -/
def b32Machine : Profile Word CmdWord RspWord SmpWord where
  num := b32
  tapsDraw := Config.tapsDraw
  isClear := fun d => decide (d = 0)
  fields := commandFields
  pack := fun c => packCommand c.op c.a c.d
  high := fun w => w.extractLsb' 32 32
  low := fun w => w.extractLsb' 0 32
  response := fun r => responseWord r.code r.data.word
  sample := fun s => ⟨lastField s, qField s, iField s⟩

end Sys2Proof.Machine
end

