-- ==== Sys2Proof/Machine/Ops.lean ====
section
/-! DEFINITION. The named operations over registers, memories and queues, and the one exception of the block, the
rejection of a command (spec/20, spec/60 section 2), each over any profile. -/

namespace Sys2Proof.Machine

variable {Num Cmd Rsp Smp : Type} (P : Profile Num Cmd Rsp Smp)

/-! ## The coefficient memory `TAPS` (R42, R62, R252) -/

/-- The word written last to cell `j`, if one was. -/
def Memory.read? : Memory Num → Nat → Option Num
  | [], _ => none
  | (i, v) :: m, j => if i = j then some v else Memory.read? m j

/-- Cell `j` written, the indices kept rising. -/
def Memory.write : Memory Num → Nat → Num → Memory Num
  | [], j, d => [(j, d)]
  | (i, v) :: m, j, d =>
    if j < i then (j, d) :: (i, v) :: m
    else if j = i then (j, d) :: m
    else (i, v) :: Memory.write m j d

/-- The canonical form: indices strictly rising, hence one entry for each written cell (log 3). -/
abbrev Memory.wf (m : Memory Num) : Prop := m.Pairwise fun x y => x.1 < y.1

/-- The number of cells of `TAPS` (R42). -/
def StateOf.tapCells (s : StateOf Num Cmd Rsp Smp) : Nat := Config.NPH * s.L

/-- `TAPS[j]` read: the written word, or the draw of the current hardware reset (R252). -/
def StateOf.readTap (s : StateOf Num Cmd Rsp Smp) (j : Nat) : Num :=
  (Memory.read? s.taps j).getD (P.tapsDraw s.tapsEpoch j)

/-- `TAPS[j]` of the machine. -/
def State.readTap (s : State) (j : Nat) : Word := s.toStateOf.readTap b32Machine j

/-- `TAPS[j] <- d` (R163). -/
def StateOf.writeTap (s : StateOf Num Cmd Rsp Smp) (j : Nat) (d : Num) : StateOf Num Cmd Rsp Smp :=
  { s with taps := Memory.write s.taps j d }

/-! ## Control and status registers (R40, R61) -/

/-- The nineteen registers of R40. -/
inductive Csr where
  | id | status | qrate | arate | maxdev | tau | gain | alpha | beta | errcode | errcmdh | errcmdl
  | dreqOsf | dreqCutoff | dreqTrans | ntaps | prevI | prevQ | yprev
  deriving DecidableEq, Repr

/-- The word address of a register (R40). -/
def Csr.addr : Csr → Nat
  | .id => 0x00
  | .status => 0x01
  | .qrate => 0x02
  | .arate => 0x03
  | .maxdev => 0x04
  | .tau => 0x05
  | .gain => 0x06
  | .alpha => 0x07
  | .beta => 0x08
  | .errcode => 0x09
  | .errcmdh => 0x0A
  | .errcmdl => 0x0B
  | .dreqOsf => 0x0C
  | .dreqCutoff => 0x0D
  | .dreqTrans => 0x0E
  | .ntaps => 0x0F
  | .prevI => 0x10
  | .prevQ => 0x11
  | .yprev => 0x12

/-- The register at a word address; there is none above `0x12` (R61, R68). -/
def Csr.ofAddr? : Nat → Option Csr
  | 0x00 => some .id
  | 0x01 => some .status
  | 0x02 => some .qrate
  | 0x03 => some .arate
  | 0x04 => some .maxdev
  | 0x05 => some .tau
  | 0x06 => some .gain
  | 0x07 => some .alpha
  | 0x08 => some .beta
  | 0x09 => some .errcode
  | 0x0A => some .errcmdh
  | 0x0B => some .errcmdl
  | 0x0C => some .dreqOsf
  | 0x0D => some .dreqCutoff
  | 0x0E => some .dreqTrans
  | 0x0F => some .ntaps
  | 0x10 => some .prevI
  | 0x11 => some .prevQ
  | 0x12 => some .yprev
  | _ => none

/-- R1, R31: the identity word. -/
def identityWord : Word := 0x464D5144

/-- R38, R161: the cutoff asked of the design routine, under any profile. -/
def dreqCutoff {α : Type} (P : Config.NumProfile α) (qrate arate : α) : α :=
  P.mul (if P.lt qrate arate then qrate else arate) P.half

/-- R38, R161: the transition width asked of the design routine. -/
def dreqTrans {α : Type} (P : Config.NumProfile α) (qrate arate : α) : α :=
  P.mul (dreqCutoff P qrate arate) P.tenth

/-- R31 to R40: the content of a register; the views are computed at the time of the read. -/
def StateOf.csrValue (s : StateOf Num Cmd Rsp Smp) : Csr → Datum Num
  | .id => .bits identityWord
  | .status => .bits (statusWord s.fsm s.deEn s.prevValid s.errv)
  | .qrate => .num s.qrate
  | .arate => .num s.arate
  | .maxdev => .num s.maxdev
  | .tau => .num s.tau
  | .gain => .num s.gain
  | .alpha => .num s.alpha
  | .beta => .num s.beta
  | .errcode => .bits s.errcode
  | .errcmdh => .bits s.errcmdh
  | .errcmdl => .num s.errcmdl
  | .dreqOsf => .bits (BitVec.ofNat 32 Config.NPH)
  | .dreqCutoff => .num (dreqCutoff P.num s.qrate s.arate)
  | .dreqTrans => .num (dreqTrans P.num s.qrate s.arate)
  | .ntaps => .bits (BitVec.ofNat 32 s.L)
  | .prevI => .num s.prevI
  | .prevQ => .num s.prevQ
  | .yprev => .num s.yprev

/-- `MemRead(CSR, a)` (R61): no cell above `0x12`. -/
def StateOf.csrRead? (s : StateOf Num Cmd Rsp Smp) (a : Nat) : Option (Datum Num) :=
  (Csr.ofAddr? a).map (s.csrValue P)

/-- `MemRead(CSR, a)` of the machine, as a word. -/
def State.csrRead? (s : State) (a : Nat) : Option Word :=
  (s.toStateOf.csrRead? b32Machine a).map Datum.word

/-! ## Responses (R44, R74) -/

/-- The response of an accepted command: `RSPQ.push({0x00, data})`. -/
def StateOf.respond (s : StateOf Num Cmd Rsp Smp) (data : Datum Num) : StateOf Num Cmd Rsp Smp :=
  { s with rspq := s.rspq ++ [P.response ⟨0, data⟩] }

/-- The response of an accepted command without data: `RSPQ.push({0x00, 0x00000000})`. -/
def StateOf.accept (s : StateOf Num Cmd Rsp Smp) : StateOf Num Cmd Rsp Smp := s.respond P (.bits 0)

/-! ## The exception: rejection of a command (R221, R230) -/

/-- R221: the response code of a cause. -/
def Cause.code : Cause → BitVec 8
  | .illegal => 0x01
  | .state => 0x02
  | .addr => 0x03
  | .qrate => 0x10
  | .arate => 0x11
  | .maxdev => 0x12
  | .cutoff => 0x13
  | .tau => 0x14

/-- R230: all that `raise Reject(code)` does for the command entry `w`. Nothing is saved, no mode changes and control goes
nowhere; hence there is nothing to return from and no operation that returns (R232). -/
def StateOf.reject (s : StateOf Num Cmd Rsp Smp) (c : Cause) (w : Cmd) : StateOf Num Cmd Rsp Smp :=
  { s with
    errv := errvFlag
    errcode := c.code.setWidth 32
    errcmdh := P.high w
    errcmdl := P.low w
    rspq := s.rspq ++ [P.response ⟨c.code, .bits 0⟩] }

/-! ## The state check of a command (R223) -/

/-- A command permitted only while `FSM` is `need`; otherwise it is rejected with `E_STATE`, its operand neither checked
nor stored. -/
def StateOf.whenFsm (s : StateOf Num Cmd Rsp Smp) (need : Fsm) (w : Cmd) (permitted : StateOf Num Cmd Rsp Smp) :
    StateOf Num Cmd Rsp Smp :=
  if s.fsm = need then permitted else s.reject P .state w

/-! ## Loads of the construction arguments (R192 to R195) -/

/-- `QRATE <- d` -/
def StateOf.setQrate (s : StateOf Num Cmd Rsp Smp) (d : Num) : StateOf Num Cmd Rsp Smp := { s with qrate := d }

/-- `ARATE <- d` -/
def StateOf.setArate (s : StateOf Num Cmd Rsp Smp) (d : Num) : StateOf Num Cmd Rsp Smp := { s with arate := d }

/-- `MAXDEV <- d` -/
def StateOf.setMaxdev (s : StateOf Num Cmd Rsp Smp) (d : Num) : StateOf Num Cmd Rsp Smp := { s with maxdev := d }

/-- `TAU <- d` -/
def StateOf.setTau (s : StateOf Num Cmd Rsp Smp) (d : Num) : StateOf Num Cmd Rsp Smp := { s with tau := d }

end Sys2Proof.Machine
end

