-- ==== Sys2Proof/Machine/Deemph.lean ====
section
/-! DEFINITION. The de-emphasis filter (spec/42): `DECOEF`, `DEEMPH` and `SETTAU`. -/

namespace Sys2Proof.Machine

/-- What `DECOEF` answers. -/
structure Coef (α : Type) where
  /-- the filter is active -/
  en : Bool
  /-- `ALPHA` -/
  alpha : α
  /-- `BETA` -/
  beta : α
  deriving DecidableEq, Repr

/-- R145: `alpha = 1 ÷ (1 + tau × fs)`. -/
def decoefAlpha {α : Type} (P : Config.NumProfile α) (tau fs : α) : α :=
  P.div P.one (P.add P.one (P.mul tau fs))

/-- R145: `DECOEF(tau, fs)`, under any profile. The callers pass `fs = QRATE` (R150). -/
def decoef {α : Type} (P : Config.NumProfile α) (tau fs : α) : Coef α :=
  if deEnFlag P tau then
    ⟨true, decoefAlpha P tau fs, P.sub P.one (decoefAlpha P tau fs)⟩
  else ⟨false, P.one, P.zero⟩

/-- R146: the recurrence `(ALPHA × x) + (BETA × YPREV)`. -/
def deemphStep {α : Type} (P : Config.NumProfile α) (alpha beta yprev x : α) : α :=
  P.add (P.mul alpha x) (P.mul beta yprev)

/-- R146, R148: `DEEMPH(x)`: the value returned and `YPREV` after, under any profile. -/
def deemph {α : Type} (P : Config.NumProfile α) (deEn : Bool) (alpha beta yprev x : α) : α × α :=
  if deEn then (deemphStep P alpha beta yprev x, deemphStep P alpha beta yprev x) else (x, yprev)

variable {Num Cmd Rsp Smp : Type} (P : Profile Num Cmd Rsp Smp)

/-- R147: the writes of an accepted `SETTAU`, inside the one step (R203). -/
def StateOf.applySettau (s : StateOf Num Cmd Rsp Smp) (d : Num) : StateOf Num Cmd Rsp Smp :=
  { s with
    tau := d
    deEn := (decoef P.num d s.qrate).en
    alpha := (decoef P.num d s.qrate).alpha
    beta := (decoef P.num d s.qrate).beta
    yprev := P.num.zero
    fsm := .run }

/-- R147: `SETTAU d` under any profile. Only an infinity or a NaN is rejected (C7). -/
def StateOf.settau (s : StateOf Num Cmd Rsp Smp) (d : Num) : StateOf Num Cmd Rsp Smp :=
  s.whenFsm P .run (P.word.settau d) <|
    if P.num.isFinite d then (s.applySettau P d).accept P
    else s.reject P .tau (P.word.settau d)

/-- R147: `SETTAU d`. -/
def execSettau (d : Word) (s : State) : Outcome := .next ⟨s.toStateOf.settau b32Machine d⟩

end Sys2Proof.Machine
end

