-- ==== Sys2Proof/Machine/Demod.lean ====
section
/-! DEFINITION. The quadrature demodulator (spec/41): `DEMOD`. -/

namespace Sys2Proof.Machine

/-- What `DEMOD` answers: its value and the Demodulator State after the call (R130). -/
structure DemodResult (α : Type) where
  /-- the value returned -/
  out : α
  /-- `PREV_I` after -/
  prevI : α
  /-- `PREV_Q` after -/
  prevQ : α
  /-- `PREV_VALID` after -/
  prevValid : Bool
  deriving DecidableEq, Repr

/-- R131: real part of `s · conj(prev)`. -/
def demodRe {α : Type} (P : Config.NumProfile α) (i q prevI prevQ : α) : α :=
  P.add (P.mul i prevI) (P.mul q prevQ)

/-- R131: imaginary part of `s · conj(prev)`. -/
def demodIm {α : Type} (P : Config.NumProfile α) (i q prevI prevQ : α) : α :=
  P.sub (P.mul q prevI) (P.mul i prevQ)

/-- R131, R135, R136: the phase difference from the conjugate product. -/
def dphi {α : Type} (P : Config.NumProfile α) (re im : α) : α :=
  if P.isZero re && P.isZero im then P.zero
  else if P.isZero im && P.lt re P.zero then P.pi
  else P.atan2 im re

/-- R131: `DEMOD(i, q)` with the gain and the Demodulator State before the call, under any profile. A zero-magnitude
sample changes nothing (R132); the first other sample primes the state (R133). -/
def demod {α : Type} (P : Config.NumProfile α) (gain prevI prevQ : α) (prevValid : Bool) (i q : α) :
    DemodResult α :=
  if P.isZero i && P.isZero q then ⟨P.zero, prevI, prevQ, prevValidFlag true prevValid⟩
  else if prevValid then
    ⟨P.mul gain (dphi P (demodRe P i q prevI prevQ) (demodIm P i q prevI prevQ)), i, q,
      prevValidFlag false prevValid⟩
  else ⟨P.zero, i, q, prevValidFlag false prevValid⟩

end Sys2Proof.Machine
end

