-- ==== Sys2Proof/Machine/Gain.lean ====
section
/-! DEFINITION. The gain calculator (spec/40): `GAINCALC` and `SETDEV`. -/

namespace Sys2Proof.Machine

/-- R120: `GAINCALC(fs, dmax) = fs ÷ (NUM_TWO_PI × dmax)`, under any profile. The callers guarantee that both arguments
are finite and positive (U1, log 18). -/
def gaincalc {α : Type} (P : Config.NumProfile α) (fs dmax : α) : α :=
  P.div fs (P.mul P.twoPi dmax)

/-- R121, R227: the check of a maximum deviation. -/
def validPositive {α : Type} (P : Config.NumProfile α) (d : α) : Bool := P.isFinite d && P.gt0 d

variable {Num Cmd Rsp Smp : Type} (P : Profile Num Cmd Rsp Smp)

/-- R121: the writes of an accepted `SETDEV`. `FSM` passes through `RECONF` and ends at `RUN` inside the one step
(R203). -/
def StateOf.applySetdev (s : StateOf Num Cmd Rsp Smp) (d : Num) : StateOf Num Cmd Rsp Smp :=
  { s with maxdev := d, gain := gaincalc P.num s.qrate d, fsm := .run }

/-- R121: `SETDEV d` under any profile. -/
def StateOf.setdev (s : StateOf Num Cmd Rsp Smp) (d : Num) : StateOf Num Cmd Rsp Smp :=
  s.whenFsm P .run (P.word.setdev d) <|
    if validPositive P.num d then (s.applySetdev P d).accept P
    else s.reject P .maxdev (P.word.setdev d)

/-- R121: `SETDEV d`. -/
def execSetdev (d : Word) (s : State) : Outcome := .next ⟨s.toStateOf.setdev b32Machine d⟩

end Sys2Proof.Machine
end

