-- ==== Sys2Proof/Machine/Resample.lean ====
section
/-! DEFINITION. The rate converter (spec/43): `LDTAP`, `FIR`, `FIRN`, `INTERP` and the scheduler `RESAMP`. -/

namespace Sys2Proof.Machine

section Load
variable {Num Cmd Rsp Smp : Type} (P : Profile Num Cmd Rsp Smp)

/-- R163: `LDTAP j, d` under any profile. The value is not checked. -/
def StateOf.ldtap (s : StateOf Num Cmd Rsp Smp) (j : Nat) (d : Num) : StateOf Num Cmd Rsp Smp :=
  s.whenFsm P .unbuilt (P.word.ldtap j d) <|
    if s.tapCells ≤ j then s.reject P .addr (P.word.ldtap j d)
    else (s.writeTap j d).accept P

end Load

/-- R163: `LDTAP j, d`. -/
def execLdtap (j : Nat) (d : Word) (s : State) : Outcome := .next ⟨s.toStateOf.ldtap b32Machine j d⟩

section Bank
variable {α : Type} (P : Config.NumProfile α)

/-- R164: `ARM(p)[k] = TAPS[p + 32·k]`. -/
def armTap (tap : Nat → α) (p k : Nat) : α := tap (p + Config.NPH * k)

/-- R165: `NXT(p)[k]`, the row one phase unit later; past arm 31 it is arm 0 shifted by one tap, its last term zero. -/
def nextTap (tap : Nat → α) (L p k : Nat) : α :=
  if p < 31 then tap (p + 1 + Config.NPH * k)
  else if k + 1 < L then tap (Config.NPH * (k + 1))
  else P.zero

/-- R166: the dot product of a row with the delay line, accumulated from `+0`, the newest sample first. -/
def dotRow (row : Nat → α) (hist : List α) (L : Nat) : α :=
  (List.range L).foldl (fun acc k => P.add acc (P.mul (row k) (hist.getD k P.zero))) P.zero

/-- R166: `FIR(p)`. -/
def fir (tap : Nat → α) (hist : List α) (L p : Nat) : α := dotRow P (armTap tap p) hist L

/-- R167: `FIRN(p)`. -/
def firn (tap : Nat → α) (hist : List α) (L p : Nat) : α := dotRow P (nextTap P tap L p) hist L

/-- R168: `INTERP(p, mu)`. -/
def interp (tap : Nat → α) (hist : List α) (L p : Nat) (mu : Rat) : α :=
  if mu = 0 then fir P tap hist L p
  else P.add (fir P tap hist L p)
    (P.mul (P.ofRat mu) (P.sub (firn P tap hist L p) (fir P tap hist L p)))

/-- R170: the output at scheduler position `pos`: phase `floor(pos)`, fraction `pos − floor(pos)`. -/
def outputAt (tap : Nat → α) (hist : List α) (L : Nat) (pos : Rat) : α :=
  interp P tap hist L pos.floor.toNat (pos - pos.floor)

end Bank

/-- R170: the delay line after the shift. -/
def shiftIn {α : Type} (e : α) (hist : List α) (L : Nat) : List α := (e :: hist).take L

/-- How many times the loop of R170 runs: the least `n` with `RPOS + n·RSTEP >= 32`, for `RSTEP > 0`. -/
def loopCount (rpos rstep : Rat) : Nat := ((Config.NPH - rpos) / rstep).ceil.toNat

/-- R170: the loop `while RPOS < 32`, for at most `fuel` turns: the positions at which it outputs, and `RPOS` after. -/
def scheduleLoop (rstep : Rat) : Nat → Rat → List Rat × Rat
  | 0, rpos => ([], rpos)
  | fuel + 1, rpos =>
    if rpos < Config.NPH then
      let later := scheduleLoop rstep fuel (rpos + rstep)
      (rpos :: later.1, later.2)
    else ([], rpos)

/-- R170: the positions of one input sample's outputs. -/
def outputPositions (rpos rstep : Rat) : List Rat := (scheduleLoop rstep (loopCount rpos rstep) rpos).1

/-- R170: `RPOS` after one input sample. -/
def nextRpos (rpos rstep : Rat) : Rat :=
  (scheduleLoop rstep (loopCount rpos rstep) rpos).2 - Config.NPH

/-- R170: the words `RESAMP(e)` pushes to `OUTQ`, from the delay line as it stands after the shift. -/
def resampOutputs {α : Type} (P : Config.NumProfile α) (tap : Nat → α) (hist : List α) (L : Nat)
    (rpos rstep : Rat) : List α :=
  (outputPositions rpos rstep).map (outputAt P tap hist L)

/-- R169: `RSTEP` set by an accepted `BUILD`. -/
def stepOfRates {α : Type} (P : Config.NumProfile α) (qrate arate : α) : Rat :=
  Config.NPH * P.val qrate / P.val arate

end Sys2Proof.Machine
end

