-- ==== Sys2Proof/Machine/Controller.lean ====
section
/-! DEFINITION. The pipeline controller (spec/44): the four loads, `BUILD`, `TEARDN`, `RDREG`, and the sample operation
that runs the three stages in their fixed order (R185). -/

namespace Sys2Proof.Machine

variable {Num Cmd Rsp Smp : Type} (P : Profile Num Cmd Rsp Smp)

/-! ## Loads (R192 to R195) -/

/-- R192: `LDQR d` under any profile. -/
def StateOf.ldqr (s : StateOf Num Cmd Rsp Smp) (d : Num) : StateOf Num Cmd Rsp Smp :=
  s.whenFsm P .unbuilt (P.word.ldqr d) ((s.setQrate d).accept P)

/-- R192: `LDQR d`. -/
def execLdqr (d : Word) (s : State) : Outcome := .next ⟨s.toStateOf.ldqr b32Machine d⟩

/-- R193: `LDAR d` under any profile. -/
def StateOf.ldar (s : StateOf Num Cmd Rsp Smp) (d : Num) : StateOf Num Cmd Rsp Smp :=
  s.whenFsm P .unbuilt (P.word.ldar d) ((s.setArate d).accept P)

/-- R193: `LDAR d`. -/
def execLdar (d : Word) (s : State) : Outcome := .next ⟨s.toStateOf.ldar b32Machine d⟩

/-- R194: `LDDV d` under any profile. -/
def StateOf.lddv (s : StateOf Num Cmd Rsp Smp) (d : Num) : StateOf Num Cmd Rsp Smp :=
  s.whenFsm P .unbuilt (P.word.lddv d) ((s.setMaxdev d).accept P)

/-- R194: `LDDV d`. -/
def execLddv (d : Word) (s : State) : Outcome := .next ⟨s.toStateOf.lddv b32Machine d⟩

/-- R195: `LDTC d` under any profile. -/
def StateOf.ldtc (s : StateOf Num Cmd Rsp Smp) (d : Num) : StateOf Num Cmd Rsp Smp :=
  s.whenFsm P .unbuilt (P.word.ldtc d) ((s.setTau d).accept P)

/-- R195: `LDTC d`. -/
def execLdtc (d : Word) (s : State) : Outcome := .next ⟨s.toStateOf.ldtc b32Machine d⟩

/-! ## Construction and teardown -/

/-- R175: the cutoff the block would request is not positive or exceeds half of a rate. -/
def cutoffInvalid {α : Type} (P : Config.NumProfile α) (qrate arate : α) : Bool :=
  !P.gt0 (dreqCutoff P qrate arate)
    || P.lt (P.mul qrate P.half) (dreqCutoff P qrate arate)
    || P.lt (P.mul arate P.half) (dreqCutoff P qrate arate)

/-- R196, R231: the first operand check of `BUILD` that fails, in the order of the rule. -/
def configError? {α : Type} (P : Config.NumProfile α) (qrate arate maxdev tau : α) : Option Cause :=
  if !validPositive P qrate then some .qrate
  else if !validPositive P arate then some .arate
  else if !validPositive P maxdev then some .maxdev
  else if !P.isFinite tau then some .tau
  else if cutoffInvalid P qrate arate then some .cutoff
  else none

/-- R196: the writes of an accepted `BUILD`; `FSM` passes through `BUILDING` inside the one step (R203). -/
def StateOf.applyBuild (s : StateOf Num Cmd Rsp Smp) : StateOf Num Cmd Rsp Smp :=
  { s with
    gain := gaincalc P.num s.qrate s.maxdev
    deEn := (decoef P.num s.tau s.qrate).en
    alpha := (decoef P.num s.tau s.qrate).alpha
    beta := (decoef P.num s.tau s.qrate).beta
    yprev := P.num.zero
    prevI := P.num.zero
    prevQ := P.num.zero
    prevValid := false
    hist := List.replicate s.L P.num.zero
    rpos := 0
    rstep := stepOfRates P.num s.qrate s.arate
    inbatch := false
    fsm := .run }

/-- R196: `BUILD` under any profile. -/
def StateOf.build (s : StateOf Num Cmd Rsp Smp) : StateOf Num Cmd Rsp Smp :=
  s.whenFsm P .unbuilt P.word.build <|
    match configError? P.num s.qrate s.arate s.maxdev s.tau with
    | some c => s.reject P c P.word.build
    | none => (s.applyBuild P).accept P

/-- R196: `BUILD`. -/
def execBuild (s : State) : Outcome := .next ⟨s.toStateOf.build b32Machine⟩

/-- R197: the column "value after TEARDN" of R45. -/
def StateOf.applyTeardn (s : StateOf Num Cmd Rsp Smp) : StateOf Num Cmd Rsp Smp :=
  { s with
    fsm := .unbuilt
    deEn := false
    prevValid := false
    inbatch := false
    qrate := P.num.zero
    arate := P.num.zero
    maxdev := P.num.zero
    tau := P.num.zero
    gain := P.num.zero
    alpha := P.num.zero
    beta := P.num.zero
    prevI := P.num.zero
    prevQ := P.num.zero
    yprev := P.num.zero
    hist := List.replicate s.L P.num.zero
    rpos := 0
    rstep := 0 }

/-- R197: `TEARDN` under any profile, permitted in every state. -/
def StateOf.teardn (s : StateOf Num Cmd Rsp Smp) : StateOf Num Cmd Rsp Smp := (s.applyTeardn P).accept P

/-- R197: `TEARDN`. -/
def execTeardn (s : State) : Outcome := .next ⟨s.toStateOf.teardn b32Machine⟩

/-! ## Observation -/

/-- R198: `RDREG a` under any profile, permitted in every state; no state changes but the response (R67). -/
def StateOf.rdreg (s : StateOf Num Cmd Rsp Smp) (a : Nat) : StateOf Num Cmd Rsp Smp :=
  match s.csrRead? P a with
  | some v => s.respond P v
  | none => s.reject P .addr (P.word.rdreg a)

/-- R198: `RDREG a`. -/
def execRdreg (a : Nat) (s : State) : Outcome := .next ⟨s.toStateOf.rdreg b32Machine a⟩

/-! ## The sample path -/

/-- R199: what `DEMOD` answers for the sample. -/
def StateOf.demodResult (s : StateOf Num Cmd Rsp Smp) (i q : Num) : DemodResult Num :=
  demod P.num s.gain s.prevI s.prevQ s.prevValid i q

/-- R199: the value `e` that `DEEMPH` passes on, and `YPREV` after. -/
def StateOf.deemphResult (s : StateOf Num Cmd Rsp Smp) (i q : Num) : Num × Num :=
  deemph P.num s.deEn s.alpha s.beta s.yprev (s.demodResult P i q).out

/-- R170: the delay line after the sample. -/
def StateOf.histAfter (s : StateOf Num Cmd Rsp Smp) (i q : Num) : List Num :=
  shiftIn (s.deemphResult P i q).1 s.hist s.L

/-- R170, R199: the words the sample pushes to `OUTQ`. -/
def StateOf.sampleOutputs (s : StateOf Num Cmd Rsp Smp) (i q : Num) : List Num :=
  resampOutputs P.num (s.readTap P) (s.histAfter P i q) s.L s.rpos s.rstep

/-- R199: all that a sample writes: the three stages in their order, then `INBATCH`. -/
def StateOf.applySample (s : StateOf Num Cmd Rsp Smp) (last : Bool) (i q : Num) : StateOf Num Cmd Rsp Smp :=
  { s with
    prevI := (s.demodResult P i q).prevI
    prevQ := (s.demodResult P i q).prevQ
    prevValid := (s.demodResult P i q).prevValid
    yprev := (s.deemphResult P i q).2
    hist := s.histAfter P i q
    rpos := nextRpos s.rpos s.rstep
    outq := s.outq ++ s.sampleOutputs P i q
    inbatch := inbatchFlag last }

/-- R170, R172: the scheduler's loop ends and asks only for phases that exist. -/
def StateOf.schedulerValid (s : StateOf Num Cmd Rsp Smp) : Bool := decide (0 ≤ s.rpos) && decide (0 < s.rstep)

/-- The sample operation for a `LAST` bit under any profile; it raises nothing (R234). Its one fault is met in no run
(log 12). -/
def StateOf.runSample (s : StateOf Num Cmd Rsp Smp) (last : Bool) (i q : Num) : OutcomeOf Num Cmd Rsp Smp :=
  if s.schedulerValid then .next (s.applySample P last i q) else .fault .schedulerInvalid

/-- R199: `SAMPLE i, q`. -/
def execSample (i q : Word) (s : State) : Outcome := OutcomeOf.toState (s.toStateOf.runSample b32Machine true i q)

/-- R199: `SAMPLEC i, q`. -/
def execSamplec (i q : Word) (s : State) : Outcome := OutcomeOf.toState (s.toStateOf.runSample b32Machine false i q)

/-! ## Every operation under a profile -/

/-- The meanings of the ten commands. -/
def meanings : Operations Num (StateOf Num Cmd Rsp Smp → StateOf Num Cmd Rsp Smp) where
  ldqr := fun d s => s.ldqr P d
  ldar := fun d s => s.ldar P d
  lddv := fun d s => s.lddv P d
  ldtc := fun d s => s.ldtc P d
  ldtap := fun j d s => s.ldtap P j d
  build := fun s => s.build P
  teardn := fun s => s.teardn P
  rdreg := fun a s => s.rdreg P a
  setdev := fun d s => s.setdev P d
  settau := fun d s => s.settau P d

end Sys2Proof.Machine
end

