-- ==== Sys2Proof/Machine/Dispatch.lean ====
section
/-! DEFINITION. One arm per operation of spec/30 R98. The word of the operation has left its queue already (R186, R187). -/

namespace Sys2Proof.Machine

def exec (i : Instr) (s : State) : Host.Outcome State Fault Refusal :=
  match i with
  | .ldqr d => Sys2Proof.Machine.execLdqr d s
  | .ldar d => Sys2Proof.Machine.execLdar d s
  | .lddv d => Sys2Proof.Machine.execLddv d s
  | .ldtc d => Sys2Proof.Machine.execLdtc d s
  | .ldtap j d => Sys2Proof.Machine.execLdtap j d s
  | .build => Sys2Proof.Machine.execBuild s
  | .teardn => Sys2Proof.Machine.execTeardn s
  | .rdreg a => Sys2Proof.Machine.execRdreg a s
  | .setdev d => Sys2Proof.Machine.execSetdev d s
  | .settau d => Sys2Proof.Machine.execSettau d s
  | .sample x q => Sys2Proof.Machine.execSample x q s
  | .samplec x q => Sys2Proof.Machine.execSamplec x q s

end Sys2Proof.Machine
end

