-- ==== Sys2Proof/Machine/Sequencer.lean ====
section
/-! DEFINITION. The two kinds of step: which is enabled, which is taken, and what it runs (spec/44 R186 to R189). -/

namespace Sys2Proof.Machine

section AnyProfile
variable {Num Cmd Rsp Smp : Type} (P : Profile Num Cmd Rsp Smp)

/-- R186: the command entry a `STEP_CMD` would take; none while a batch is in flight. -/
def StateOf.commandHead? (s : StateOf Num Cmd Rsp Smp) : Option Cmd := if s.inbatch then none else s.cmdq.head?

/-- R187: the sample entry a `STEP_SAMPLE` would take; none unless the pipeline is built. -/
def StateOf.sampleHead? (s : StateOf Num Cmd Rsp Smp) : Option Smp := if s.fsm = .run then s.inq.head? else none

/-- `CMDQ.pop()` -/
def StateOf.popCommand (s : StateOf Num Cmd Rsp Smp) : StateOf Num Cmd Rsp Smp := { s with cmdq := s.cmdq.tail }

/-- `INQ.pop()` -/
def StateOf.popSample (s : StateOf Num Cmd Rsp Smp) : StateOf Num Cmd Rsp Smp := { s with inq := s.inq.tail }

/-- One choice of `ARB` used up (R188, log 4). -/
def StateOf.drawArb (s : StateOf Num Cmd Rsp Smp) : StateOf Num Cmd Rsp Smp :=
  { s with arbCount := s.arbCount + 1 }

end AnyProfile

/-- The step that is taken next, with the state after its entry has left the queue. -/
inductive Fetched (σ Cmd Smp : Type) where
  /-- no step is enabled -/
  | idle
  /-- `STEP_CMD` -/
  | command (w : Cmd) (t : σ)
  /-- `STEP_SAMPLE` -/
  | sample (w : Smp) (t : σ)
  deriving DecidableEq, Repr

/-- R186 to R188: the enabled step; where both are, either may be taken, and `ARB` says which. -/
def StateOf.fetch {Num Cmd Rsp Smp : Type} (s : StateOf Num Cmd Rsp Smp) :
    Fetched (StateOf Num Cmd Rsp Smp) Cmd Smp :=
  match s.commandHead?, s.sampleHead? with
  | none, none => .idle
  | some w, none => .command w s.popCommand
  | none, some x => .sample x s.popSample
  | some w, some x =>
    if Config.arb s.arbCount then .command w s.popCommand.drawArb
    else .sample x s.popSample.drawArb

/-! ## The step under any profile -/

section AnyProfile
variable {Num Cmd Rsp Smp : Type} (P : Profile Num Cmd Rsp Smp)

/-- R186: decode and execute; an entry that is no command is rejected with `E_ILLEGAL` (R222). -/
def StateOf.runCommand (t : StateOf Num Cmd Rsp Smp) (w : Cmd) : StateOf Num Cmd Rsp Smp :=
  match decodeFields (meanings P) (P.fields w) (P.isClear (P.fields w).d) with
  | .ok f => f t
  | .error _ => t.reject P .illegal w

/-- One step of `BLOCK` under any profile (R9, R256). Where no step is enabled the state survives unchanged (R243,
log 7). -/
def StateOf.step (s : StateOf Num Cmd Rsp Smp) : OutcomeOf Num Cmd Rsp Smp :=
  match s.fetch with
  | .idle => .next s
  | .command w t => .next (t.runCommand P w)
  | .sample w t => t.runSample P (P.sample w).last (P.sample w).i (P.sample w).q

end AnyProfile

/-! ## The step of the machine -/

/-- What the machine takes next. -/
def State.fetch (s : State) : Fetched State CmdWord SmpWord :=
  match s.toStateOf.fetch with
  | .idle => .idle
  | .command w t => .command w ⟨t⟩
  | .sample w t => .sample w ⟨t⟩

/-- R186: decode and execute; a word that is no command is rejected with `E_ILLEGAL` (R222). -/
def runCommandWord (w : CmdWord) (t : State) : Outcome :=
  match decodeCommand w with
  | .ok i => exec i t
  | .error _ => .next ⟨t.toStateOf.reject b32Machine .illegal w⟩

/-- R187: every sample word is an operation (R92). -/
def runSampleWord (w : SmpWord) (t : State) : Outcome := exec (decodeSample w) t

/-- One step of `BLOCK`. Where no step is enabled the state survives unchanged (R243, log 7). -/
def runFetched (s : State) : Fetched State CmdWord SmpWord → Outcome
  | .idle => .next s
  | .command w t => runCommandWord w t
  | .sample w t => runSampleWord w t

/-! ## Placing one word where the next step takes it (log 8) -/

/-- The command word at the head of `CMDQ`, no batch in flight and no sample to compete with it. -/
def State.placeCommand (s : State) (w : CmdWord) : State :=
  { s with cmdq := w :: s.cmdq, inbatch := false, inq := [] }

/-- The arguments 1.0, 1.0, 1.0, 0 loaded and an accepted `BUILD` done, with its `RSTEP` written as the number it is. -/
def State.buildUnitRates (s : State) : State :=
  ⟨{ ((((s.setQrate NUM_ONE).setArate NUM_ONE).setMaxdev NUM_ONE).setTau NUM_ZERO).applyBuild b32Machine with
      rstep := 32 }⟩

/-- The pipeline as it is, if one is built; else the one for unit rates. -/
def State.builtForSample (s : State) : State := if s.fsm = .run then s else s.buildUnitRates

/-- The sample word at the head of `INQ`, the pipeline built and no command to compete with it. -/
def State.placeSample (s : State) (w : SmpWord) : State :=
  { s.builtForSample with inq := w :: s.inq, cmdq := [] }

/-- The word of an opcode-table row, on the port its width selects. -/
def State.placeTableWord (s : State) (nbits w : Nat) : State :=
  if nbits ≤ 64 then s.placeCommand (BitVec.ofNat 64 w) else s.placeSample (BitVec.ofNat 65 w)

end Sys2Proof.Machine
end

