-- ==== Sys2Proof/Machine/Step.lean ====
section
/-! DEFINITION. The step of the machine: one atomic step of `BLOCK` (spec/20 R70, spec/44 R186 to R188). -/

namespace Sys2Proof.Machine

/-- Fetch and run. -/
def step (s : State) : Host.Outcome State Fault Refusal := runFetched s s.fetch

/-- `s` with one instruction placed where the next step takes it (log 8). -/
def State.withFetchWord (s : State) (nbits w : Nat) : State := s.placeTableWord nbits w

end Sys2Proof.Machine
end

