-- ==== Sys2Proof/Machine/HostPort.lean ====
section
/-! DEFINITION. The moves of the environment: the three hosts' queue operations (spec/00 R6) and hardware reset
(spec/70 R250). They fall between steps only (R70, U14). -/

namespace Sys2Proof.Machine

/-- One move of the environment. -/
inductive HostMove (Cmd Smp : Type) where
  /-- `CTRL` appends a command word -/
  | pushCommand (w : Cmd)
  /-- `CTRL` removes the oldest response -/
  | popResponse
  /-- `DATA` appends a sample word -/
  | pushSample (w : Smp)
  /-- `SINK` removes the oldest output -/
  | popOutput
  /-- hardware reset -/
  | hardwareReset
  deriving DecidableEq, Repr

section AnyProfile
variable {Num Cmd Rsp Smp : Type}

/-- `CMDQ.push(w)` by `CTRL`. -/
def StateOf.pushCommand (s : StateOf Num Cmd Rsp Smp) (w : Cmd) : StateOf Num Cmd Rsp Smp :=
  { s with cmdq := s.cmdq ++ [w] }

/-- `INQ.push(w)` by `DATA`. -/
def StateOf.pushSample (s : StateOf Num Cmd Rsp Smp) (w : Smp) : StateOf Num Cmd Rsp Smp :=
  { s with inq := s.inq ++ [w] }

/-- `RSPQ.pop()` by `CTRL`. Of an empty queue R6 is silent: the move then changes nothing (DESIGN CHOICE, log 26). -/
def StateOf.popResponse (s : StateOf Num Cmd Rsp Smp) : StateOf Num Cmd Rsp Smp := { s with rspq := s.rspq.tail }

/-- `OUTQ.pop()` by `SINK`. Of an empty queue R6 is silent: the move then changes nothing (DESIGN CHOICE, log 26). -/
def StateOf.popOutput (s : StateOf Num Cmd Rsp Smp) : StateOf Num Cmd Rsp Smp := { s with outq := s.outq.tail }

/-- R250: hardware reset. Every element takes its value after hardware reset (R45): the queues are not touched, and the
unwritten cells of `TAPS` are drawn anew (R252). That the model's own counters go on is log 3 and log 19. -/
def StateOf.hardwareReset (zero : Num) (s : StateOf Num Cmd Rsp Smp) : StateOf Num Cmd Rsp Smp :=
  { StateOf.launch (Cmd := Cmd) (Rsp := Rsp) (Smp := Smp) zero s.L with
    cmdq := s.cmdq
    rspq := s.rspq
    inq := s.inq
    outq := s.outq
    arbCount := s.arbCount
    tapsEpoch := s.tapsEpoch + 1 }

/-- The state after a move of the environment. -/
def StateOf.hostMove (zero : Num) (s : StateOf Num Cmd Rsp Smp) : HostMove Cmd Smp → StateOf Num Cmd Rsp Smp
  | .pushCommand w => s.pushCommand w
  | .popResponse => s.popResponse
  | .pushSample w => s.pushSample w
  | .popOutput => s.popOutput
  | .hardwareReset => s.hardwareReset zero

end AnyProfile

/-- Hardware reset of the machine. -/
def State.hardwareReset (s : State) : State := ⟨s.toStateOf.hardwareReset NUM_ZERO⟩

/-- The machine after a move of the environment. -/
def State.hostMove (s : State) (m : HostMove CmdWord SmpWord) : State := ⟨s.toStateOf.hostMove NUM_ZERO m⟩

end Sys2Proof.Machine
end

