-- ==== Sys2Proof/Machine/Launch.lean ====
section
/-! DEFINITION. Runs (spec/70 R256; spec/44 R200, R201): a launch fixes the parameters and the words that the hosts will
push; a run is the launch with the order in which the hosts and the block move. -/

namespace Sys2Proof.Machine

/-- What a launch fixes (R256) beside the profile (with `fatan2` within it and the reset content of `TAPS`) and the free
choices `ARB`. -/
structure Launch (Cmd Smp : Type) where
  /-- the parameter `L` -/
  L : Nat
  /-- the command words `CTRL` will push -/
  commands : List Cmd
  /-- the sample words `DATA` will push -/
  samples : List Smp
  deriving DecidableEq, Repr

/-- R8: a legal number of taps per phase. -/
abbrev Launch.legal {Cmd Smp : Type} (l : Launch Cmd Smp) : Prop := 1 ≤ l.L ∧ l.L ≤ Config.maxTapsPerPhase

/-- One event of a run. A hardware reset is none: it ends the run and starts another (R250). -/
inductive Event where
  /-- `CTRL` pushes its next word -/
  | pushCommand
  /-- `DATA` pushes its next word -/
  | pushSample
  /-- `CTRL` takes a response -/
  | popResponse
  /-- `SINK` takes an output -/
  | popOutput
  /-- the block takes an enabled step -/
  | block
  deriving DecidableEq, Repr

/-- The output of a run (R200): everything ever pushed to `RSPQ` and to `OUTQ`, in order. -/
structure RunOutput (Num Rsp : Type) where
  /-- every response, the oldest first -/
  responses : List Rsp
  /-- every output word, the oldest first -/
  outputs : List Num
  deriving DecidableEq, Repr

/-- A run in progress: the state, what the hosts have still to push, and what they have taken. -/
structure Running (Num Cmd Rsp Smp : Type) where
  /-- the state of the block and of the queues -/
  state : StateOf Num Cmd Rsp Smp
  /-- the rest of `CTRL`'s words -/
  commands : List Cmd
  /-- the rest of `DATA`'s words -/
  samples : List Smp
  /-- the responses that `CTRL` has taken, the oldest first (log 27) -/
  takenResponses : List Rsp
  /-- the words that `SINK` has taken, the oldest first (log 27) -/
  takenOutputs : List Num
  deriving DecidableEq, Repr

/-- A step of the block is enabled (R186, R187). -/
def StateOf.enabled {Num Cmd Rsp Smp : Type} (s : StateOf Num Cmd Rsp Smp) : Bool :=
  s.commandHead?.isSome || s.sampleHead?.isSome

/-- Both input queues are empty (R200). -/
def StateOf.finished {Num Cmd Rsp Smp : Type} (s : StateOf Num Cmd Rsp Smp) : Bool :=
  s.cmdq.isEmpty && s.inq.isEmpty

/-- An input queue holds a word and no step is enabled (R201). -/
def StateOf.stuck {Num Cmd Rsp Smp : Type} (s : StateOf Num Cmd Rsp Smp) : Bool := !s.finished && !s.enabled

section AnyProfile
variable {Num Cmd Rsp Smp : Type} (P : Profile Num Cmd Rsp Smp)

/-- The run at its launch: the state after hardware reset, all queues empty (R256). -/
def Launch.start (l : Launch Cmd Smp) : Running Num Cmd Rsp Smp :=
  ⟨StateOf.launch P.num.zero l.L, l.commands, l.samples, [], []⟩

/-- One event, if it can happen: a host pushes only what it has, a queue is popped only where it holds a word, and the
block steps only where a step is enabled and answers. -/
def Running.event (r : Running Num Cmd Rsp Smp) : Event → Option (Running Num Cmd Rsp Smp)
  | .pushCommand =>
    match r.commands with
    | [] => none
    | w :: ws => some { r with state := r.state.pushCommand w, commands := ws }
  | .pushSample =>
    match r.samples with
    | [] => none
    | x :: xs => some { r with state := r.state.pushSample x, samples := xs }
  | .popResponse =>
    match r.state.rspq with
    | [] => none
    | x :: _ => some { r with state := r.state.popResponse, takenResponses := r.takenResponses ++ [x] }
  | .popOutput =>
    match r.state.outq with
    | [] => none
    | x :: _ => some { r with state := r.state.popOutput, takenOutputs := r.takenOutputs ++ [x] }
  | .block =>
    if r.state.enabled then
      match r.state.step P with
      | .next t => some { r with state := t }
      | .fault _ => none
      | .refused _ => none
    else none

/-- Events in turn. -/
def Running.events (r : Running Num Cmd Rsp Smp) : List Event → Option (Running Num Cmd Rsp Smp)
  | [] => some r
  | e :: es => (r.event P e).bind fun r' => r'.events es

/-- The run of a launch in a given order of events, which says all of the hosts' synchronisation. -/
def Launch.run (l : Launch Cmd Smp) (es : List Event) : Option (Running Num Cmd Rsp Smp) := (l.start P).events P es

/-- R200: both hosts have pushed all their words and both input queues are empty. -/
def Running.finished (r : Running Num Cmd Rsp Smp) : Bool :=
  r.commands.isEmpty && r.samples.isEmpty && r.state.finished

/-- R200: everything the block has pushed so far: what the hosts have taken, then what still stands in the queues
(log 27). -/
def Running.output (r : Running Num Cmd Rsp Smp) : RunOutput Num Rsp :=
  ⟨r.takenResponses ++ r.state.rspq, r.takenOutputs ++ r.state.outq⟩

/-- R200: the final state of a launch run in the order `es` and the run's output, if the run is finished there. -/
def Launch.final? (l : Launch Cmd Smp) (es : List Event) : Option (StateOf Num Cmd Rsp Smp × RunOutput Num Rsp) :=
  (l.run P es).bind fun r => if r.finished then some (r.state, r.output) else none

/-- R201: no host has a word left, a queue holds a word, and no step is enabled. -/
def Running.stuck (r : Running Num Cmd Rsp Smp) : Bool :=
  r.commands.isEmpty && r.samples.isEmpty && r.state.stuck

/-! ## Script order (R107) -/

/-- The launch of a script: its command lines and its sample lines, each in their order. -/
def Launch.ofScript (L : Nat) (script : List (Cmd ⊕ Smp)) : Launch Cmd Smp :=
  ⟨L, script.filterMap Sum.getLeft?, script.filterMap Sum.getRight?⟩

/-- R107: each line's word is pushed and its step taken before the next line is pushed. -/
def scriptEvents : List (Cmd ⊕ Smp) → List Event
  | [] => []
  | .inl _ :: rest => .pushCommand :: .block :: scriptEvents rest
  | .inr _ :: rest => .pushSample :: .block :: scriptEvents rest

/-! ## Premises of a launch (R256), none checked by the hardware -/

/-- `FiniteSamples`: every `I` and `Q` of every sample word is finite. -/
def Launch.FiniteSamples (l : Launch Cmd Smp) : Prop :=
  ∀ x ∈ l.samples, P.num.isFinite (P.sample x).i = true ∧ P.num.isFinite (P.sample x).q = true

/-- `ClosedBatches`: the last sample word `DATA` pushes has `LAST = 1` (R260). -/
def Launch.ClosedBatches (l : Launch Cmd Smp) : Prop := ∀ x, l.samples.getLast? = some x → (P.sample x).last = true

/-- `BuiltBeforeEnd` for the run in the order `es`: if `DATA` pushes any sample, `CTRL` pushes a `BUILD` that is accepted
(R261). The launch is `UNBUILT` and only an accepted `BUILD` leaves that state, so the pipeline runs at some point of
the run. -/
def Launch.BuiltBeforeEnd (l : Launch Cmd Smp) (es : List Event) : Prop :=
  l.samples ≠ [] → ∃ (k : Nat) (r : Running Num Cmd Rsp Smp), l.run P (es.take k) = some r ∧ r.state.fsm = .run

/-- `TapsLoaded`: every cell of `TAPS` was written since hardware reset. -/
def TapsLoaded (s : StateOf Num Cmd Rsp Smp) : Prop :=
  ∀ j, j < s.tapCells → (Memory.read? s.taps j).isSome = true

/-- `TapsArmDC`: every arm has unit gain at zero frequency. `value` is the exact value of a tap as a real number: that of
a finite pattern in `B32`, the number itself in `IDEAL`. A tap without such a value (an infinity, a NaN) meets no premise
about values (log 24). -/
def TapsArmDC (value : Num → ℝ) (s : StateOf Num Cmd Rsp Smp) : Prop :=
  (∀ j, j < s.tapCells → P.num.isFinite (s.readTap P j) = true) ∧
  ∀ p, p < Config.NPH → ∑ k ∈ Finset.range s.L, value (s.readTap P (p + Config.NPH * k)) = 1

/-- `TapsEdgeZero`: tap 0 is zero. -/
def TapsEdgeZero (s : StateOf Num Cmd Rsp Smp) : Prop := P.num.isZero (s.readTap P 0) = true

/-- `TapsFromDesign` for a design routine, "a pure function" of the three numbers of the request (R161). -/
def TapsFromDesign (design : Nat → Num → Num → Nat → Num) (s : StateOf Num Cmd Rsp Smp) : Prop :=
  ∀ j, j < s.tapCells →
    s.readTap P j = design Config.NPH (dreqCutoff P.num s.qrate s.arate) (dreqTrans P.num s.qrate s.arate) j

end AnyProfile

/-- The exact value of a finite pattern as a real number. -/
noncomputable def realVal (w : Word) : ℝ := (val w : ℝ)

end Sys2Proof.Machine
end

