-- ==== Sys2Proof/Machine/Streams.lean ====
section
/-! DEFINITION. The three stages as stream operators (spec/44 R185: "composable single-input/single-output stream
operators"), over any profile: what a stage returns for a sequence of inputs, from the registers it owns. -/

namespace Sys2Proof.Machine

section Streams
variable {α : Type} (P : Config.NumProfile α)

/-- The values `DEMOD` returns for the samples in turn, for one gain and from one Demodulator State (R131). -/
def demodStream (gain : α) : α → α → Bool → List (α × α) → List α
  | _, _, _, [] => []
  | prevI, prevQ, prevValid, (i, q) :: rest =>
    let r := demod P gain prevI prevQ prevValid i q
    r.out :: demodStream gain r.prevI r.prevQ r.prevValid rest

/-- The values `DEEMPH` returns for the inputs in turn, for one coefficient and from one Filter State (R146). -/
def deemphStream (deEn : Bool) (alpha beta : α) : α → List α → List α
  | _, [] => []
  | yprev, x :: rest =>
    let r := deemph P deEn alpha beta yprev x
    r.1 :: deemphStream deEn alpha beta r.2 rest

/-- The words `RESAMP` outputs for the inputs in turn, from one Resampler State (R170). -/
def resampStream (tap : Nat → α) (L : Nat) (rstep : Rat) : List α → Rat → List α → List α
  | _, _, [] => []
  | hist, rpos, e :: rest =>
    resampOutputs P tap (shiftIn e hist L) L rpos rstep
      ++ resampStream tap L rstep (shiftIn e hist L) (nextRpos rpos rstep) rest

end Streams

/-- `RPOS` after `n` samples (R170). -/
def rposAfter (rstep : Rat) : Nat → Rat → Rat
  | 0, rpos => rpos
  | n + 1, rpos => rposAfter rstep n (nextRpos rpos rstep)

/-- Operations executed in turn, stopping at the first stop. -/
def runInstrs : List Instr → State → Outcome
  | [], s => .next s
  | i :: rest, s =>
    match exec i s with
    | .next t => runInstrs rest t
    | .fault f => .fault f
    | .refused r => .refused r

end Sys2Proof.Machine
end

