-- ==== Sys2Proof/Machine/Ideal.lean ====
section
/-! DEFINITION. Profile `IDEAL` (spec/00 R9, R14): exact real arithmetic, "the meaning the source's formulas have". The
meanings, the step, the hosts' moves and the launch are written over any profile; here they get their ideal form
(log 1). -/

namespace Sys2Proof.Machine

/-- R14: the principal argument in `(−π, π]` of the point `(x, y)`. -/
noncomputable def realArg (y x : ℝ) : ℝ := Complex.arg ⟨x, y⟩

open Classical in
/-- R14: `val` of a real number: "the exact rational value" of a rational one. Of any other there is none: it is a free
rational of the same sign (log 25). -/
noncomputable def idealVal (r : ℝ) : Rat :=
  if h : ∃ q : Rat, (q : ℝ) = r then h.choose
  else if 0 < r then mkRat (((Config.irrationalVal r).1 + 1 : Nat) : Int) ((Config.irrationalVal r).2 + 1)
  else -mkRat (((Config.irrationalVal r).1 + 1 : Nat) : Int) ((Config.irrationalVal r).2 + 1)

open Classical in
/-- Profile `IDEAL`. Division by zero and the angle of the origin, which the rules never ask for, are what the library's
total functions make them (log 21). -/
noncomputable def ideal : Config.NumProfile ℝ where
  zero := 0
  one := 1
  half := 1 / 2
  tenth := 1 / 10
  pi := Real.pi
  twoPi := 2 * Real.pi
  add := fun a b => a + b
  sub := fun a b => a - b
  mul := fun a b => a * b
  div := fun a b => a / b
  atan2 := realArg
  lt := fun a b => decide (a < b)
  gt0 := fun a => decide (0 < a)
  isZero := fun a => decide (a = 0)
  isFinite := fun _ => true
  val := idealVal
  ofRat := fun q => (q : ℝ)

/-- The draw of `TAPS` under `IDEAL` (R252, log 3): any real numbers, given for a run. -/
abbrev IdealDraw := Nat → Nat → ℝ

open Classical in
/-- Profile `IDEAL` for a run. The words of spec/30 are those of `B32`, so here a queue entry is the record of its fields,
each `Num` field a real number (log 1). -/
noncomputable def idealMachine (draw : IdealDraw) : Profile ℝ (Command ℝ) (Response ℝ) (Sample ℝ) where
  num := ideal
  tapsDraw := draw
  isClear := fun d => decide (d = 0)
  fields := fun c => c
  pack := fun c => c
  high := fun c => c.op ++ c.a
  low := fun c => c.d
  response := fun r => r
  sample := fun s => s

/-- The complete state under profile `IDEAL`. -/
abbrev IdealState := StateOf ℝ (Command ℝ) (Response ℝ) (Sample ℝ)

/-- A finite pattern nearest to a real number. -/
def NearestWord (r : ℝ) (w : Word) : Prop :=
  isfinite w = true ∧ ∀ v : Word, isfinite v = true → |(val w : ℝ) - r| ≤ |(val v : ℝ) - r|

/-- The premise `Atan2Accuracy` (U7 (g), log 5): `fatan2` is the correctly rounded principal argument or one unit in the
last place off, wherever it is defined (U7 (a)), the negative axis included. -/
def Atan2Accuracy : Prop :=
  ∀ y x : Word, isfinite y = true → isfinite x = true → ¬(iszero y = true ∧ iszero x = true) →
    ∃ c : Word, NearestWord (realArg (val y) (val x)) c ∧ (iszero c = false → fsign (fatan2 y x) = fsign c) ∧
      fmag (fatan2 y x) ≤ fmag c + 1 ∧ fmag c ≤ fmag (fatan2 y x) + 1

end Sys2Proof.Machine
end

