-- ==== Sys2Proof/Machine/Operands.lean ====
section
/-! DEFINITION. The operand forms of the assembler line and what each assembles to (spec/30 R99, R105, R106). -/

namespace Sys2Proof.Machine

/-- A numeric literal `<num>` (R106). -/
inductive NumLit where
  /-- a decimal literal: its sign and its exact magnitude -/
  | decimal (neg : Bool) (q : Rat)
  /-- `=0x` and eight hexadecimal digits -/
  | raw (w : Word)
  /-- `inf` -/
  | inf
  /-- `-inf` -/
  | negInf
  /-- `nan` -/
  | nan
  deriving DecidableEq, Repr

/-- R106: the pattern a literal assembles to. A decimal is converted once with `ofrat`; `-0.0` keeps its sign. -/
def NumLit.word : NumLit → Word
  | .decimal neg q => withSign neg (roundMag q)
  | .raw w => w
  | .inf => 0x7F800000
  | .negInf => 0xFF800000
  | .nan => 0x7FC00000

/-- The address operand of `RDREG`: a register name of R40 or an integer (R105). -/
inductive RegOperand where
  | name (r : Csr)
  | int (a : Nat)
  deriving DecidableEq, Repr

/-- The address a register operand assembles to. -/
def RegOperand.addr : RegOperand → Nat
  | .name r => r.addr
  | .int a => a

/-- One assembler line (R105). -/
inductive AsmLine where
  | ldqr (v : NumLit)
  | ldar (v : NumLit)
  | lddv (v : NumLit)
  | ldtc (v : NumLit)
  | ldtap (j : Nat) (v : NumLit)
  | build
  | teardn
  | rdreg (r : RegOperand)
  | setdev (v : NumLit)
  | settau (v : NumLit)
  | sample (i q : NumLit)
  | samplec (i q : NumLit)
  deriving DecidableEq, Repr

/-- The operation a line stands for. -/
def AsmLine.instr : AsmLine → Instr
  | .ldqr v => .ldqr v.word
  | .ldar v => .ldar v.word
  | .lddv v => .lddv v.word
  | .ldtc v => .ldtc v.word
  | .ldtap j v => .ldtap j v.word
  | .build => .build
  | .teardn => .teardn
  | .rdreg r => .rdreg r.addr
  | .setdev v => .setdev v.word
  | .settau v => .settau v.word
  | .sample i q => .sample i.word q.word
  | .samplec i q => .samplec i.word q.word

/-- R105: the assembler refuses an integer that does not fit its field, and nothing else. -/
def AsmLine.assemble (l : AsmLine) : Option PortWord :=
  if l.instr.wellFormed then some (encode l.instr) else none

end Sys2Proof.Machine
end

