-- ==== Sys2Proof/Machine/Assembler.lean ====
section
/-! DEFINITION. Pseudo-instructions and script order (spec/30 R107, R108). -/

namespace Sys2Proof.Machine

/-! ## Pseudo-instructions (R108) -/

/-- `CONSTRUCT fq, fa, dmax, tau` -/
def construct (fq fa dmax tau : NumLit) : List AsmLine :=
  [.ldqr fq, .ldar fa, .lddv dmax, .ldtc tau, .build]

/-- The lines of `LDTAPS` from tap `j` on. -/
def ldtapsFrom : Nat → List NumLit → List AsmLine
  | _, [] => []
  | j, v :: vs => .ldtap j v :: ldtapsFrom (j + 1) vs

/-- `LDTAPS v0, v1, ..., vn` -/
def ldtaps (vs : List NumLit) : List AsmLine := ldtapsFrom 0 vs

/-- `set_max_deviation x` -/
def setMaxDeviation (x : NumLit) : List AsmLine := [.setdev x]

/-- `set_deemphasis_tau x` -/
def setDeemphasisTau (x : NumLit) : List AsmLine := [.settau x]

/-- `BATCH (i0,q0) ... (in,qn)`: the last sample alone carries `LAST`. -/
def batch : List (NumLit × NumLit) → List AsmLine
  | [] => []
  | [(i, q)] => [.sample i q]
  | (i, q) :: x :: xs => .samplec i q :: batch (x :: xs)

/-- `RDSTATUS` -/
def rdstatus : List AsmLine := [.rdreg (.name .status)]

/-! ## Script order (R107) -/

/-- How a script ends. -/
inductive ScriptResult where
  /-- every line was performed -/
  | finished (s : State)
  /-- the first of the remaining lines would be held: the script is stuck there (R107, R201) -/
  | stuck (remaining : List PortWord) (s : State)
  /-- a step stopped with a fault -/
  | fault (f : Fault)
  /-- a step was refused -/
  | refused (r : Refusal)
  deriving DecidableEq, Repr

/-- The line's word pushed to its queue. -/
def State.pushPort (s : State) : PortWord → State
  | .cmd w => ⟨s.toStateOf.pushCommand w⟩
  | .smp w => ⟨s.toStateOf.pushSample w⟩

/-- R107: the line's step is not held. -/
def State.lineEnabled (s : State) : PortWord → Bool
  | .cmd _ => !s.inbatch
  | .smp _ => decide (s.fsm = .run)

/-- R107: each line's word is pushed and its step taken before the next line is pushed. -/
def runScript : List PortWord → State → ScriptResult
  | [], s => .finished s
  | p :: ps, s =>
    if s.lineEnabled p then
      match step (s.pushPort p) with
      | .next t => runScript ps t
      | .fault f => .fault f
      | .refused r => .refused r
    else .stuck (p :: ps) s

/-- The words of assembler lines, if the assembler refuses none of them (R105). -/
def assembleAll : List AsmLine → Option (List PortWord)
  | [] => some []
  | l :: ls =>
    match l.assemble, assembleAll ls with
    | some p, some ps => some (p :: ps)
    | _, _ => none

end Sys2Proof.Machine
end

