-- ==== Sys2Proof/Machine/Script.lean ====
section
/-! DEFINITION. The text of the assembler (spec/30 R105, R106, R108): one operation a line, read character by character.
What the rules show only by example (blanks, the parts of a decimal literal) is log 22. -/

namespace Sys2Proof.Machine

/-! ## Characters -/

/-- A blank. -/
def isBlank (c : Char) : Bool := c == ' ' || c == '\t'

/-- The characters without the blanks at both ends. -/
def trimBlanks (cs : List Char) : List Char :=
  ((cs.dropWhile isBlank).reverse.dropWhile isBlank).reverse

/-- R105: `;` starts a comment. -/
def withoutComment (cs : List Char) : List Char := cs.takeWhile fun c => c != ';'

/-- The pieces between separators. -/
def piecesAt (sep : Char) : List Char → List (List Char)
  | [] => [[]]
  | c :: cs =>
    if c == sep then [] :: piecesAt sep cs
    else
      match piecesAt sep cs with
      | [] => [[c]]
      | p :: ps => (c :: p) :: ps

/-- The pieces between commas, none for no text. -/
def operandTexts (cs : List Char) : List (List Char) :=
  if trimBlanks cs = [] then [] else (piecesAt ',' cs).map trimBlanks

/-! ## Numbers (R105, R106) -/

/-- The value of a hexadecimal digit. -/
def digitValue? (c : Char) : Option Nat :=
  if '0' ≤ c ∧ c ≤ '9' then some (c.toNat - 48)
  else if 'A' ≤ c ∧ c ≤ 'F' then some (c.toNat - 55)
  else if 'a' ≤ c ∧ c ≤ 'f' then some (c.toNat - 87)
  else none

/-- The number that digits below `base` write after the digits of `acc`. -/
def digitsAfter? (base : Nat) : Nat → List Char → Option Nat
  | acc, [] => some acc
  | acc, c :: cs =>
    match digitValue? c with
    | some d => if d < base then digitsAfter? base (base * acc + d) cs else none
    | none => none

/-- The number that one or more digits write. -/
def digits? (base : Nat) (cs : List Char) : Option Nat :=
  if cs = [] then none else digitsAfter? base 0 cs

/-- R105: `<int>`, decimal or hexadecimal. -/
def intText? : List Char → Option Nat
  | '0' :: 'x' :: ds => digits? 16 ds
  | ds => digits? 10 ds

/-- The power of ten after the `e` of a decimal literal. -/
def exponentText? : List Char → Option Int
  | '-' :: ds => (digits? 10 ds).map fun n => -(n : Int)
  | '+' :: ds => (digits? 10 ds).map fun n => (n : Int)
  | ds => (digits? 10 ds).map fun n => (n : Int)

/-- The digits of a decimal literal before its `e`. -/
def mantissaText? (cs : List Char) : Option Rat :=
  match piecesAt '.' cs with
  | [whole] => (digits? 10 whole).map fun n => (n : Rat)
  | [whole, part] =>
    if whole = [] ∨ part = [] then none
    else (digits? 10 (whole ++ part)).map fun n => mkRat n (10 ^ part.length)
  | _ => none

/-- The exact magnitude of a decimal literal. -/
def magnitudeText? (cs : List Char) : Option Rat :=
  match piecesAt 'e' cs with
  | [m] => mantissaText? m
  | [m, e] =>
    match mantissaText? m, exponentText? e with
    | some q, some k => some (q * (10 : Rat) ^ k)
    | _, _ => none
  | _ => none

/-- R106: `<num>`. -/
def numText? (cs : List Char) : Option NumLit :=
  if cs = ['i', 'n', 'f'] then some .inf
  else if cs = ['-', 'i', 'n', 'f'] then some .negInf
  else if cs = ['n', 'a', 'n'] then some .nan
  else
    match cs with
    | '=' :: '0' :: 'x' :: ds =>
      if ds.length = 8 then (digits? 16 ds).map fun n => .raw (BitVec.ofNat 32 n) else none
    | '-' :: ds => (magnitudeText? ds).map fun q => .decimal true q
    | ds => (magnitudeText? ds).map fun q => .decimal false q

/-! ## Registers (R40, R105) -/

/-- The name of a register (R40). -/
def Csr.name : Csr → List Char
  | .id => ['I', 'D']
  | .status => ['S', 'T', 'A', 'T', 'U', 'S']
  | .qrate => ['Q', 'R', 'A', 'T', 'E']
  | .arate => ['A', 'R', 'A', 'T', 'E']
  | .maxdev => ['M', 'A', 'X', 'D', 'E', 'V']
  | .tau => ['T', 'A', 'U']
  | .gain => ['G', 'A', 'I', 'N']
  | .alpha => ['A', 'L', 'P', 'H', 'A']
  | .beta => ['B', 'E', 'T', 'A']
  | .errcode => ['E', 'R', 'R', 'C', 'O', 'D', 'E']
  | .errcmdh => ['E', 'R', 'R', 'C', 'M', 'D', 'H']
  | .errcmdl => ['E', 'R', 'R', 'C', 'M', 'D', 'L']
  | .dreqOsf => ['D', 'R', 'E', 'Q', '_', 'O', 'S', 'F']
  | .dreqCutoff => ['D', 'R', 'E', 'Q', '_', 'C', 'U', 'T', 'O', 'F', 'F']
  | .dreqTrans => ['D', 'R', 'E', 'Q', '_', 'T', 'R', 'A', 'N', 'S']
  | .ntaps => ['N', 'T', 'A', 'P', 'S']
  | .prevI => ['P', 'R', 'E', 'V', '_', 'I']
  | .prevQ => ['P', 'R', 'E', 'V', '_', 'Q']
  | .yprev => ['Y', 'P', 'R', 'E', 'V']

/-- The nineteen registers. -/
def Csr.all : List Csr :=
  [.id, .status, .qrate, .arate, .maxdev, .tau, .gain, .alpha, .beta, .errcode, .errcmdh, .errcmdl,
    .dreqOsf, .dreqCutoff, .dreqTrans, .ntaps, .prevI, .prevQ, .yprev]

/-- R105: `<reg>`, a register name or an integer address. -/
def regText? (cs : List Char) : Option RegOperand :=
  match Csr.all.find? fun r => decide (r.name = cs) with
  | some r => some (.name r)
  | none => (intText? cs).map .int

/-! ## Lines (R105, R108) -/

/-- All pieces read as numbers. -/
def numTexts? : List (List Char) → Option (List NumLit)
  | [] => some []
  | t :: ts =>
    match numText? t, numTexts? ts with
    | some v, some vs => some (v :: vs)
    | _, _ => none

/-- One `<num>` operand. -/
def lineNum (ts : List (List Char)) (mk : NumLit → AsmLine) : Option (List AsmLine) :=
  match numTexts? ts with
  | some [v] => some [mk v]
  | _ => none

/-- Two `<num>` operands. -/
def lineNums (ts : List (List Char)) (mk : NumLit → NumLit → AsmLine) : Option (List AsmLine) :=
  match numTexts? ts with
  | some [v, w] => some [mk v w]
  | _ => none

/-- No operand. -/
def lineBare (ts : List (List Char)) (l : AsmLine) : Option (List AsmLine) :=
  if ts = [] then some [l] else none

/-- The operands of `LDTAP`. -/
def lineTap : List (List Char) → Option (List AsmLine)
  | [j, v] =>
    match intText? j, numText? v with
    | some n, some w => some [.ldtap n w]
    | _, _ => none
  | _ => none

/-- The operand of `RDREG`. -/
def lineReg : List (List Char) → Option (List AsmLine)
  | [r] => (regText? r).map fun o => [.rdreg o]
  | _ => none

/-- The operands of `CONSTRUCT`. -/
def lineConstruct (ts : List (List Char)) : Option (List AsmLine) :=
  match numTexts? ts with
  | some [fq, fa, dmax, tau] => some (construct fq fa dmax tau)
  | _ => none

/-- One `(i,q)` of `BATCH`, its closing bracket already cut off. -/
def pairText? (cs : List Char) : Option (NumLit × NumLit) :=
  match trimBlanks cs with
  | '(' :: rest =>
    match numTexts? (operandTexts rest) with
    | some [i, q] => some (i, q)
    | _ => none
  | _ => none

/-- The pairs of `BATCH`, one or more. -/
def pairTexts? : List (List Char) → Option (List (NumLit × NumLit))
  | [p, last] => if trimBlanks last = [] then (pairText? p).map fun x => [x] else none
  | p :: q :: r :: ps =>
    match pairText? p, pairTexts? (q :: r :: ps) with
    | some x, some xs => some (x :: xs)
    | _, _ => none
  | _ => none

/-- The lines that a mnemonic with its operand text stands for: itself, or the expansion of a pseudo-instruction. -/
def lineOf (m rest : List Char) : Option (List AsmLine) :=
  let ts := operandTexts rest
  if m = ['L', 'D', 'Q', 'R'] then lineNum ts .ldqr
  else if m = ['L', 'D', 'A', 'R'] then lineNum ts .ldar
  else if m = ['L', 'D', 'D', 'V'] then lineNum ts .lddv
  else if m = ['L', 'D', 'T', 'C'] then lineNum ts .ldtc
  else if m = ['L', 'D', 'T', 'A', 'P'] then lineTap ts
  else if m = ['B', 'U', 'I', 'L', 'D'] then lineBare ts .build
  else if m = ['T', 'E', 'A', 'R', 'D', 'N'] then lineBare ts .teardn
  else if m = ['R', 'D', 'R', 'E', 'G'] then lineReg ts
  else if m = ['S', 'E', 'T', 'D', 'E', 'V'] then lineNum ts .setdev
  else if m = ['S', 'E', 'T', 'T', 'A', 'U'] then lineNum ts .settau
  else if m = ['S', 'A', 'M', 'P', 'L', 'E'] then lineNums ts .sample
  else if m = ['S', 'A', 'M', 'P', 'L', 'E', 'C'] then lineNums ts .samplec
  else if m = ['C', 'O', 'N', 'S', 'T', 'R', 'U', 'C', 'T'] then lineConstruct ts
  else if m = ['L', 'D', 'T', 'A', 'P', 'S'] then (if ts = [] then none else (numTexts? ts).map ldtaps)
  else if m = ['s', 'e', 't', '_', 'm', 'a', 'x', '_', 'd', 'e', 'v', 'i', 'a', 't', 'i', 'o', 'n'] then
    (numTexts? ts).bind fun vs => match vs with | [x] => some (setMaxDeviation x) | _ => none
  else if m = ['s', 'e', 't', '_', 'd', 'e', 'e', 'm', 'p', 'h', 'a', 's', 'i', 's', '_', 't', 'a', 'u'] then
    (numTexts? ts).bind fun vs => match vs with | [x] => some (setDeemphasisTau x) | _ => none
  else if m = ['B', 'A', 'T', 'C', 'H'] then (pairTexts? (piecesAt ')' rest)).map batch
  else if m = ['R', 'D', 'S', 'T', 'A', 'T', 'U', 'S'] then (if ts = [] then some rdstatus else none)
  else none

/-- The lines that one line of text stands for, none for a blank line or a mere comment; `none` if it is no line of the
assembler's. -/
def parseLine (cs : List Char) : Option (List AsmLine) :=
  let body := trimBlanks (withoutComment cs)
  if body = [] then some []
  else lineOf (body.takeWhile fun c => !isBlank c) (body.dropWhile fun c => !isBlank c)

/-- The lines of a text. -/
def parseLines : List (List Char) → Option (List AsmLine)
  | [] => some []
  | t :: ts =>
    match parseLine t, parseLines ts with
    | some a, some b => some (a ++ b)
    | _, _ => none

/-- R105: the port words a script text assembles to, if the assembler refuses no line. -/
def assembleText (cs : List Char) : Option (List PortWord) :=
  (parseLines (piecesAt '\n' cs)).bind assembleAll

end Sys2Proof.Machine
end

