-- ==== Sys2Proof/Safety.lean ====
section
/-! DEFINITION. What claims about a run are stated in: the invariants of spec/10 R47, the responses
that exist, and reachable states. Runs, final and stuck states and the premises of a launch are in Machine/Launch.lean. -/

namespace Sys2Proof.Machine

/-! ## Invariants (R47) -/

/-- R47 I2: what holds while no pipeline exists. -/
structure UnbuiltState (s : State) : Prop where
  inbatch : s.inbatch = false
  prevValid : s.prevValid = false
  deEn : s.deEn = false
  rpos : s.rpos = 0
  rstep : s.rstep = 0
  gain : s.gain = NUM_ZERO
  alpha : s.alpha = NUM_ZERO
  beta : s.beta = NUM_ZERO
  prevI : s.prevI = NUM_ZERO
  prevQ : s.prevQ = NUM_ZERO
  yprev : s.yprev = NUM_ZERO
  hist : s.hist = List.replicate s.L NUM_ZERO

/-- R47 I3: what holds while the pipeline runs. -/
structure BuiltState (s : State) : Prop where
  qrate : validPositive b32 s.qrate = true
  arate : validPositive b32 s.arate = true
  maxdev : validPositive b32 s.maxdev = true
  tau : isfinite s.tau = true
  rstep : s.rstep = stepOfRates b32 s.qrate s.arate
  rstepPos : 0 < s.rstep
  rposNonneg : 0 ≤ s.rpos
  rposLt : s.rpos < s.rstep
  deEn : s.deEn = fgt0 s.tau
  gain : s.gain = gaincalc b32 s.qrate s.maxdev
  coef : decoef b32 s.tau s.qrate = ⟨s.deEn, s.alpha, s.beta⟩

/-- R47 I1 to I5, with the sizes of the memories (R8, R41, R42), the canonical form of `TAPS` (log 3), and the empty
error log while nothing has been rejected (R37). -/
structure Inv (s : State) : Prop where
  stable : s.fsm = .unbuilt ∨ s.fsm = .run
  unbuilt : s.fsm = .unbuilt → UnbuiltState s
  built : s.fsm = .run → BuiltState s
  bypass : s.deEn = false → s.yprev = NUM_ZERO
  prevSet : s.prevValid = true → ¬(iszero s.prevI = true ∧ iszero s.prevQ = true)
  prevUnset : s.prevValid = false → s.prevI = NUM_ZERO ∧ s.prevQ = NUM_ZERO
  sizeMin : 1 ≤ s.L
  sizeMax : s.L ≤ Config.maxTapsPerPhase
  histLength : s.hist.length = s.L
  tapsForm : Memory.wf s.taps
  tapsRange : ∀ c ∈ s.taps, c.1 < s.tapCells
  log : s.errv = false → s.errcode = 0 ∧ s.errcmdh = 0 ∧ s.errcmdl = 0

/-- R221: a response code that exists: acceptance or one of the eight causes. -/
def KnownCode (code : BitVec 8) : Prop := code = 0 ∨ ∃ c : Cause, code = c.code

/-- R91, R221: a response the block may give: a known code, and no data beside a rejection. -/
def KnownResponse (r : RspWord) : Prop :=
  (∃ data : Word, r = responseWord 0 data) ∨ ∃ c : Cause, r = responseWord c.code 0

/-! ## Runs -/

/-- A state that some run reaches: from a launch with a legal `L`, by steps of the block and moves of the hosts. -/
inductive Reachable : State → Prop where
  /-- R256: the launch -/
  | launch (L : Nat) : 1 ≤ L → L ≤ Config.maxTapsPerPhase → Reachable (State.launch L)
  /-- a step of the block -/
  | step (s t : State) : Reachable s → step s = .next t → Reachable t
  /-- a move of the environment -/
  | host (s : State) (m : HostMove CmdWord SmpWord) : Reachable s → Reachable (s.hostMove m)

/-- A safe run makes no stop: the next step answers a next state. -/
def State.safe (s : State) : Prop := ∃ t, step s = .next t

end Sys2Proof.Machine
end

