-- ==== Sys2Proof/Certificates/Slice0/Obligations.lean ====
section
/-! DEFINITION. The statements for the provers. Each docstring names the rule of spec/ that is formalised, or says that
the statement is derived. -/

namespace Sys2Proof.Claims

open Sys2Proof.Machine

/-- `isfinite(w) and fgt0(w)`, the check of the rates and of the maximum deviation (R196). -/
abbrev positiveFinite (w : Word) : Bool := isfinite w && fgt0 w

/-- What rule R230 says a rejection with this code leaves of `s`, for the command word `w`. -/
def rejected (s : State) (code : BitVec 8) (w : CmdWord) : State :=
  { s with
    errv := true
    errcode := (0 : BitVec 24) ++ code
    errcmdh := w.extractLsb' 32 32
    errcmdl := w.extractLsb' 0 32
    rspq := s.rspq ++ [code ++ (0 : Word)] }

/-- The state with one more response word. -/
def answered (s : State) (r : RspWord) : State := { s with rspq := s.rspq ++ [r] }

/-- A step that takes a command word `w` with opcode `op` (R186, R98): where the fields of `w` that must be 0 are, it
executes `i w` in the state whose queue has lost `w`; where they are not, it rejects `w` with `E_ILLEGAL`. -/
def RunsAs (op : BitVec 8) (fieldsZero : CmdWord → Prop) (i : CmdWord → Instr) : Prop :=
  ∀ (s t : State) (w : CmdWord), s.fetch = .command w t → opField w = op →
    (fieldsZero w → step s = exec (i w) t) ∧
    (¬fieldsZero w → step s = .next (rejected t 0x01 w))

/-- The cutoff of R38: `min(QRATE, ARATE) × NUM_HALF`. -/
def requestedCutoff (q a : Word) : Word := fmul (if flt q a then q else a) 0x3F000000

/-- The cutoff check of R175 and R196 fails. -/
def cutoffBad (q a : Word) : Bool :=
  !fgt0 (requestedCutoff q a) || flt (fmul q 0x3F000000) (requestedCutoff q a)
    || flt (fmul a 0x3F000000) (requestedCutoff q a)

/-- All checks of `BUILD` (R196) pass. -/
def buildable (s : State) : Prop :=
  positiveFinite s.qrate = true ∧ positiveFinite s.arate = true ∧ positiveFinite s.maxdev = true ∧
    isfinite s.tau = true ∧ cutoffBad s.qrate s.arate = false

/-- What an accepted `BUILD` leaves (R196), with `GAINCALC` (R120) and `DECOEF` (R145) written out. -/
def built (s : State) : State :=
  { s with
    fsm := .run
    gain := fdiv s.qrate (fmul 0x40C90FDB s.maxdev)
    deEn := fgt0 s.tau
    alpha := if fgt0 s.tau then fdiv 0x3F800000 (fadd 0x3F800000 (fmul s.tau s.qrate)) else 0x3F800000
    beta :=
      if fgt0 s.tau then
        fsub 0x3F800000 (fdiv 0x3F800000 (fadd 0x3F800000 (fmul s.tau s.qrate)))
      else 0x00000000
    yprev := 0
    prevI := 0
    prevQ := 0
    prevValid := false
    hist := List.replicate s.L 0
    rpos := 0
    rstep := 32 * val s.qrate / val s.arate
    inbatch := false
    rspq := s.rspq ++ [0] }

/-- R166: the products of a row of taps with the delay line, summed from `+0`, the newest sample first. -/
def rowSum (row : Nat → Word) (h : List Word) (L : Nat) : Word :=
  (List.range L).foldl (fun acc k => fadd acc (fmul (row k) (h.getD k 0x00000000))) 0x00000000

/-- R166: the sum for the taps `TAPS[p + 32·k]`. -/
def armSum (tap : Nat → Word) (h : List Word) (L p : Nat) : Word := rowSum (fun k => tap (p + 32 * k)) h L

/-- R165, R167: the sum for the next row: `TAPS[p + 1 + 32·k]` below arm 31; past it `TAPS[32·(k+1)]`, and `+0` for the
last tap. -/
def nextSum (tap : Nat → Word) (h : List Word) (L p : Nat) : Word :=
  rowSum (fun k => if p < 31 then tap (p + 1 + 32 * k) else if k + 1 < L then tap (32 * (k + 1)) else 0x00000000) h L

/-- R168: `A + (ofrat(mu) × (B − A))`, and `A` itself where `mu` is 0. -/
def positionWord (tap : Nat → Word) (h : List Word) (L p : Nat) (mu : Rat) : Word :=
  if mu = 0 then armSum tap h L p
  else fadd (armSum tap h L p) (fmul (ofrat mu) (fsub (nextSum tap h L p) (armSum tap h L p)))

/-- The two states agree on everything but the content of `TAPS` and the values of the output words. -/
def EqualButTaps (s t : State) : Prop :=
  { t with taps := s.taps, tapsEpoch := s.tapsEpoch, outq := s.outq } = s ∧
    t.outq.length = s.outq.length

/-- The samples of a tone of amplitude `A`, start phase `φ` and phase increment `δ`, number `0` to `n`. -/
noncomputable def tone (A φ δ : ℝ) (n : Nat) : List (ℝ × ℝ) :=
  (List.range (n + 1)).map fun k : Nat => (A * Real.cos (φ + k * δ), A * Real.sin (φ + k * δ))

end Sys2Proof.Claims

open Sys2Proof Sys2Proof.Machine Sys2Proof.Claims

/-! ## Encoding -/

/-- Derived from R90 to R99 and R104 (R64 for the bytes): no operand bit of a well-formed operation is lost between its
word, its bytes and its decoding. -/
def Obligations.DecodeOfEncode : Prop :=
  ∀ i : Instr, WellFormed i → decode (encode i) = .ok i ∧ decodeBytes (encode i).toBytes = .ok i

/-- Derived from R98 and R104: whatever a port word decodes to is well formed and has that word. -/
def Obligations.EncodeOfDecode : Prop :=
  ∀ (p : PortWord) (i : Instr), decode p = .ok i → WellFormed i ∧ encode i = p

/-- Derived from R98: a word is the instruction of a row iff `w AND mask = match`, on either port. -/
def Obligations.DecodeAgreesWithOpcodeMap : Prop :=
  (∀ (w : CmdWord) (i : Instr), i.isCommand = true →
    (w.toNat &&& (opcodeRow i).1 = (opcodeRow i).2 ↔
      ∃ j, decode (.cmd w) = .ok j ∧ opcodeRow j = opcodeRow i)) ∧
  (∀ (w : SmpWord) (i : Instr), i.isCommand = false →
    (w.toNat &&& (opcodeRow i).1 = (opcodeRow i).2 ↔
      ∃ j, decode (.smp w) = .ok j ∧ opcodeRow j = opcodeRow i))

/-- R100: which command words are illegal, and that a step at one rejects it with `E_ILLEGAL` and does nothing else. -/
def Obligations.IllegalWordsAreRejected : Prop :=
  (∀ w : CmdWord, (∃ e, decodeCommand w = .error e) ↔
    (opField w).toNat ∉ [1, 2, 3, 4, 5, 6, 7, 8, 0x10, 0x11] ∨
    ((opField w).toNat ∈ [1, 2, 3, 4, 6, 7, 0x10, 0x11] ∧ aField w ≠ 0) ∨
    ((opField w).toNat ∈ [6, 7, 8] ∧ dField w ≠ 0)) ∧
  (∃ e, decodeCommand 0x0000000000000000 = .error e) ∧
  (∃ e, decodeCommand 0xFFFFFFFFFFFFFFFF = .error e) ∧
  (∀ (s : State) (w : CmdWord) (rest : List CmdWord) (e : DecodeError), s.cmdq = w :: rest →
    s.inbatch = false → s.sampleHead? = none → decodeCommand w = .error e →
    step s = .next (rejected { s with cmdq := rest } 0x01 w))

/-- R109: the twelve example lines, as text, assemble to the words the rule writes out, and those words decode to the
operations with those operands. -/
def Obligations.ExampleWordsAssembleAndDecode : Prop :=
  ∀ x ∈ ([("LDQR 250000.0", .cmd 0x0100000048742400, .ldqr 0x48742400),
      ("LDAR 48000.0", .cmd 0x02000000473B8000, .ldar 0x473B8000),
      ("LDDV 5000.0", .cmd 0x03000000459C4000, .lddv 0x459C4000),
      ("LDTC 0", .cmd 0x0400000000000000, .ldtc 0x00000000),
      ("LDTAP 33, 0.96875", .cmd 0x050000213F780000, .ldtap 33 0x3F780000),
      ("BUILD", .cmd 0x0600000000000000, .build),
      ("TEARDN", .cmd 0x0700000000000000, .teardn),
      ("RDREG GAIN", .cmd 0x0800000600000000, .rdreg 0x06),
      ("SETDEV 2500.0", .cmd 0x10000000451C4000, .setdev 0x451C4000),
      ("SETTAU 0", .cmd 0x1100000000000000, .settau 0x00000000),
      ("SAMPLE 1.0, 0.0", .smp 0x1000000003F800000, .sample 0x3F800000 0x00000000),
      ("SAMPLEC 0.0, 1.0", .smp 0x03F80000000000000, .samplec 0x00000000 0x3F800000)] :
        List (String × PortWord × Instr)),
    assembleText x.1.toList = some [x.2.1] ∧ decode x.2.1 = .ok x.2.2

/-- Derived from R108: `CONSTRUCT` in an unbuilt block with empty input queues gives five responses, the four loads are
accepted, and the pipeline runs afterwards exactly if the fifth response has code `0x00`. -/
def Obligations.ConstructSucceedsIffBuildAccepted : Prop :=
  ∀ (s : State) (fq fa dmax tau : NumLit) (ws : List PortWord), s.fsm = .unbuilt → s.inbatch = false →
    s.cmdq = [] → s.inq = [] → assembleAll (construct fq fa dmax tau) = some ws →
    ∃ (t : State) (r : RspWord), runScript ws s = .finished t ∧ t.rspq = s.rspq ++ [0, 0, 0, 0, r] ∧
      t.qrate = fq.word ∧ t.arate = fa.word ∧ t.maxdev = dmax.word ∧ t.tau = tau.word ∧
      (t.fsm = .run ↔ r.extractLsb' 32 8 = 0)

/-! ## The step -/

/-- Derived from R186, R187: a step at a decodable word runs exactly `exec` of what the word decodes to, from the state
whose queue has lost that word. -/
def Obligations.StepRunsDecodedInstruction : Prop :=
  (∀ (s : State) (w : CmdWord) (rest : List CmdWord) (i : Instr), s.cmdq = w :: rest → s.inbatch = false →
    (s.fsm ≠ .run ∨ s.inq = []) → decode (.cmd w) = .ok i → step s = exec i { s with cmdq := rest }) ∧
  (∀ (s : State) (w : SmpWord) (rest : List SmpWord) (i : Instr), s.inq = w :: rest → s.fsm = .run →
    (s.inbatch = true ∨ s.cmdq = []) → decode (.smp w) = .ok i → step s = exec i { s with inq := rest })

/-- Derived from R188: where both kinds of step are enabled, one of the two is taken, and one choice of `ARB` is used
up. Which one is the free value of log 4. -/
def Obligations.ArbitrationTakesEitherStep : Prop :=
  ∀ (s : State) (w : CmdWord) (ws : List CmdWord) (x : SmpWord) (xs : List SmpWord), s.cmdq = w :: ws →
    s.inq = x :: xs → s.inbatch = false → s.fsm = .run →
    (Config.arb s.arbCount = true ∧
      step s = runCommandWord w { s with cmdq := ws, arbCount := s.arbCount + 1 }) ∨
    (Config.arb s.arbCount = false ∧
      step s = runSampleWord x { s with inq := xs, arbCount := s.arbCount + 1 })

/-- Derived from R186, R187, R189: while a batch is in flight no step takes a command, answers one or changes the error
log; while no pipeline runs no step takes a sample or outputs a word. -/
def Obligations.HeldWordsStayInTheirQueues : Prop :=
  ∀ s t : State, step s = .next t →
    (s.inbatch = true →
      t.cmdq = s.cmdq ∧ t.rspq = s.rspq ∧ t.errv = s.errv ∧ t.errcode = s.errcode ∧
        t.errcmdh = s.errcmdh ∧ t.errcmdl = s.errcmdl) ∧
    (s.fsm ≠ .run → t.inq = s.inq ∧ t.outq = s.outq)

/-- Derived (log 7; R243: "the block simply has no enabled step, and all state survives"): where no step is enabled the
state survives; a stuck state is one. That the step answers a next state there is the model's choice. -/
def Obligations.NoEnabledStepKeepsState : Prop :=
  ∀ s : State, (s.enabled = false → step s = .next s) ∧ (s.stuck = true → step s = .next s)

/-- Derived from R201: the stuck states of a block that keeps its invariants are exactly two kinds: samples waiting with
no command and no pipeline, and commands waiting inside a batch with no sample. -/
def Obligations.StuckStatesAreTwo : Prop :=
  ∀ s : State, Inv s →
    (s.stuck = true ↔
      (s.inq ≠ [] ∧ s.cmdq = [] ∧ s.fsm = .unbuilt) ∨ (s.cmdq ≠ [] ∧ s.inbatch = true ∧ s.inq = []))

/-- Derived from R186, R187, R200: every enabled step that answers takes exactly one word from an input queue. -/
def Obligations.EnabledStepTakesOneWord : Prop :=
  ∀ s t : State, s.enabled = true → step s = .next t →
    t.cmdq.length + t.inq.length + 1 = s.cmdq.length + s.inq.length

/-- Derived from R74, R91, R186, R221: a `STEP_CMD` always answers a next state and pushes exactly one response, accepted
or one of the eight causes; its data is 0 unless the command is an accepted `RDREG`. -/
def Obligations.EveryCommandGetsOneResponse : Prop :=
  ∀ (s : State) (w : CmdWord) (t : State), s.fetch = .command w t →
    ∃ (u : State) (r : RspWord), step s = .next u ∧ u.rspq = s.rspq ++ [r] ∧ KnownResponse r ∧
      (r.extractLsb' 0 32 ≠ 0 → ∃ a, decodeCommand w = .ok (.rdreg a))

/-- Derived from R72, R74, R200: words already pushed to `RSPQ` and `OUTQ` are never changed; new ones come behind them.
So along a run its output, everything ever pushed in order, only grows at its end; only the block adds to it, and a host
that takes a word leaves it as it is. At launch it is empty. -/
def Obligations.PushedWordsAreNeverChanged : Prop :=
  (∀ s t : State, step s = .next t → s.rspq <+: t.rspq ∧ s.outq <+: t.outq) ∧
  (∀ l : Launch CmdWord SmpWord, (l.start b32Machine).output = ⟨[], []⟩) ∧
  ∀ (r r' : Running Word CmdWord RspWord SmpWord) (e : Event), r.event b32Machine e = some r' →
    r.output.responses <+: r'.output.responses ∧ r.output.outputs <+: r'.output.outputs ∧
    (e ≠ .block → r'.output = r.output)

/-! ## Rejections -/

/-- R230: a command step consumes its word, and either the command is accepted, and the error log is untouched, or it
is rejected for one of the eight causes, and then nothing changes but the error log and the one response; so for every
operation that `exec` runs. -/
def Obligations.RejectionChangesOnlyLogAndResponse : Prop :=
  (∀ (s t : State) (w : CmdWord), s.fetch = .command w t →
    s.cmdq = w :: t.cmdq ∧
    ∃ u, step s = .next u ∧
      ((∃ data : Word, u.rspq = t.rspq ++ [(0 : BitVec 8) ++ data] ∧ u.errv = t.errv ∧
          u.errcode = t.errcode ∧ u.errcmdh = t.errcmdh ∧ u.errcmdl = t.errcmdl) ∨
        ∃ code ∈ ([0x01, 0x02, 0x03, 0x10, 0x11, 0x12, 0x13, 0x14] : List (BitVec 8)),
          u = rejected t code w)) ∧
  (∀ (i : Instr) (s : State), i.isCommand = true →
    ∃ t, exec i s = .next t ∧
      ((∃ data : Word, t.rspq = s.rspq ++ [(0 : BitVec 8) ++ data] ∧ t.errv = s.errv ∧
          t.errcode = s.errcode ∧ t.errcmdh = s.errcmdh ∧ t.errcmdl = s.errcmdl) ∨
        ∃ code ∈ ([0x02, 0x03, 0x10, 0x11, 0x12, 0x13, 0x14] : List (BitVec 8)),
          t = rejected s code (encodeCommand i)))

/-- R223: which commands are refused in which state, whatever their operand, and what is recorded. -/
def Obligations.StateCheckRejects : Prop :=
  ∀ (s : State) (d : Word) (j : Nat), j < 2 ^ 24 →
    (s.fsm = .run →
      exec (.ldqr d) s = .next (rejected s 0x02 (packCommand 0x01 0 d)) ∧
      exec (.ldar d) s = .next (rejected s 0x02 (packCommand 0x02 0 d)) ∧
      exec (.lddv d) s = .next (rejected s 0x02 (packCommand 0x03 0 d)) ∧
      exec (.ldtc d) s = .next (rejected s 0x02 (packCommand 0x04 0 d)) ∧
      exec (.ldtap j d) s = .next (rejected s 0x02 (packCommand 0x05 (BitVec.ofNat 24 j) d)) ∧
      exec .build s = .next (rejected s 0x02 0x0600000000000000)) ∧
    (s.fsm = .unbuilt →
      exec (.setdev d) s = .next (rejected s 0x02 (packCommand 0x10 0 d)) ∧
      exec (.settau d) s = .next (rejected s 0x02 (packCommand 0x11 0 d))) ∧
    (∀ w : CmdWord, exec .teardn s ≠ .next (rejected s 0x02 w) ∧
      exec (.rdreg j) s ≠ .next (rejected s 0x02 w))

/-- Derived from R37, R232: `ERRV` is sticky, and no step changes the log without a rejection's response. -/
def Obligations.ErrorLogIsSticky : Prop :=
  ∀ s t : State, step s = .next t →
    (s.errv = true → t.errv = true) ∧
    ((t.errcode ≠ s.errcode ∨ t.errcmdh ≠ s.errcmdh ∨ t.errcmdl ≠ s.errcmdl) →
      ∃ c : Cause, t.rspq = s.rspq ++ [c.code ++ (0 : Word)])

/-! ## The loads, `LDTAP`, `BUILD`, `TEARDN`, `RDREG` -/

/-- R192: `LDQR`, format `CD`, loads any pattern and changes nothing else; in `RUN` it is rejected with `E_STATE`. -/
def Obligations.LdqrLoadsQuadratureRate : Prop :=
  RunsAs 0x01 (fun w => aField w = 0) (fun w => .ldqr (dField w)) ∧
  ∀ (s : State) (d : Word),
    (s.fsm = .unbuilt → exec (.ldqr d) s = .next { s with qrate := d, rspq := s.rspq ++ [0] }) ∧
    (s.fsm ≠ .unbuilt → exec (.ldqr d) s = .next (rejected s 0x02 (packCommand 0x01 0 d)))

/-- R193, R194, R195: `LDAR`, `LDDV`, `LDTC` are exactly as `LDQR` for their registers; no derived register is
computed. -/
def Obligations.OtherLoadsLoadTheirArguments : Prop :=
  RunsAs 0x02 (fun w => aField w = 0) (fun w => .ldar (dField w)) ∧
  RunsAs 0x03 (fun w => aField w = 0) (fun w => .lddv (dField w)) ∧
  RunsAs 0x04 (fun w => aField w = 0) (fun w => .ldtc (dField w)) ∧
  ∀ (s : State) (d : Word),
    (s.fsm = .unbuilt →
      exec (.ldar d) s = .next { s with arate := d, rspq := s.rspq ++ [0] } ∧
      exec (.lddv d) s = .next { s with maxdev := d, rspq := s.rspq ++ [0] } ∧
      exec (.ldtc d) s = .next { s with tau := d, rspq := s.rspq ++ [0] }) ∧
    (s.fsm ≠ .unbuilt →
      exec (.ldar d) s = .next (rejected s 0x02 (packCommand 0x02 0 d)) ∧
      exec (.lddv d) s = .next (rejected s 0x02 (packCommand 0x03 0 d)) ∧
      exec (.ldtc d) s = .next (rejected s 0x02 (packCommand 0x04 0 d)))

/-- R163: `LDTAP`, never illegal, writes its one cell, every other cell and every other element staying as it was; it is
rejected with `E_STATE` outside `UNBUILT`, and with `E_ADDR` past the last cell. -/
def Obligations.LdtapWritesOneCell : Prop :=
  RunsAs 0x05 (fun _ => True) (fun w => .ldtap (aField w).toNat (dField w)) ∧
  ∀ (s : State) (j : Nat) (d : Word), j < 2 ^ 24 →
    (s.fsm = .unbuilt → j < 32 * s.L →
      ∃ t, exec (.ldtap j d) s = .next t ∧ t.readTap j = d ∧ (∀ k, k ≠ j → t.readTap k = s.readTap k) ∧
        t = { s with taps := t.taps, rspq := s.rspq ++ [0] }) ∧
    (s.fsm = .unbuilt → 32 * s.L ≤ j →
      exec (.ldtap j d) s = .next (rejected s 0x03 (packCommand 0x05 (BitVec.ofNat 24 j) d))) ∧
    (s.fsm ≠ .unbuilt →
      exec (.ldtap j d) s = .next (rejected s 0x02 (packCommand 0x05 (BitVec.ofNat 24 j) d)))

/-- R196: `BUILD` accepted, with every element it writes and none other; and its checks in their order. -/
def Obligations.BuildChecksThenBuilds : Prop :=
  RunsAs 0x06 (fun w => aField w = 0 ∧ dField w = 0) (fun _ => .build) ∧
  ∀ s : State,
    (s.fsm = .unbuilt → buildable s → exec .build s = .next (built s)) ∧
    (s.fsm ≠ .unbuilt → exec .build s = .next (rejected s 0x02 0x0600000000000000)) ∧
    (s.fsm = .unbuilt → positiveFinite s.qrate = false →
      exec .build s = .next (rejected s 0x10 0x0600000000000000)) ∧
    (s.fsm = .unbuilt → positiveFinite s.qrate = true → positiveFinite s.arate = false →
      exec .build s = .next (rejected s 0x11 0x0600000000000000)) ∧
    (s.fsm = .unbuilt → positiveFinite s.qrate = true → positiveFinite s.arate = true →
      positiveFinite s.maxdev = false → exec .build s = .next (rejected s 0x12 0x0600000000000000)) ∧
    (s.fsm = .unbuilt → positiveFinite s.qrate = true → positiveFinite s.arate = true →
      positiveFinite s.maxdev = true → isfinite s.tau = false →
      exec .build s = .next (rejected s 0x14 0x0600000000000000)) ∧
    (s.fsm = .unbuilt → positiveFinite s.qrate = true → positiveFinite s.arate = true →
      positiveFinite s.maxdev = true → isfinite s.tau = true → cutoffBad s.qrate s.arate = true →
      exec .build s = .next (rejected s 0x13 0x0600000000000000))

/-- Derived from R175, R228: for valid rates the cutoff check fails exactly if a rate is the least positive subnormal;
under `IDEAL` it never fails. -/
def Obligations.CutoffErrorOnlyAtLeastSubnormal : Prop :=
  (∀ q a : Word, positiveFinite q = true → positiveFinite a = true →
    (cutoffBad q a = true ↔ q = 0x00000001 ∨ a = 0x00000001)) ∧
  (∀ q a : ℝ, 0 < q → 0 < a → cutoffInvalid ideal q a = false)

/-- R197: `TEARDN` in every state: the column "value after TEARDN" of R45, `TAPS` and the error log kept. -/
def Obligations.TeardnDiscardsPipeline : Prop :=
  RunsAs 0x07 (fun w => aField w = 0 ∧ dField w = 0) (fun _ => .teardn) ∧
  ∀ s : State, exec .teardn s = .next
    { s with
      fsm := .unbuilt
      deEn := false
      prevValid := false
      inbatch := false
      qrate := 0
      arate := 0
      maxdev := 0
      tau := 0
      gain := 0
      alpha := 0
      beta := 0
      prevI := 0
      prevQ := 0
      yprev := 0
      hist := List.replicate s.L 0
      rpos := 0
      rstep := 0
      rspq := s.rspq ++ [0] }

/-- R198: `RDREG` answers the register of the address map and changes nothing but `RSPQ`; above `0x12` it is rejected
with `E_ADDR`. -/
def Obligations.RdregAnswersRegister : Prop :=
  RunsAs 0x08 (fun w => dField w = 0) (fun w => .rdreg (aField w).toNat) ∧
  ∀ s : State,
    (∀ x ∈ ([(0x00, 0x464D5144), (0x02, s.qrate), (0x03, s.arate), (0x04, s.maxdev), (0x05, s.tau),
        (0x06, s.gain), (0x07, s.alpha), (0x08, s.beta), (0x09, s.errcode), (0x0A, s.errcmdh),
        (0x0B, s.errcmdl), (0x0C, 0x00000020), (0x0D, requestedCutoff s.qrate s.arate),
        (0x0E, fmul (requestedCutoff s.qrate s.arate) 0x3DCCCCCD), (0x0F, BitVec.ofNat 32 s.L),
        (0x10, s.prevI), (0x11, s.prevQ), (0x12, s.yprev)] : List (Nat × Word)),
      exec (.rdreg x.1) s = .next (answered s ((0 : BitVec 8) ++ x.2))) ∧
    (∃ v, s.csrRead? 0x01 = some v ∧ exec (.rdreg 0x01) s = .next (answered s ((0 : BitVec 8) ++ v))) ∧
    (∀ a, 0x12 < a → a < 2 ^ 24 →
      exec (.rdreg a) s = .next (rejected s 0x03 (packCommand 0x08 (BitVec.ofNat 24 a) 0)))

/-- R32: the bits of `STATUS`, with the encodings of `FSM` as R27 writes them. -/
def Obligations.StatusShowsFlags : Prop :=
  ∀ s : State, ∃ v, s.csrRead? 0x01 = some v ∧
    (s.fsm = .unbuilt → v.extractLsb' 0 2 = 0) ∧ (s.fsm = .building → v.extractLsb' 0 2 = 1) ∧
    (s.fsm = .run → v.extractLsb' 0 2 = 2) ∧ (s.fsm = .reconf → v.extractLsb' 0 2 = 3) ∧
    v.getLsbD 2 = s.deEn ∧ v.getLsbD 3 = s.prevValid ∧
    v.getLsbD 4 = s.errv ∧ (∀ k, 5 ≤ k → v.getLsbD k = false) ∧
    ∀ L, (State.launch L).csrRead? 0x01 = some 0

/-! ## The setters -/

/-- R121: `SETDEV` writes the deviation and the gain together and nothing else; a bad operand or the wrong state is
rejected. -/
def Obligations.SetdevSwapsGain : Prop :=
  RunsAs 0x10 (fun w => aField w = 0) (fun w => .setdev (dField w)) ∧
  ∀ (s : State) (d : Word),
    (s.fsm = .run → positiveFinite d = true →
      exec (.setdev d) s = .next
        { s with maxdev := d, gain := fdiv s.qrate (fmul 0x40C90FDB d), rspq := s.rspq ++ [0] }) ∧
    (s.fsm = .run → positiveFinite d = false →
      exec (.setdev d) s = .next (rejected s 0x12 (packCommand 0x10 0 d))) ∧
    (s.fsm ≠ .run → exec (.setdev d) s = .next (rejected s 0x02 (packCommand 0x10 0 d)))

/-- R147: `SETTAU` writes the time constant, the flag and both coefficients and zeroes the filter state, nothing else;
only an infinity, a NaN or the wrong state is rejected. -/
def Obligations.SettauRestartsFilter : Prop :=
  RunsAs 0x11 (fun w => aField w = 0) (fun w => .settau (dField w)) ∧
  ∀ (s : State) (d : Word),
    (s.fsm = .run → isfinite d = true →
      exec (.settau d) s = .next
        { s with
          tau := d
          deEn := fgt0 d
          alpha := if fgt0 d then fdiv 0x3F800000 (fadd 0x3F800000 (fmul d s.qrate)) else 0x3F800000
          beta :=
            if fgt0 d then fsub 0x3F800000 (fdiv 0x3F800000 (fadd 0x3F800000 (fmul d s.qrate)))
            else 0x00000000
          yprev := 0
          rspq := s.rspq ++ [0] }) ∧
    (s.fsm = .run → isfinite d = false →
      exec (.settau d) s = .next (rejected s 0x14 (packCommand 0x11 0 d))) ∧
    (s.fsm ≠ .run → exec (.settau d) s = .next (rejected s 0x02 (packCommand 0x11 0 d)))

/-- Derived from R122: in `B32` a larger maximum deviation never gives a larger gain; under `IDEAL` the gain is the
formula and is strictly decreasing. -/
def Obligations.GainDecreasesWithDeviation : Prop :=
  (∀ fs d e : Word, positiveFinite fs = true → positiveFinite d = true → positiveFinite e = true →
    flt d e = true → flt (gaincalc b32 fs d) (gaincalc b32 fs e) = false) ∧
  (∀ fs d e : ℝ, 0 < fs → 0 < d → d < e →
    gaincalc ideal fs d = fs / (2 * Real.pi * d) ∧ gaincalc ideal fs e < gaincalc ideal fs d)

/-- R145: the coefficient, and that `0 <= alpha <= 1` and `0 <= beta <= 1` for every finite `tau > 0` and `fs > 0`. -/
def Obligations.CoefficientsLieInUnitInterval : Prop :=
  ∀ tau fs : Word, isfinite tau = true → positiveFinite fs = true →
    (fgt0 tau = false → decoef b32 tau fs = ⟨false, 0x3F800000, 0x00000000⟩) ∧
    (fgt0 tau = true →
      decoef b32 tau fs = ⟨true, fdiv 0x3F800000 (fadd 0x3F800000 (fmul tau fs)),
        fsub 0x3F800000 (fdiv 0x3F800000 (fadd 0x3F800000 (fmul tau fs)))⟩ ∧
      isfinite (decoef b32 tau fs).alpha = true ∧ isfinite (decoef b32 tau fs).beta = true ∧
      0 ≤ val (decoef b32 tau fs).alpha ∧ val (decoef b32 tau fs).alpha ≤ 1 ∧
      0 ≤ val (decoef b32 tau fs).beta ∧ val (decoef b32 tau fs).beta ≤ 1)

/-! ## The demodulator -/

/-- R132: a zero-magnitude sample returns `+0` and changes no demodulator state, whatever the gain. -/
def Obligations.ZeroSampleIsPhasePreserving : Prop :=
  ∀ (gain pI pQ i q : Word) (pv : Bool), iszero i = true → iszero q = true →
    demod b32 gain pI pQ pv i q = ⟨0x00000000, pI, pQ, pv⟩

/-- R133: the first sample of non-zero magnitude after `BUILD` primes the state and yields `+0`; an accepted `BUILD`
leaves the state unprimed. No operation but `BUILD` and `TEARDN` (R29) ever unprimes it, and no command but those two
writes it at all, neither setter among them. -/
def Obligations.FirstSampleSeedsDemodulator : Prop :=
  (∀ gain pI pQ i q : Word, ¬(iszero i = true ∧ iszero q = true) →
    demod b32 gain pI pQ false i q = ⟨0x00000000, i, q, true⟩) ∧
  (∀ s t : State, s.fsm = .unbuilt → exec .build s = .next t → t.fsm = .run → t.prevValid = false) ∧
  (∀ (i : Instr) (s t : State), i ≠ .build → i ≠ .teardn → exec i s = .next t →
    (s.prevValid = true → t.prevValid = true) ∧
    (i.isCommand = true → t.prevValid = s.prevValid ∧ t.prevI = s.prevI ∧ t.prevQ = s.prevQ))

/-- Derived from R131, R135, R136: the value of a later sample: the angle of the conjugate product times the gain, with
`NUM_PI` on the branch cut whatever the sign of the zero, and zero for a vanishing product. -/
def Obligations.DemodulatorMeasuresPhaseDifference : Prop :=
  ∀ gain pI pQ i q : Word, ¬(iszero i = true ∧ iszero q = true) →
    ∃ re im : Word, re = fadd (fmul i pI) (fmul q pQ) ∧ im = fsub (fmul q pI) (fmul i pQ) ∧
      (demod b32 gain pI pQ true i q).prevI = i ∧ (demod b32 gain pI pQ true i q).prevQ = q ∧
      (demod b32 gain pI pQ true i q).prevValid = true ∧
      (iszero re = true → iszero im = true →
        (demod b32 gain pI pQ true i q).out = fmul gain 0x00000000) ∧
      (iszero re = false → iszero im = true → flt re 0x00000000 = true →
        (demod b32 gain pI pQ true i q).out = fmul gain 0x40490FDB) ∧
      (iszero im = false ∨ (iszero re = false ∧ flt re 0x00000000 = false) →
        (demod b32 gain pI pQ true i q).out = fmul gain (fatan2 im re))

/-- Derived from R135: with a finite gain and a finite conjugate product, `|DEMOD| <= |GAIN| × NUM_PI`. -/
def Obligations.DemodulatorOutputIsBounded : Prop :=
  ∀ (gain pI pQ i q : Word) (pv : Bool), isfinite gain = true →
    isfinite (fadd (fmul i pI) (fmul q pQ)) = true → isfinite (fsub (fmul q pI) (fmul i pQ)) = true →
    fmag (demod b32 gain pI pQ pv i q).out ≤ fmag (fmul gain 0x40490FDB)

/-- Derived from 93_implementation_defined.md U7 (a) to (f): the named properties of `fatan2`, whatever its free values
(log 5), for all finite arguments that are not both zero, the negative axis included. -/
def Obligations.AngleHasNamedProperties : Prop :=
  ∀ y x : Word, isfinite y = true → isfinite x = true → ¬(iszero y = true ∧ iszero x = true) →
    fmag (fatan2 y x) ≤ fmag 0x40490FDB ∧
    (iszero y = true → fgt0 x = true → fatan2 y x = y) ∧
    (iszero x = true → fgt0 y = true → fatan2 y x = 0x3FC90FDB) ∧
    (iszero x = true → fsign y = true → fatan2 y x = 0xBFC90FDB) ∧
    (iszero y = false → fsign (fatan2 y x) = fsign y) ∧
    (iszero y = false → fatan2 (fneg y) x = fneg (fatan2 y x)) ∧
    (∀ (y' x' : Word) (k : Int), isfinite y' = true → isfinite x' = true → fsign y' = fsign y →
      fsign x' = fsign x → val y' = val y * (2 : Rat) ^ k → val x' = val x * (2 : Rat) ^ k →
      fatan2 y' x' = fatan2 y x)

/-- Derived from R134 under `IDEAL`: a later sample yields the gain times the principal argument of the new sample times
the conjugate of the previous one. -/
def Obligations.IdealDemodulatorIsArgument : Prop :=
  ∀ (gain i q pI pQ : ℝ), (i ≠ 0 ∨ q ≠ 0) → (pI ≠ 0 ∨ pQ ≠ 0) →
    (demod ideal gain pI pQ true i q).out =
      gain * Complex.arg ((⟨i, q⟩ : ℂ) * (starRingEnd ℂ) (⟨pI, pQ⟩ : ℂ))

/-- Derived from R137 under `IDEAL`: a tone demodulates to zero once and then to the constant `GAIN·Δφ`; with
`Δφ = 2π·f0/Fq` that constant is `f0/Dmax`. -/
def Obligations.IdealToneGivesConstant : Prop :=
  (∀ (gain A φ δ : ℝ) (n : Nat), 0 < A → -Real.pi < δ → δ ≤ Real.pi →
    demodStream ideal gain 0 0 false (tone A φ δ n) = 0 :: List.replicate n (gain * δ)) ∧
  (∀ fq dmax f0 : ℝ, 0 < fq → 0 < dmax →
    gaincalc ideal fq dmax * (2 * Real.pi * f0 / fq) = f0 / dmax)

/-! ## The de-emphasis filter -/

/-- R148: while `DE_EN = 0` a sample passes the filter bit for bit, and so does any sequence; `YPREV` is neither read nor
written, and it is `+0` then in every reachable state. -/
def Obligations.BypassPassesValuesUnchanged : Prop :=
  (∀ (alpha beta y x : Word), deemph b32 false alpha beta y x = (x, y)) ∧
  (∀ (alpha beta y : Word) (xs : List Word), deemphStream b32 false alpha beta y xs = xs) ∧
  (∀ (s t : State) (i q v : Word), s.deEn = false → 1 ≤ s.L → exec (.sample i q) s = .next t →
    t.yprev = s.yprev ∧
    t.hist.head? = some (demod b32 s.gain s.prevI s.prevQ s.prevValid i q).out ∧
    exec (.sample i q) { s with yprev := v } = .next { t with yprev := v }) ∧
  ∀ s : State, Reachable s → s.deEn = false → s.yprev = 0

/-- Derived from R147, R148: after `SETTAU` with a value that is not positive, the very next sample enters the rate
converter exactly as the demodulator returned it. -/
def Obligations.SettauToZeroLeavesNoResidue : Prop :=
  ∀ (s t u : State) (d i q : Word), s.fsm = .run → 1 ≤ s.L → isfinite d = true → fgt0 d = false →
    exec (.settau d) s = .next t → exec (.sample i q) t = .next u →
    u.hist.head? = some (demod b32 s.gain s.prevI s.prevQ s.prevValid i q).out ∧ u.yprev = 0

/-- Derived from R149 under `IDEAL`: the response from rest is the convolution with `α(1−α)^m`; it is linear, and the
step response is `c(1 − (1−α)^(n+1))`. -/
def Obligations.IdealFilterIsLinearTimeInvariant : Prop :=
  ∀ (α : ℝ) (xs : List ℝ),
    (∀ n, n < xs.length →
      (deemphStream ideal true α (1 - α) 0 xs)[n]? =
        some (∑ m ∈ Finset.range (n + 1), α * (1 - α) ^ m * xs.getD (n - m) 0)) ∧
    (∀ k : ℝ, deemphStream ideal true α (1 - α) 0 (xs.map fun x => k * x) =
      (deemphStream ideal true α (1 - α) 0 xs).map fun y => k * y) ∧
    (∀ (c : ℝ) (n : Nat), deemphStream ideal true α (1 - α) 0 (List.replicate n c) =
      (List.range n).map fun m : Nat => c * (1 - (1 - α) ^ (m + 1)))

/-! ## The rate converter and the sample path -/

/-- Derived from R146, R165 to R168, R170, R199: what a sample does, stage by stage, and that nothing else changes;
`SAMPLE` ends its batch and `SAMPLEC` does not. Each word pushed to `OUTQ` is R168's sum, product and difference of the
two dot products over `TAPS` and the delay line, both written out, at the phase and fraction of its position. -/
def Obligations.SampleRunsThreeStages : Prop :=
  (∀ (tap : Nat → Word) (h : List Word) (L p : Nat),
    fir b32 tap h L p = armSum tap h L p ∧ firn b32 tap h L p = nextSum tap h L p) ∧
  ∀ (s : State) (i q : Word), 0 ≤ s.rpos → 0 < s.rstep →
    ∃ (d : DemodResult Word) (e y : Word) (h : List Word) (t : State),
      d = demod b32 s.gain s.prevI s.prevQ s.prevValid i q ∧
      (s.deEn = false → e = d.out ∧ y = s.yprev) ∧
      (s.deEn = true → e = fadd (fmul s.alpha d.out) (fmul s.beta s.yprev) ∧ y = e) ∧
      h = (e :: s.hist).take s.L ∧
      t = { s with
            prevI := d.prevI
            prevQ := d.prevQ
            prevValid := d.prevValid
            yprev := y
            hist := h
            rpos := nextRpos s.rpos s.rstep
            outq := s.outq ++ (outputPositions s.rpos s.rstep).map fun pos =>
              positionWord s.readTap h s.L pos.floor.toNat (pos - pos.floor) } ∧
      exec (.sample i q) s = .next { t with inbatch := false } ∧
      exec (.samplec i q) s = .next { t with inbatch := true }

/-- Derived from R47 (I3), log 12: a sample stops exactly where the scheduler's loop has no meaning. -/
def Obligations.SampleFaultsOnlyWithoutScheduler : Prop :=
  ∀ (s : State) (i q : Word),
    (exec (.sample i q) s = .fault .schedulerInvalid ↔ s.rpos < 0 ∨ s.rstep ≤ 0) ∧
    (exec (.samplec i q) s = .fault .schedulerInvalid ↔ s.rpos < 0 ∨ s.rstep ≤ 0)

/-- R234: in a state that keeps the invariants a `STEP_SAMPLE` answers a next state; it writes neither `ERRV` nor the
error log, pushes nothing to `RSPQ`, leaves `FSM`, and takes exactly the head sample. -/
def Obligations.SamplePathRaisesNothing : Prop :=
  ∀ (s : State) (w : SmpWord) (t : State), Inv s → s.fetch = .sample w t →
    ∃ u, step s = .next u ∧ u.errv = s.errv ∧ u.errcode = s.errcode ∧ u.errcmdh = s.errcmdh ∧
      u.errcmdl = s.errcmdl ∧ u.rspq = s.rspq ∧ u.fsm = s.fsm ∧ s.inq = w :: u.inq

/-- Derived from R165, R168 under `IDEAL`: an output is `(1 − mu)·A + mu·B`, and under `TapsArmDC` and `TapsEdgeZero` a
constant delay line gives that constant at every position. -/
def Obligations.IdealInterpolationKeepsConstants : Prop :=
  ∀ (tap : Nat → ℝ) (L : Nat), 1 ≤ L →
    (∀ (hist : List ℝ) (p : Nat) (mu : Rat),
      interp ideal tap hist L p mu =
        (1 - (mu : ℝ)) * fir ideal tap hist L p + (mu : ℝ) * firn ideal tap hist L p) ∧
    ((∀ p, p < 32 → (∑ k ∈ Finset.range L, tap (p + 32 * k)) = 1) → tap 0 = 0 →
      ∀ (c : ℝ) (pos : Rat), 0 ≤ pos → pos < 32 →
        outputAt ideal tap (List.replicate L c) L pos = c)

/-- Derived from R174: at ratio 1 every sample gives exactly one output, arm 0's, and the position stays 0. -/
def Obligations.RatioOneGivesOneOutputPerSample : Prop :=
  ∀ (s : State) (i q : Word), Inv s → s.fsm = .run → s.arate = s.qrate → s.rpos = 0 →
    ∃ t, exec (.sample i q) s = .next t ∧ t.rpos = 0 ∧
      t.outq = s.outq ++ [fir b32 s.readTap t.hist s.L 0]

/-- Derived from R174: with arm 0 a unit impulse at `k0`, its output is the sample `k0` places back, bit for bit except
that a zero comes out as `+0`. -/
def Obligations.ImpulseArmCopiesSample : Prop :=
  ∀ (tap : Nat → Word) (hist : List Word) (L k0 : Nat), hist.length = L → k0 < L →
    (∀ x ∈ hist, isfinite x = true) →
    (∀ k, k < L → tap (32 * k) = if k = k0 then 0x3F800000 else 0x00000000) →
    fir b32 tap hist L 0 = if iszero (hist.getD k0 0) = true then 0 else hist.getD k0 0

/-- Derived from R170, R172: from a position in `[0, RSTEP)` the step outputs at the positions `RPOS + k·RSTEP` below 32
and at no other; their number is `floor(R)` or `ceil(R)` for `R = 32/RSTEP`, and `RPOS` stays in `[0, RSTEP)`. -/
def Obligations.OutputsPerInput : Prop :=
  ∀ rpos rstep : Rat, 0 ≤ rpos → rpos < rstep →
    ∃ n : Nat, outputPositions rpos rstep = (List.range n).map (fun k : Nat => rpos + (k : Rat) * rstep) ∧
      (∀ k : Nat, k < n ↔ rpos + (k : Rat) * rstep < 32) ∧
      ((n : Int) = ⌊32 / rstep⌋ ∨ (n : Int) = ⌈32 / rstep⌉) ∧
      nextRpos rpos rstep = rpos + n * rstep - 32 ∧
      0 ≤ nextRpos rpos rstep ∧ nextRpos rpos rstep < rstep

/-- R171: the output count law. After `n` samples since an accepted `BUILD`, whatever other commands but `TEARDN` stand
between them, exactly `ceil(n·R)` words have been pushed to `OUTQ`; and the outputs of input `n` are the numbers `k` from
`ceil(n·R)` on with `T_k = k·RSTEP` in its 32 phase units, at `T_k − 32·n`. -/
def Obligations.OutputCountLaw : Prop :=
  ∀ (s t : State) (is : List Instr), s.fsm = .unbuilt → exec .build s = .next t → t.fsm = .run →
    (∀ i ∈ is, i ≠ .teardn) →
    (∃ u, runInstrs is t = .next u ∧
      (u.outq.length : Int) = s.outq.length +
        ⌈((is.filter fun i => !i.isCommand).length : Rat) * (val s.arate / val s.qrate)⌉) ∧
    (∀ n : Nat,
      outputPositions (rposAfter t.rstep n 0) t.rstep =
        (List.range' ⌈(n : Rat) * (val s.arate / val s.qrate)⌉.toNat
          (⌈((n + 1 : Nat) : Rat) * (val s.arate / val s.qrate)⌉.toNat
            - ⌈(n : Rat) * (val s.arate / val s.qrate)⌉.toNat)).map
          fun k : Nat => (k : Rat) * t.rstep - 32 * n)

/-! ## Arithmetic of profile `B32` -/

/-- Derived from R14, R15: `ofrat` rounds to nearest, ties to even; it overflows exactly from half a unit past the
largest finite magnitude, to the infinity with the sign of the number. -/
def Obligations.RoundingIsToNearestEven : Prop :=
  ∀ q : Rat,
    (isfinite (ofrat q) = true ↔ |q| < (2 ^ 25 - 1) * 2 ^ 103) ∧
    (isfinite (ofrat q) = false → ofrat q = if q < 0 then 0xFF800000 else 0x7F800000) ∧
    (isfinite (ofrat q) = true → ∀ w : Word, isfinite w = true →
      |val (ofrat q) - q| ≤ |val w - q| ∧
      (|val w - q| = |val (ofrat q) - q| → val w = val (ofrat q) ∨ fmag (ofrat q) % 2 = 0))

/-- Derived from R14, R15: rounding a finite pattern's own value gives the pattern back (a zero as `+0`). -/
def Obligations.RoundingKeepsRepresentables : Prop :=
  ∀ w : Word, isfinite w = true → ofrat (val w) = if iszero w = true then 0 else w

/-- Derived from R14, R15: on finite operands with a result that is not zero, each operation is the exact rational
result rounded once. -/
def Obligations.OperationsRoundOnce : Prop :=
  ∀ a b : Word, isfinite a = true → isfinite b = true →
    (val a + val b ≠ 0 → fadd a b = ofrat (val a + val b)) ∧
    (val a - val b ≠ 0 → fsub a b = ofrat (val a - val b)) ∧
    (val a * val b ≠ 0 → fmul a b = ofrat (val a * val b)) ∧
    (val b ≠ 0 → val a / val b ≠ 0 → fdiv a b = ofrat (val a / val b))

/-- Derived from R14: the comparisons of finite patterns are those of their values, and a NaN compares false. -/
def Obligations.ComparisonIsNumericOrder : Prop :=
  ∀ a b : Word,
    (isfinite a = true → isfinite b = true →
      (flt a b = true ↔ val a < val b) ∧ (fgt0 a = true ↔ 0 < val a) ∧ (iszero a = true ↔ val a = 0)) ∧
    (isnan a = true ∨ isnan b = true → flt a b = false) ∧ (isnan a = true → fgt0 a = false)

/-! ## Whole-machine rules -/

/-- Derived from R251 (`L` taps per phase; the draw of an unwritten cell is the free value of log 3): what the registers
read after hardware reset. -/
def Obligations.ResetRegistersRead : Prop :=
  ∀ L : Nat, (∀ a, a ≤ 0x12 → (State.launch L).csrRead? a = some
      (if a = 0x00 then 0x464D5144 else if a = 0x0C then 0x00000020
       else if a = 0x0F then BitVec.ofNat 32 L else 0)) ∧
    (State.launch L).fsm = .unbuilt ∧ (State.launch L).inbatch = false ∧
    (State.launch L).hist = List.replicate L 0 ∧ (State.launch L).rpos = 0 ∧ (State.launch L).rstep = 0 ∧
    ∀ j, (State.launch L).readTap j = Config.tapsDraw 0 j

/-- Derived from R45, R250: hardware reset in any state gives every element its value after hardware reset, the error log
included, and leaves the queues as the hosts left them. That the model's own `arbCount` goes on and `tapsEpoch` is
counted up, so that the unwritten cells of `TAPS` are drawn anew, is the model's choice (log 19, log 3). -/
def Obligations.HardwareResetKeepsOnlyQueues : Prop :=
  ∀ s : State, s.hardwareReset =
    { State.launch s.L with
      cmdq := s.cmdq, rspq := s.rspq, inq := s.inq, outq := s.outq,
      arbCount := s.arbCount, tapsEpoch := s.tapsEpoch + 1 } ∧
    (∀ a, s.hardwareReset.csrRead? a = (State.launch s.L).csrRead? a) ∧
    ∀ j, s.hardwareReset.readTap j = Config.tapsDraw (s.tapsEpoch + 1) j

/-- Derived from R47, R251, at the start of every run (`State.reset` has the `L` of log 2): the invariants hold at
launch for every legal `L`, and at reset. -/
def Obligations.InvariantsHoldAtLaunch : Prop :=
  (∀ L : Nat, 1 ≤ L → L ≤ 2 ^ 19 → Inv (State.launch L)) ∧ Inv State.reset

/-- Derived from R47: every step of the block, from any state that has them, keeps the invariants I1 to I5, with the
sizes and the canonical form of the memories. -/
def Obligations.InvariantsKeptByEveryStep : Prop :=
  ∀ s t : State, Inv s → step s = .next t → Inv t

/-- Derived from R6, R47, R250: every move of the environment keeps the invariants. -/
def Obligations.InvariantsKeptByHostMoves : Prop :=
  ∀ (s : State) (m : HostMove CmdWord SmpWord), Inv s → Inv (s.hostMove m)

/-- Derived from R47: from every state that keeps the invariants the next step answers a next state that keeps them; so
the invariants hold in every reachable state and none stops. That a step answers where none is enabled is the model's
choice of log 7; that a sample's step answers rests on I3, without which it is the fault of log 12. -/
def Obligations.ReachableStatesNeverStop : Prop :=
  (∀ s : State, Inv s → ∃ t, step s = .next t ∧ Inv t) ∧
  ∀ s : State, Reachable s → Inv s ∧ s.safe

/-- R202: while `FSM = RUN` a command other than `SETDEV`, `SETTAU` and `TEARDN` changes nothing but the error log and
`RSPQ`; the two setters change no rate, no tap and nothing of the demodulator and of the rate converter. -/
def Obligations.MutableSurfaceInRun : Prop :=
  ∀ (i : Instr) (s t : State), i.isCommand = true → s.fsm = .run → exec i s = .next t →
    ((∀ d, i ≠ .setdev d) → (∀ d, i ≠ .settau d) → i ≠ .teardn →
      t = { s with
        errv := t.errv, errcode := t.errcode, errcmdh := t.errcmdh, errcmdl := t.errcmdl, rspq := t.rspq }) ∧
    (i ≠ .teardn →
      t.fsm = .run ∧ t.qrate = s.qrate ∧ t.arate = s.arate ∧ t.taps = s.taps ∧ t.hist = s.hist ∧
      t.rpos = s.rpos ∧ t.rstep = s.rstep ∧ t.prevI = s.prevI ∧ t.prevQ = s.prevQ ∧
      t.prevValid = s.prevValid ∧ t.inbatch = s.inbatch)

/-- Derived from R42, R76: the only step that changes the content of `TAPS` is an `LDTAP` while `UNBUILT`; the parameter
`L` and the draw of the unwritten cells change in none. -/
def Obligations.TapsChangeOnlyByLdtap : Prop :=
  ∀ s t : State, step s = .next t →
    t.L = s.L ∧ t.tapsEpoch = s.tapsEpoch ∧
    (t.taps ≠ s.taps → s.fsm = .unbuilt ∧
      ∃ (w : CmdWord) (u : State) (j : Nat) (d : Word), s.fetch = .command w u ∧
        decodeCommand w = .ok (.ldtap j d) ∧ j < 32 * s.L ∧ t.readTap j = d ∧
        ∀ k, k ≠ j → t.readTap k = s.readTap k)

/-- Derived from R252: the output count, the responses and every register do not depend on `TAPS`: two states that agree
but for `TAPS` and output values step alike. -/
def Obligations.RegistersDoNotDependOnTaps : Prop :=
  ∀ s s' t : State, EqualButTaps s s' → step s = .next t →
    ∃ t', step s' = .next t' ∧ EqualButTaps t t'
end

