-- ==== Sys2Proof/Laws/Decode.lean ====
section
/-! SUPPORT. The fields of a packed word, and the decoder by opcode (R90, R92, R104). -/

namespace Sys2Proof

@[simp] theorem opField_packCommand (op : BitVec 8) (a : BitVec 24) (d : Word) :
    opField (packCommand op a d) = op := by
  apply BitVec.eq_of_getLsbD_eq
  intro k hk
  have h1 : ¬56 + k < 32 := by omega
  have h2 : ¬56 + k - 32 < 24 := by omega
  have h3 : 56 + k - 32 - 24 = k := by omega
  simp only [opField, packCommand, BitVec.getLsbD_extractLsb', BitVec.getLsbD_append, hk,
    decide_true, Bool.true_and, if_neg h1, if_neg h2, h3]

@[simp] theorem aField_packCommand (op : BitVec 8) (a : BitVec 24) (d : Word) :
    aField (packCommand op a d) = a := by
  apply BitVec.eq_of_getLsbD_eq
  intro k hk
  have h1 : ¬32 + k < 32 := by omega
  have h2 : 32 + k - 32 < 24 := by omega
  have h3 : 32 + k - 32 = k := by omega
  simp only [aField, packCommand, BitVec.getLsbD_extractLsb', BitVec.getLsbD_append, hk,
    decide_true, Bool.true_and, if_neg h1, h3, if_true]

@[simp] theorem dField_packCommand (op : BitVec 8) (a : BitVec 24) (d : Word) :
    dField (packCommand op a d) = d := by
  apply BitVec.eq_of_getLsbD_eq
  intro k hk
  have h1 : 0 + k < 32 := by omega
  have h3 : 0 + k = k := by omega
  simp only [dField, packCommand, BitVec.getLsbD_extractLsb', BitVec.getLsbD_append, hk,
    decide_true, Bool.true_and, h3, if_true]

/-- A command word is its three fields. -/
theorem packCommand_fields (w : CmdWord) : packCommand (opField w) (aField w) (dField w) = w := by
  apply BitVec.eq_of_getLsbD_eq
  intro k hk
  simp only [opField, aField, dField, packCommand, BitVec.getLsbD_extractLsb', BitVec.getLsbD_append]
  by_cases h1 : k < 32
  · simp [h1]
  · by_cases h2 : k - 32 < 24
    · have : 32 + (k - 32) = k := by omega
      simp [h1, h2, this]
    · have h3 : k - 32 - 24 < 8 := by omega
      have h4 : 56 + (k - 32 - 24) = k := by omega
      simp [h1, h2, h3, h4]

@[simp] theorem lastField_packSample (last : Bool) (q i : Word) :
    lastField (packSample last q i) = last := by
  simp only [lastField, packSample, BitVec.getLsbD_append, BitVec.getLsbD_ofBool]
  simp

@[simp] theorem qField_packSample (last : Bool) (q i : Word) : qField (packSample last q i) = q := by
  apply BitVec.eq_of_getLsbD_eq
  intro k hk
  have h1 : ¬32 + k < 32 := by omega
  have h2 : 32 + k - 32 < 32 := by omega
  have h3 : 32 + k - 32 = k := by omega
  simp only [qField, packSample, BitVec.getLsbD_extractLsb', BitVec.getLsbD_append, hk,
    decide_true, Bool.true_and, if_neg h1, h3, if_true]

@[simp] theorem iField_packSample (last : Bool) (q i : Word) : iField (packSample last q i) = i := by
  apply BitVec.eq_of_getLsbD_eq
  intro k hk
  have h1 : 0 + k < 32 := by omega
  have h3 : 0 + k = k := by omega
  simp only [iField, packSample, BitVec.getLsbD_extractLsb', BitVec.getLsbD_append, hk,
    decide_true, Bool.true_and, h3, if_true]

/-- A sample word is its three fields. -/
theorem packSample_fields (s : SmpWord) : packSample (lastField s) (qField s) (iField s) = s := by
  apply BitVec.eq_of_getLsbD_eq
  intro k hk
  simp only [lastField, qField, iField, packSample, BitVec.getLsbD_extractLsb', BitVec.getLsbD_append,
    BitVec.getLsbD_ofBool]
  by_cases h1 : k < 32
  · simp [h1]
  · by_cases h2 : k - 32 < 32
    · have : 32 + (k - 32) = k := by omega
      simp [h1, h2, this]
    · have : k = 64 := by omega
      subst this
      simp

/-- What the decoder by fields answers for a command that matches a row: which opcode it has and what the format asks. -/
theorem decodeFields_cases {Num β : Type} (m : Operations Num β) (c : Command Num) (dZero : Bool) (x : β)
    (h : decodeFields m c dZero = .ok x) :
    (c.op = 0x01 ∧ c.a = 0 ∧ x = m.ldqr c.d) ∨
    (c.op = 0x02 ∧ c.a = 0 ∧ x = m.ldar c.d) ∨
    (c.op = 0x03 ∧ c.a = 0 ∧ x = m.lddv c.d) ∨
    (c.op = 0x04 ∧ c.a = 0 ∧ x = m.ldtc c.d) ∨
    (c.op = 0x05 ∧ x = m.ldtap c.a.toNat c.d) ∨
    (c.op = 0x06 ∧ c.a = 0 ∧ dZero = true ∧ x = m.build) ∨
    (c.op = 0x07 ∧ c.a = 0 ∧ dZero = true ∧ x = m.teardn) ∨
    (c.op = 0x08 ∧ dZero = true ∧ x = m.rdreg c.a.toNat) ∨
    (c.op = 0x10 ∧ c.a = 0 ∧ x = m.setdev c.d) ∨
    (c.op = 0x11 ∧ c.a = 0 ∧ x = m.settau c.d) := by
  have op (n : Nat) (hn : n < 256) (e : c.op.toNat = n) : c.op = BitVec.ofNat 8 n :=
    BitVec.eq_of_toNat_eq (by simp [e]; omega)
  unfold decodeFields formatCD formatC0 formatCA formatCAD at h
  split at h <;> try split at h
  all_goals first
    | (cases h; done)
    | (rename_i e hz; cases h; have := op _ (by decide) e; simp_all)
    | (rename_i e; cases h; have := op _ (by decide) e; simp_all)

/-- Two answers of a decoder that agree up to `R`: both the same error, or two operations in the relation. -/
def DecodesAlike {β γ : Type} (R : β → γ → Prop) : Except DecodeError β → Except DecodeError γ → Prop
  | .ok x, .ok y => R x y
  | .error e, .error e' => e = e'
  | _, _ => False

/-- The decoder by fields treats what the opcodes stand for alike: related operations give related answers. -/
theorem decodeFields_alike {Num β γ : Type} (R : β → γ → Prop) (m : Operations Num β) (n : Operations Num γ)
    (hd : ∀ d, R (m.ldqr d) (n.ldqr d) ∧ R (m.ldar d) (n.ldar d) ∧ R (m.lddv d) (n.lddv d) ∧
      R (m.ldtc d) (n.ldtc d) ∧ R (m.setdev d) (n.setdev d) ∧ R (m.settau d) (n.settau d))
    (ha : ∀ a, R (m.rdreg a) (n.rdreg a) ∧ ∀ d, R (m.ldtap a d) (n.ldtap a d))
    (hb : R m.build n.build) (ht : R m.teardn n.teardn) (c : Command Num) (dZero : Bool) :
    DecodesAlike R (decodeFields m c dZero) (decodeFields n c dZero) := by
  have h := hd c.d
  have h' := ha c.a.toNat
  unfold decodeFields formatCD formatC0 formatCA formatCAD
  split <;> (try split) <;> simp_all [DecodesAlike]

/-- What the decoder answers for a word that is some operation: which opcode it has and what the format asks. -/
theorem decodeCommand_cases (w : CmdWord) (i : Instr) (h : decodeCommand w = .ok i) :
    (opField w = 0x01 ∧ aField w = 0 ∧ i = .ldqr (dField w)) ∨
    (opField w = 0x02 ∧ aField w = 0 ∧ i = .ldar (dField w)) ∨
    (opField w = 0x03 ∧ aField w = 0 ∧ i = .lddv (dField w)) ∨
    (opField w = 0x04 ∧ aField w = 0 ∧ i = .ldtc (dField w)) ∨
    (opField w = 0x05 ∧ i = .ldtap (aField w).toNat (dField w)) ∨
    (opField w = 0x06 ∧ aField w = 0 ∧ dField w = 0 ∧ i = .build) ∨
    (opField w = 0x07 ∧ aField w = 0 ∧ dField w = 0 ∧ i = .teardn) ∨
    (opField w = 0x08 ∧ dField w = 0 ∧ i = .rdreg (aField w).toNat) ∨
    (opField w = 0x10 ∧ aField w = 0 ∧ i = .setdev (dField w)) ∨
    (opField w = 0x11 ∧ aField w = 0 ∧ i = .settau (dField w)) := by
  simpa only [decide_eq_true_eq, commandFields, instructions] using decodeFields_cases _ _ _ _ h

/-- Every operation the decoder answers is a command. -/
theorem decodeCommand_isCommand (w : CmdWord) (i : Instr) (h : decodeCommand w = .ok i) :
    i.isCommand = true := by
  rcases decodeCommand_cases w i h with h | h | h | h | h | h | h | h | h | h <;>
    simp [h, Instr.isCommand]

/-- What a sample word decodes to. -/
theorem decodeSample_cases (s : SmpWord) :
    (lastField s = true ∧ decodeSample s = .sample (iField s) (qField s)) ∨
    (lastField s = false ∧ decodeSample s = .samplec (iField s) (qField s)) := by
  cases h : lastField s <;> simp [decodeSample, h]

end Sys2Proof
end

