-- ==== Sys2Proof/Laws/Float.lean ====
section
/-! SUPPORT. The small lemmas of profile `B32` (R14, R15): the parts of a pattern, the classes of patterns, and that a
rounded magnitude is no NaN. -/

namespace Sys2Proof.Machine

/-! ## Parts of a pattern -/

@[simp] theorem fsign_withSign (s : Bool) (m : Nat) : fsign (withSign s m) = s := by
  simp only [fsign, withSign, BitVec.getLsbD_append, BitVec.getLsbD_ofBool]
  simp

@[simp] theorem fmag_withSign (s : Bool) (m : Nat) : fmag (withSign s m) = m % 2 ^ 31 := by
  have h : (withSign s m).extractLsb' 0 31 = BitVec.ofNat 31 m := by
    unfold withSign
    exact BitVec.extractLsb'_append_eq_right
  simp [fmag, h]

/-- A pattern is its sign and its magnitude. -/
@[simp] theorem withSign_fsign_fmag (a : Word) : withSign (fsign a) (fmag a) = a := by
  apply BitVec.eq_of_getLsbD_eq
  intro k hk
  simp only [withSign, fmag, fsign, BitVec.ofNat_toNat, BitVec.setWidth_eq, BitVec.getLsbD_append,
    BitVec.getLsbD_extractLsb', BitVec.getLsbD_ofBool]
  by_cases h : k < 31
  · simp [h]
  · have : k = 31 := by omega
    subst this
    simp

theorem fmag_lt (a : Word) : fmag a < 2 ^ 31 := (a.extractLsb' 0 31).isLt

/-- Two patterns with the same sign and the same magnitude are one. -/
theorem word_ext_sign_mag (a b : Word) (hs : fsign a = fsign b) (hm : fmag a = fmag b) : a = b := by
  rw [← withSign_fsign_fmag a, hs, hm, withSign_fsign_fmag]

@[simp] theorem fsign_fneg (a : Word) : fsign (fneg a) = !fsign a := by simp [fneg]

@[simp] theorem fmag_fneg (a : Word) : fmag (fneg a) = fmag a := by
  rw [fneg, fmag_withSign, Nat.mod_eq_of_lt (fmag_lt a)]

/-! ## Classes of patterns -/

theorem isfinite_iff (a : Word) : isfinite a = true ↔ fmag a < infMag := by simp [isfinite]

theorem isinf_iff (a : Word) : isinf a = true ↔ fmag a = infMag := by simp [isinf]

theorem isnan_iff (a : Word) : isnan a = true ↔ infMag < fmag a := by simp [isnan]

theorem iszero_iff (a : Word) : iszero a = true ↔ fmag a = 0 := by simp [iszero]

/-- Every pattern is finite, an infinity or a NaN. -/
theorem finite_or_inf_or_nan (a : Word) : isfinite a = true ∨ isinf a = true ∨ isnan a = true := by
  rw [isfinite_iff, isinf_iff, isnan_iff]
  omega

theorem not_isnan_of_isfinite (a : Word) (h : isfinite a = true) : isnan a = false := by
  simp only [isfinite, isnan, decide_eq_true_eq, decide_eq_false_iff_not] at *
  omega

theorem not_isinf_of_isfinite (a : Word) (h : isfinite a = true) : isinf a = false := by
  simp only [isfinite, isinf, decide_eq_true_eq, decide_eq_false_iff_not] at *
  omega

/-- `fgt0` by the parts of the pattern: not a NaN, sign clear, magnitude not zero. -/
theorem fgt0_iff (a : Word) : fgt0 a = true ↔ fmag a ≤ infMag ∧ fsign a = false ∧ fmag a ≠ 0 := by
  cases h : fsign a <;> simp [fgt0, isnan, orderKey, h]; omega

/-! ## Rounding -/

/-- A rounded magnitude is at most the infinity. -/
theorem roundMag_le (q : Rat) : roundMag q ≤ infMag := Nat.min_le_right _ _

theorem roundMag_lt (q : Rat) : roundMag q < 2 ^ 31 :=
  lt_of_le_of_lt (roundMag_le q) (by decide)

@[simp] theorem fmag_withSign_roundMag (s : Bool) (q : Rat) :
    fmag (withSign s (roundMag q)) = roundMag q := by
  rw [fmag_withSign, Nat.mod_eq_of_lt (roundMag_lt q)]

@[simp] theorem fmag_ofrat (q : Rat) : fmag (ofrat q) = roundMag q := by
  rw [ofrat, fmag_withSign_roundMag]

@[simp] theorem fsign_ofrat (q : Rat) : fsign (ofrat q) = decide (q < 0) := by
  rw [ofrat, fsign_withSign]

/-- A narrowed rational is never a NaN. -/
theorem not_isnan_ofrat (q : Rat) : isnan (ofrat q) = false := by
  simpa [isnan] using roundMag_le q

/-- The integer quotient rounded to nearest is one of the two neighbours. -/
theorem rneDiv_cases (n d : Nat) : rneDiv n d = n / d ∨ rneDiv n d = n / d + 1 := by
  unfold rneDiv
  have := Nat.mod_two_eq_zero_or_one (n / d)
  split_ifs <;> omega

/-- A NaN that an operation produces is a NaN, whatever the draw (U6). -/
theorem isnan_nanOf (draw : BitVec 24) : isnan (nanOf draw) = true := by
  have hb : (draw.extractLsb' 0 23).toNat < 2 ^ 23 := (draw.extractLsb' 0 23).isLt
  rw [isnan_iff, nanOf, fmag_withSign]
  unfold infMag
  split_ifs with h
  · decide
  · have h0 : (draw.extractLsb' 0 23).toNat ≠ 0 := fun e => h (BitVec.eq_of_toNat_eq (by simpa using e))
    rw [Nat.mod_eq_of_lt (by omega)]
    omega

/-! ## Values -/

theorem magVal_nonneg (a : Word) : 0 ≤ magVal a := by
  rw [magVal, Rat.mkRat_eq_div]
  positivity

theorem val_of_sign_false (a : Word) (h : fsign a = false) : val a = magVal a := by simp [val, h]

theorem val_of_sign_true (a : Word) (h : fsign a = true) : val a = -magVal a := by simp [val, h]

/-! ## The operations on finite operands -/

theorem fadd_finite (a b : Word) (ha : isfinite a = true) (hb : isfinite b = true) :
    fadd a b = if val a + val b = 0 then withSign (fsign a && fsign b) 0 else ofrat (val a + val b) := by
  simp [fadd, sumOr, not_isnan_of_isfinite, not_isinf_of_isfinite, ha, hb]

theorem fmul_finite (a b : Word) (ha : isfinite a = true) (hb : isfinite b = true) :
    fmul a b = withSign (fsign a != fsign b) (roundMag (magVal a * magVal b)) := by
  simp [fmul, not_isnan_of_isfinite, not_isinf_of_isfinite, ha, hb]

theorem fdiv_finite (a b : Word) (ha : isfinite a = true) (hb : isfinite b = true)
    (h0 : iszero b = false) :
    fdiv a b = withSign (fsign a != fsign b) (roundMag (magVal a / magVal b)) := by
  simp [fdiv, not_isnan_of_isfinite, not_isinf_of_isfinite, ha, hb, h0]

/-! ## The record `b32` -/

@[simp] theorem b32_zero : b32.zero = NUM_ZERO := rfl
@[simp] theorem b32_one : b32.one = NUM_ONE := rfl
@[simp] theorem b32_half : b32.half = NUM_HALF := rfl
@[simp] theorem b32_tenth : b32.tenth = NUM_TENTH := rfl
@[simp] theorem b32_pi : b32.pi = NUM_PI := rfl
@[simp] theorem b32_twoPi : b32.twoPi = NUM_TWO_PI := rfl
@[simp] theorem b32_add : b32.add = fadd := rfl
@[simp] theorem b32_sub : b32.sub = fsub := rfl
@[simp] theorem b32_mul : b32.mul = fmul := rfl
@[simp] theorem b32_div : b32.div = fdiv := rfl
@[simp] theorem b32_atan2 : b32.atan2 = fatan2 := rfl
@[simp] theorem b32_lt : b32.lt = flt := rfl
@[simp] theorem b32_gt0 : b32.gt0 = fgt0 := rfl
@[simp] theorem b32_isZero : b32.isZero = iszero := rfl
@[simp] theorem b32_isFinite : b32.isFinite = isfinite := rfl
@[simp] theorem b32_val : b32.val = val := rfl
@[simp] theorem b32_ofRat : b32.ofRat = ofrat := rfl

end Sys2Proof.Machine
end

