-- ==== Sys2Proof/Laws/Launch.lean ====
section
/-! SUPPORT. What each event of a run can do, and what it does to the run's output (R200). -/

namespace Sys2Proof.Machine

variable {Num Cmd Rsp Smp : Type} (P : Profile Num Cmd Rsp Smp)

@[simp] theorem Launch.start_output (l : Launch Cmd Smp) : (l.start P).output = ⟨[], []⟩ := rfl

@[simp] theorem Launch.start_state (l : Launch Cmd Smp) : (l.start P).state = StateOf.launch P.num.zero l.L := rfl

variable (r r' : Running Num Cmd Rsp Smp)

/-- All that an event can do: a host pushes the next of its words or takes the oldest of a queue's, or the block takes
an enabled step. -/
theorem Running.event_cases (e : Event) (h : r.event P e = some r') :
    (∃ w ws, e = .pushCommand ∧ r.commands = w :: ws ∧
      r' = { r with state := r.state.pushCommand w, commands := ws }) ∨
    (∃ x xs, e = .pushSample ∧ r.samples = x :: xs ∧
      r' = { r with state := r.state.pushSample x, samples := xs }) ∨
    (∃ x xs, e = .popResponse ∧ r.state.rspq = x :: xs ∧
      r' = { r with state := { r.state with rspq := xs }, takenResponses := r.takenResponses ++ [x] }) ∨
    (∃ x xs, e = .popOutput ∧ r.state.outq = x :: xs ∧
      r' = { r with state := { r.state with outq := xs }, takenOutputs := r.takenOutputs ++ [x] }) ∨
    (∃ t, e = .block ∧ r.state.enabled = true ∧ r.state.step P = .next t ∧ r' = { r with state := t }) := by
  cases e with
  | pushCommand =>
    simp only [Running.event] at h
    split at h <;> cases h
    exact Or.inl ⟨_, _, rfl, ‹_›, rfl⟩
  | pushSample =>
    simp only [Running.event] at h
    split at h <;> cases h
    exact Or.inr (Or.inl ⟨_, _, rfl, ‹_›, rfl⟩)
  | popResponse =>
    simp only [Running.event] at h
    split at h <;> cases h
    rename_i x xs hq
    exact Or.inr (Or.inr (Or.inl ⟨x, xs, rfl, hq, by simp [StateOf.popResponse, hq]⟩))
  | popOutput =>
    simp only [Running.event] at h
    split at h <;> cases h
    rename_i x xs hq
    exact Or.inr (Or.inr (Or.inr (Or.inl ⟨x, xs, rfl, hq, by simp [StateOf.popOutput, hq]⟩)))
  | block =>
    simp only [Running.event] at h
    split at h
    · split at h <;> cases h
      exact Or.inr (Or.inr (Or.inr (Or.inr ⟨_, rfl, ‹_›, ‹_›, rfl⟩)))
    · cases h

/-- A host's move leaves the run's output: a word that a host takes is still in it, at its place. -/
theorem Running.event_output_of_host (e : Event) (he : e ≠ .block) (h : r.event P e = some r') :
    r'.output = r.output := by
  rcases r.event_cases P r' e h with ⟨w, ws, -, -, rfl⟩ | ⟨x, xs, -, -, rfl⟩ | ⟨x, xs, -, hq, rfl⟩ |
    ⟨x, xs, -, hq, rfl⟩ | ⟨t, he', -⟩
  · rfl
  · rfl
  · simp [Running.output, hq]
  · simp [Running.output, hq]
  · exact absurd he' he

/-- A step of the block adds to the run's output what it adds to the two queues. -/
theorem Running.event_output_of_block (h : r.event P .block = some r') :
    ∃ t, r.state.step P = .next t ∧
      r'.output = ⟨r.takenResponses ++ t.rspq, r.takenOutputs ++ t.outq⟩ := by
  rcases r.event_cases P r' .block h with ⟨w, ws, e, -⟩ | ⟨x, xs, e, -⟩ | ⟨x, xs, e, -⟩ | ⟨x, xs, e, -⟩ |
    ⟨t, -, -, hs, rfl⟩
  · cases e
  · cases e
  · cases e
  · cases e
  · exact ⟨t, hs, rfl⟩

/-- A final state is that of a finished run, and its output is the run's. -/
theorem Launch.final?_cases (l : Launch Cmd Smp) (es : List Event) (s : StateOf Num Cmd Rsp Smp)
    (o : RunOutput Num Rsp) (h : l.final? P es = some (s, o)) :
    ∃ r, l.run P es = some r ∧ r.finished = true ∧ s = r.state ∧ o = r.output := by
  unfold Launch.final? at h
  cases hr : l.run P es with
  | none => simp [hr] at h
  | some r =>
    by_cases hf : r.finished = true
    · simp [hr, hf] at h
      exact ⟨r, rfl, hf, h.1.symm, h.2.symm⟩
    · simp [hr, hf] at h

end Sys2Proof.Machine
end

