-- ==== Sys2Proof/Laws/State.lean ====
section
/-! SUPPORT. What every update of the state does to every field, under any profile: one lemma per field per update, so
that no proof unfolds a record update; and the parts of the machine's own profile. -/

namespace Sys2Proof.Machine

section AnyProfile
variable {Num Cmd Rsp Smp : Type} (P : Profile Num Cmd Rsp Smp) (s : StateOf Num Cmd Rsp Smp)

/-! ## `respond` -/

@[simp] theorem StateOf.respond_fsm (data : Datum Num) : (s.respond P data).fsm = s.fsm := rfl
@[simp] theorem StateOf.respond_deEn (data : Datum Num) : (s.respond P data).deEn = s.deEn := rfl
@[simp] theorem StateOf.respond_prevValid (data : Datum Num) : (s.respond P data).prevValid = s.prevValid := rfl
@[simp] theorem StateOf.respond_inbatch (data : Datum Num) : (s.respond P data).inbatch = s.inbatch := rfl
@[simp] theorem StateOf.respond_errv (data : Datum Num) : (s.respond P data).errv = s.errv := rfl
@[simp] theorem StateOf.respond_qrate (data : Datum Num) : (s.respond P data).qrate = s.qrate := rfl
@[simp] theorem StateOf.respond_arate (data : Datum Num) : (s.respond P data).arate = s.arate := rfl
@[simp] theorem StateOf.respond_maxdev (data : Datum Num) : (s.respond P data).maxdev = s.maxdev := rfl
@[simp] theorem StateOf.respond_tau (data : Datum Num) : (s.respond P data).tau = s.tau := rfl
@[simp] theorem StateOf.respond_gain (data : Datum Num) : (s.respond P data).gain = s.gain := rfl
@[simp] theorem StateOf.respond_alpha (data : Datum Num) : (s.respond P data).alpha = s.alpha := rfl
@[simp] theorem StateOf.respond_beta (data : Datum Num) : (s.respond P data).beta = s.beta := rfl
@[simp] theorem StateOf.respond_prevI (data : Datum Num) : (s.respond P data).prevI = s.prevI := rfl
@[simp] theorem StateOf.respond_prevQ (data : Datum Num) : (s.respond P data).prevQ = s.prevQ := rfl
@[simp] theorem StateOf.respond_yprev (data : Datum Num) : (s.respond P data).yprev = s.yprev := rfl
@[simp] theorem StateOf.respond_errcode (data : Datum Num) : (s.respond P data).errcode = s.errcode := rfl
@[simp] theorem StateOf.respond_errcmdh (data : Datum Num) : (s.respond P data).errcmdh = s.errcmdh := rfl
@[simp] theorem StateOf.respond_errcmdl (data : Datum Num) : (s.respond P data).errcmdl = s.errcmdl := rfl
@[simp] theorem StateOf.respond_hist (data : Datum Num) : (s.respond P data).hist = s.hist := rfl
@[simp] theorem StateOf.respond_taps (data : Datum Num) : (s.respond P data).taps = s.taps := rfl
@[simp] theorem StateOf.respond_rpos (data : Datum Num) : (s.respond P data).rpos = s.rpos := rfl
@[simp] theorem StateOf.respond_rstep (data : Datum Num) : (s.respond P data).rstep = s.rstep := rfl
@[simp] theorem StateOf.respond_cmdq (data : Datum Num) : (s.respond P data).cmdq = s.cmdq := rfl
@[simp] theorem StateOf.respond_rspq (data : Datum Num) :
    (s.respond P data).rspq = s.rspq ++ [P.response ⟨0, data⟩] := rfl
@[simp] theorem StateOf.respond_inq (data : Datum Num) : (s.respond P data).inq = s.inq := rfl
@[simp] theorem StateOf.respond_outq (data : Datum Num) : (s.respond P data).outq = s.outq := rfl
@[simp] theorem StateOf.respond_L (data : Datum Num) : (s.respond P data).L = s.L := rfl
@[simp] theorem StateOf.respond_arbCount (data : Datum Num) : (s.respond P data).arbCount = s.arbCount := rfl
@[simp] theorem StateOf.respond_tapsEpoch (data : Datum Num) : (s.respond P data).tapsEpoch = s.tapsEpoch := rfl

/-! ## `accept` -/

@[simp] theorem StateOf.accept_fsm : (s.accept P).fsm = s.fsm := rfl
@[simp] theorem StateOf.accept_deEn : (s.accept P).deEn = s.deEn := rfl
@[simp] theorem StateOf.accept_prevValid : (s.accept P).prevValid = s.prevValid := rfl
@[simp] theorem StateOf.accept_inbatch : (s.accept P).inbatch = s.inbatch := rfl
@[simp] theorem StateOf.accept_errv : (s.accept P).errv = s.errv := rfl
@[simp] theorem StateOf.accept_qrate : (s.accept P).qrate = s.qrate := rfl
@[simp] theorem StateOf.accept_arate : (s.accept P).arate = s.arate := rfl
@[simp] theorem StateOf.accept_maxdev : (s.accept P).maxdev = s.maxdev := rfl
@[simp] theorem StateOf.accept_tau : (s.accept P).tau = s.tau := rfl
@[simp] theorem StateOf.accept_gain : (s.accept P).gain = s.gain := rfl
@[simp] theorem StateOf.accept_alpha : (s.accept P).alpha = s.alpha := rfl
@[simp] theorem StateOf.accept_beta : (s.accept P).beta = s.beta := rfl
@[simp] theorem StateOf.accept_prevI : (s.accept P).prevI = s.prevI := rfl
@[simp] theorem StateOf.accept_prevQ : (s.accept P).prevQ = s.prevQ := rfl
@[simp] theorem StateOf.accept_yprev : (s.accept P).yprev = s.yprev := rfl
@[simp] theorem StateOf.accept_errcode : (s.accept P).errcode = s.errcode := rfl
@[simp] theorem StateOf.accept_errcmdh : (s.accept P).errcmdh = s.errcmdh := rfl
@[simp] theorem StateOf.accept_errcmdl : (s.accept P).errcmdl = s.errcmdl := rfl
@[simp] theorem StateOf.accept_hist : (s.accept P).hist = s.hist := rfl
@[simp] theorem StateOf.accept_taps : (s.accept P).taps = s.taps := rfl
@[simp] theorem StateOf.accept_rpos : (s.accept P).rpos = s.rpos := rfl
@[simp] theorem StateOf.accept_rstep : (s.accept P).rstep = s.rstep := rfl
@[simp] theorem StateOf.accept_cmdq : (s.accept P).cmdq = s.cmdq := rfl
@[simp] theorem StateOf.accept_rspq : (s.accept P).rspq = s.rspq ++ [P.response ⟨0, .bits 0⟩] := rfl
@[simp] theorem StateOf.accept_inq : (s.accept P).inq = s.inq := rfl
@[simp] theorem StateOf.accept_outq : (s.accept P).outq = s.outq := rfl
@[simp] theorem StateOf.accept_L : (s.accept P).L = s.L := rfl
@[simp] theorem StateOf.accept_arbCount : (s.accept P).arbCount = s.arbCount := rfl
@[simp] theorem StateOf.accept_tapsEpoch : (s.accept P).tapsEpoch = s.tapsEpoch := rfl

/-! ## `reject` -/

@[simp] theorem StateOf.reject_fsm (c : Cause) (w : Cmd) : (s.reject P c w).fsm = s.fsm := rfl
@[simp] theorem StateOf.reject_deEn (c : Cause) (w : Cmd) : (s.reject P c w).deEn = s.deEn := rfl
@[simp] theorem StateOf.reject_prevValid (c : Cause) (w : Cmd) : (s.reject P c w).prevValid = s.prevValid := rfl
@[simp] theorem StateOf.reject_inbatch (c : Cause) (w : Cmd) : (s.reject P c w).inbatch = s.inbatch := rfl
@[simp] theorem StateOf.reject_errv (c : Cause) (w : Cmd) : (s.reject P c w).errv = true := rfl
@[simp] theorem StateOf.reject_qrate (c : Cause) (w : Cmd) : (s.reject P c w).qrate = s.qrate := rfl
@[simp] theorem StateOf.reject_arate (c : Cause) (w : Cmd) : (s.reject P c w).arate = s.arate := rfl
@[simp] theorem StateOf.reject_maxdev (c : Cause) (w : Cmd) : (s.reject P c w).maxdev = s.maxdev := rfl
@[simp] theorem StateOf.reject_tau (c : Cause) (w : Cmd) : (s.reject P c w).tau = s.tau := rfl
@[simp] theorem StateOf.reject_gain (c : Cause) (w : Cmd) : (s.reject P c w).gain = s.gain := rfl
@[simp] theorem StateOf.reject_alpha (c : Cause) (w : Cmd) : (s.reject P c w).alpha = s.alpha := rfl
@[simp] theorem StateOf.reject_beta (c : Cause) (w : Cmd) : (s.reject P c w).beta = s.beta := rfl
@[simp] theorem StateOf.reject_prevI (c : Cause) (w : Cmd) : (s.reject P c w).prevI = s.prevI := rfl
@[simp] theorem StateOf.reject_prevQ (c : Cause) (w : Cmd) : (s.reject P c w).prevQ = s.prevQ := rfl
@[simp] theorem StateOf.reject_yprev (c : Cause) (w : Cmd) : (s.reject P c w).yprev = s.yprev := rfl
@[simp] theorem StateOf.reject_errcode (c : Cause) (w : Cmd) : (s.reject P c w).errcode = c.code.setWidth 32 := rfl
@[simp] theorem StateOf.reject_errcmdh (c : Cause) (w : Cmd) : (s.reject P c w).errcmdh = P.high w := rfl
@[simp] theorem StateOf.reject_errcmdl (c : Cause) (w : Cmd) : (s.reject P c w).errcmdl = P.low w := rfl
@[simp] theorem StateOf.reject_hist (c : Cause) (w : Cmd) : (s.reject P c w).hist = s.hist := rfl
@[simp] theorem StateOf.reject_taps (c : Cause) (w : Cmd) : (s.reject P c w).taps = s.taps := rfl
@[simp] theorem StateOf.reject_rpos (c : Cause) (w : Cmd) : (s.reject P c w).rpos = s.rpos := rfl
@[simp] theorem StateOf.reject_rstep (c : Cause) (w : Cmd) : (s.reject P c w).rstep = s.rstep := rfl
@[simp] theorem StateOf.reject_cmdq (c : Cause) (w : Cmd) : (s.reject P c w).cmdq = s.cmdq := rfl
@[simp] theorem StateOf.reject_rspq (c : Cause) (w : Cmd) :
    (s.reject P c w).rspq = s.rspq ++ [P.response ⟨c.code, .bits 0⟩] := rfl
@[simp] theorem StateOf.reject_inq (c : Cause) (w : Cmd) : (s.reject P c w).inq = s.inq := rfl
@[simp] theorem StateOf.reject_outq (c : Cause) (w : Cmd) : (s.reject P c w).outq = s.outq := rfl
@[simp] theorem StateOf.reject_L (c : Cause) (w : Cmd) : (s.reject P c w).L = s.L := rfl
@[simp] theorem StateOf.reject_arbCount (c : Cause) (w : Cmd) : (s.reject P c w).arbCount = s.arbCount := rfl
@[simp] theorem StateOf.reject_tapsEpoch (c : Cause) (w : Cmd) : (s.reject P c w).tapsEpoch = s.tapsEpoch := rfl

/-! ## `writeTap` -/

@[simp] theorem StateOf.writeTap_fsm (j : Nat) (d : Num) : (s.writeTap j d).fsm = s.fsm := rfl
@[simp] theorem StateOf.writeTap_deEn (j : Nat) (d : Num) : (s.writeTap j d).deEn = s.deEn := rfl
@[simp] theorem StateOf.writeTap_prevValid (j : Nat) (d : Num) : (s.writeTap j d).prevValid = s.prevValid := rfl
@[simp] theorem StateOf.writeTap_inbatch (j : Nat) (d : Num) : (s.writeTap j d).inbatch = s.inbatch := rfl
@[simp] theorem StateOf.writeTap_errv (j : Nat) (d : Num) : (s.writeTap j d).errv = s.errv := rfl
@[simp] theorem StateOf.writeTap_qrate (j : Nat) (d : Num) : (s.writeTap j d).qrate = s.qrate := rfl
@[simp] theorem StateOf.writeTap_arate (j : Nat) (d : Num) : (s.writeTap j d).arate = s.arate := rfl
@[simp] theorem StateOf.writeTap_maxdev (j : Nat) (d : Num) : (s.writeTap j d).maxdev = s.maxdev := rfl
@[simp] theorem StateOf.writeTap_tau (j : Nat) (d : Num) : (s.writeTap j d).tau = s.tau := rfl
@[simp] theorem StateOf.writeTap_gain (j : Nat) (d : Num) : (s.writeTap j d).gain = s.gain := rfl
@[simp] theorem StateOf.writeTap_alpha (j : Nat) (d : Num) : (s.writeTap j d).alpha = s.alpha := rfl
@[simp] theorem StateOf.writeTap_beta (j : Nat) (d : Num) : (s.writeTap j d).beta = s.beta := rfl
@[simp] theorem StateOf.writeTap_prevI (j : Nat) (d : Num) : (s.writeTap j d).prevI = s.prevI := rfl
@[simp] theorem StateOf.writeTap_prevQ (j : Nat) (d : Num) : (s.writeTap j d).prevQ = s.prevQ := rfl
@[simp] theorem StateOf.writeTap_yprev (j : Nat) (d : Num) : (s.writeTap j d).yprev = s.yprev := rfl
@[simp] theorem StateOf.writeTap_errcode (j : Nat) (d : Num) : (s.writeTap j d).errcode = s.errcode := rfl
@[simp] theorem StateOf.writeTap_errcmdh (j : Nat) (d : Num) : (s.writeTap j d).errcmdh = s.errcmdh := rfl
@[simp] theorem StateOf.writeTap_errcmdl (j : Nat) (d : Num) : (s.writeTap j d).errcmdl = s.errcmdl := rfl
@[simp] theorem StateOf.writeTap_hist (j : Nat) (d : Num) : (s.writeTap j d).hist = s.hist := rfl
@[simp] theorem StateOf.writeTap_taps (j : Nat) (d : Num) : (s.writeTap j d).taps = Memory.write s.taps j d := rfl
@[simp] theorem StateOf.writeTap_rpos (j : Nat) (d : Num) : (s.writeTap j d).rpos = s.rpos := rfl
@[simp] theorem StateOf.writeTap_rstep (j : Nat) (d : Num) : (s.writeTap j d).rstep = s.rstep := rfl
@[simp] theorem StateOf.writeTap_cmdq (j : Nat) (d : Num) : (s.writeTap j d).cmdq = s.cmdq := rfl
@[simp] theorem StateOf.writeTap_rspq (j : Nat) (d : Num) : (s.writeTap j d).rspq = s.rspq := rfl
@[simp] theorem StateOf.writeTap_inq (j : Nat) (d : Num) : (s.writeTap j d).inq = s.inq := rfl
@[simp] theorem StateOf.writeTap_outq (j : Nat) (d : Num) : (s.writeTap j d).outq = s.outq := rfl
@[simp] theorem StateOf.writeTap_L (j : Nat) (d : Num) : (s.writeTap j d).L = s.L := rfl
@[simp] theorem StateOf.writeTap_arbCount (j : Nat) (d : Num) : (s.writeTap j d).arbCount = s.arbCount := rfl
@[simp] theorem StateOf.writeTap_tapsEpoch (j : Nat) (d : Num) : (s.writeTap j d).tapsEpoch = s.tapsEpoch := rfl

/-! ## `setQrate` -/

@[simp] theorem StateOf.setQrate_fsm (d : Num) : (s.setQrate d).fsm = s.fsm := rfl
@[simp] theorem StateOf.setQrate_deEn (d : Num) : (s.setQrate d).deEn = s.deEn := rfl
@[simp] theorem StateOf.setQrate_prevValid (d : Num) : (s.setQrate d).prevValid = s.prevValid := rfl
@[simp] theorem StateOf.setQrate_inbatch (d : Num) : (s.setQrate d).inbatch = s.inbatch := rfl
@[simp] theorem StateOf.setQrate_errv (d : Num) : (s.setQrate d).errv = s.errv := rfl
@[simp] theorem StateOf.setQrate_qrate (d : Num) : (s.setQrate d).qrate = d := rfl
@[simp] theorem StateOf.setQrate_arate (d : Num) : (s.setQrate d).arate = s.arate := rfl
@[simp] theorem StateOf.setQrate_maxdev (d : Num) : (s.setQrate d).maxdev = s.maxdev := rfl
@[simp] theorem StateOf.setQrate_tau (d : Num) : (s.setQrate d).tau = s.tau := rfl
@[simp] theorem StateOf.setQrate_gain (d : Num) : (s.setQrate d).gain = s.gain := rfl
@[simp] theorem StateOf.setQrate_alpha (d : Num) : (s.setQrate d).alpha = s.alpha := rfl
@[simp] theorem StateOf.setQrate_beta (d : Num) : (s.setQrate d).beta = s.beta := rfl
@[simp] theorem StateOf.setQrate_prevI (d : Num) : (s.setQrate d).prevI = s.prevI := rfl
@[simp] theorem StateOf.setQrate_prevQ (d : Num) : (s.setQrate d).prevQ = s.prevQ := rfl
@[simp] theorem StateOf.setQrate_yprev (d : Num) : (s.setQrate d).yprev = s.yprev := rfl
@[simp] theorem StateOf.setQrate_errcode (d : Num) : (s.setQrate d).errcode = s.errcode := rfl
@[simp] theorem StateOf.setQrate_errcmdh (d : Num) : (s.setQrate d).errcmdh = s.errcmdh := rfl
@[simp] theorem StateOf.setQrate_errcmdl (d : Num) : (s.setQrate d).errcmdl = s.errcmdl := rfl
@[simp] theorem StateOf.setQrate_hist (d : Num) : (s.setQrate d).hist = s.hist := rfl
@[simp] theorem StateOf.setQrate_taps (d : Num) : (s.setQrate d).taps = s.taps := rfl
@[simp] theorem StateOf.setQrate_rpos (d : Num) : (s.setQrate d).rpos = s.rpos := rfl
@[simp] theorem StateOf.setQrate_rstep (d : Num) : (s.setQrate d).rstep = s.rstep := rfl
@[simp] theorem StateOf.setQrate_cmdq (d : Num) : (s.setQrate d).cmdq = s.cmdq := rfl
@[simp] theorem StateOf.setQrate_rspq (d : Num) : (s.setQrate d).rspq = s.rspq := rfl
@[simp] theorem StateOf.setQrate_inq (d : Num) : (s.setQrate d).inq = s.inq := rfl
@[simp] theorem StateOf.setQrate_outq (d : Num) : (s.setQrate d).outq = s.outq := rfl
@[simp] theorem StateOf.setQrate_L (d : Num) : (s.setQrate d).L = s.L := rfl
@[simp] theorem StateOf.setQrate_arbCount (d : Num) : (s.setQrate d).arbCount = s.arbCount := rfl
@[simp] theorem StateOf.setQrate_tapsEpoch (d : Num) : (s.setQrate d).tapsEpoch = s.tapsEpoch := rfl

/-! ## `setArate` -/

@[simp] theorem StateOf.setArate_fsm (d : Num) : (s.setArate d).fsm = s.fsm := rfl
@[simp] theorem StateOf.setArate_deEn (d : Num) : (s.setArate d).deEn = s.deEn := rfl
@[simp] theorem StateOf.setArate_prevValid (d : Num) : (s.setArate d).prevValid = s.prevValid := rfl
@[simp] theorem StateOf.setArate_inbatch (d : Num) : (s.setArate d).inbatch = s.inbatch := rfl
@[simp] theorem StateOf.setArate_errv (d : Num) : (s.setArate d).errv = s.errv := rfl
@[simp] theorem StateOf.setArate_qrate (d : Num) : (s.setArate d).qrate = s.qrate := rfl
@[simp] theorem StateOf.setArate_arate (d : Num) : (s.setArate d).arate = d := rfl
@[simp] theorem StateOf.setArate_maxdev (d : Num) : (s.setArate d).maxdev = s.maxdev := rfl
@[simp] theorem StateOf.setArate_tau (d : Num) : (s.setArate d).tau = s.tau := rfl
@[simp] theorem StateOf.setArate_gain (d : Num) : (s.setArate d).gain = s.gain := rfl
@[simp] theorem StateOf.setArate_alpha (d : Num) : (s.setArate d).alpha = s.alpha := rfl
@[simp] theorem StateOf.setArate_beta (d : Num) : (s.setArate d).beta = s.beta := rfl
@[simp] theorem StateOf.setArate_prevI (d : Num) : (s.setArate d).prevI = s.prevI := rfl
@[simp] theorem StateOf.setArate_prevQ (d : Num) : (s.setArate d).prevQ = s.prevQ := rfl
@[simp] theorem StateOf.setArate_yprev (d : Num) : (s.setArate d).yprev = s.yprev := rfl
@[simp] theorem StateOf.setArate_errcode (d : Num) : (s.setArate d).errcode = s.errcode := rfl
@[simp] theorem StateOf.setArate_errcmdh (d : Num) : (s.setArate d).errcmdh = s.errcmdh := rfl
@[simp] theorem StateOf.setArate_errcmdl (d : Num) : (s.setArate d).errcmdl = s.errcmdl := rfl
@[simp] theorem StateOf.setArate_hist (d : Num) : (s.setArate d).hist = s.hist := rfl
@[simp] theorem StateOf.setArate_taps (d : Num) : (s.setArate d).taps = s.taps := rfl
@[simp] theorem StateOf.setArate_rpos (d : Num) : (s.setArate d).rpos = s.rpos := rfl
@[simp] theorem StateOf.setArate_rstep (d : Num) : (s.setArate d).rstep = s.rstep := rfl
@[simp] theorem StateOf.setArate_cmdq (d : Num) : (s.setArate d).cmdq = s.cmdq := rfl
@[simp] theorem StateOf.setArate_rspq (d : Num) : (s.setArate d).rspq = s.rspq := rfl
@[simp] theorem StateOf.setArate_inq (d : Num) : (s.setArate d).inq = s.inq := rfl
@[simp] theorem StateOf.setArate_outq (d : Num) : (s.setArate d).outq = s.outq := rfl
@[simp] theorem StateOf.setArate_L (d : Num) : (s.setArate d).L = s.L := rfl
@[simp] theorem StateOf.setArate_arbCount (d : Num) : (s.setArate d).arbCount = s.arbCount := rfl
@[simp] theorem StateOf.setArate_tapsEpoch (d : Num) : (s.setArate d).tapsEpoch = s.tapsEpoch := rfl

/-! ## `setMaxdev` -/

@[simp] theorem StateOf.setMaxdev_fsm (d : Num) : (s.setMaxdev d).fsm = s.fsm := rfl
@[simp] theorem StateOf.setMaxdev_deEn (d : Num) : (s.setMaxdev d).deEn = s.deEn := rfl
@[simp] theorem StateOf.setMaxdev_prevValid (d : Num) : (s.setMaxdev d).prevValid = s.prevValid := rfl
@[simp] theorem StateOf.setMaxdev_inbatch (d : Num) : (s.setMaxdev d).inbatch = s.inbatch := rfl
@[simp] theorem StateOf.setMaxdev_errv (d : Num) : (s.setMaxdev d).errv = s.errv := rfl
@[simp] theorem StateOf.setMaxdev_qrate (d : Num) : (s.setMaxdev d).qrate = s.qrate := rfl
@[simp] theorem StateOf.setMaxdev_arate (d : Num) : (s.setMaxdev d).arate = s.arate := rfl
@[simp] theorem StateOf.setMaxdev_maxdev (d : Num) : (s.setMaxdev d).maxdev = d := rfl
@[simp] theorem StateOf.setMaxdev_tau (d : Num) : (s.setMaxdev d).tau = s.tau := rfl
@[simp] theorem StateOf.setMaxdev_gain (d : Num) : (s.setMaxdev d).gain = s.gain := rfl
@[simp] theorem StateOf.setMaxdev_alpha (d : Num) : (s.setMaxdev d).alpha = s.alpha := rfl
@[simp] theorem StateOf.setMaxdev_beta (d : Num) : (s.setMaxdev d).beta = s.beta := rfl
@[simp] theorem StateOf.setMaxdev_prevI (d : Num) : (s.setMaxdev d).prevI = s.prevI := rfl
@[simp] theorem StateOf.setMaxdev_prevQ (d : Num) : (s.setMaxdev d).prevQ = s.prevQ := rfl
@[simp] theorem StateOf.setMaxdev_yprev (d : Num) : (s.setMaxdev d).yprev = s.yprev := rfl
@[simp] theorem StateOf.setMaxdev_errcode (d : Num) : (s.setMaxdev d).errcode = s.errcode := rfl
@[simp] theorem StateOf.setMaxdev_errcmdh (d : Num) : (s.setMaxdev d).errcmdh = s.errcmdh := rfl
@[simp] theorem StateOf.setMaxdev_errcmdl (d : Num) : (s.setMaxdev d).errcmdl = s.errcmdl := rfl
@[simp] theorem StateOf.setMaxdev_hist (d : Num) : (s.setMaxdev d).hist = s.hist := rfl
@[simp] theorem StateOf.setMaxdev_taps (d : Num) : (s.setMaxdev d).taps = s.taps := rfl
@[simp] theorem StateOf.setMaxdev_rpos (d : Num) : (s.setMaxdev d).rpos = s.rpos := rfl
@[simp] theorem StateOf.setMaxdev_rstep (d : Num) : (s.setMaxdev d).rstep = s.rstep := rfl
@[simp] theorem StateOf.setMaxdev_cmdq (d : Num) : (s.setMaxdev d).cmdq = s.cmdq := rfl
@[simp] theorem StateOf.setMaxdev_rspq (d : Num) : (s.setMaxdev d).rspq = s.rspq := rfl
@[simp] theorem StateOf.setMaxdev_inq (d : Num) : (s.setMaxdev d).inq = s.inq := rfl
@[simp] theorem StateOf.setMaxdev_outq (d : Num) : (s.setMaxdev d).outq = s.outq := rfl
@[simp] theorem StateOf.setMaxdev_L (d : Num) : (s.setMaxdev d).L = s.L := rfl
@[simp] theorem StateOf.setMaxdev_arbCount (d : Num) : (s.setMaxdev d).arbCount = s.arbCount := rfl
@[simp] theorem StateOf.setMaxdev_tapsEpoch (d : Num) : (s.setMaxdev d).tapsEpoch = s.tapsEpoch := rfl

/-! ## `setTau` -/

@[simp] theorem StateOf.setTau_fsm (d : Num) : (s.setTau d).fsm = s.fsm := rfl
@[simp] theorem StateOf.setTau_deEn (d : Num) : (s.setTau d).deEn = s.deEn := rfl
@[simp] theorem StateOf.setTau_prevValid (d : Num) : (s.setTau d).prevValid = s.prevValid := rfl
@[simp] theorem StateOf.setTau_inbatch (d : Num) : (s.setTau d).inbatch = s.inbatch := rfl
@[simp] theorem StateOf.setTau_errv (d : Num) : (s.setTau d).errv = s.errv := rfl
@[simp] theorem StateOf.setTau_qrate (d : Num) : (s.setTau d).qrate = s.qrate := rfl
@[simp] theorem StateOf.setTau_arate (d : Num) : (s.setTau d).arate = s.arate := rfl
@[simp] theorem StateOf.setTau_maxdev (d : Num) : (s.setTau d).maxdev = s.maxdev := rfl
@[simp] theorem StateOf.setTau_tau (d : Num) : (s.setTau d).tau = d := rfl
@[simp] theorem StateOf.setTau_gain (d : Num) : (s.setTau d).gain = s.gain := rfl
@[simp] theorem StateOf.setTau_alpha (d : Num) : (s.setTau d).alpha = s.alpha := rfl
@[simp] theorem StateOf.setTau_beta (d : Num) : (s.setTau d).beta = s.beta := rfl
@[simp] theorem StateOf.setTau_prevI (d : Num) : (s.setTau d).prevI = s.prevI := rfl
@[simp] theorem StateOf.setTau_prevQ (d : Num) : (s.setTau d).prevQ = s.prevQ := rfl
@[simp] theorem StateOf.setTau_yprev (d : Num) : (s.setTau d).yprev = s.yprev := rfl
@[simp] theorem StateOf.setTau_errcode (d : Num) : (s.setTau d).errcode = s.errcode := rfl
@[simp] theorem StateOf.setTau_errcmdh (d : Num) : (s.setTau d).errcmdh = s.errcmdh := rfl
@[simp] theorem StateOf.setTau_errcmdl (d : Num) : (s.setTau d).errcmdl = s.errcmdl := rfl
@[simp] theorem StateOf.setTau_hist (d : Num) : (s.setTau d).hist = s.hist := rfl
@[simp] theorem StateOf.setTau_taps (d : Num) : (s.setTau d).taps = s.taps := rfl
@[simp] theorem StateOf.setTau_rpos (d : Num) : (s.setTau d).rpos = s.rpos := rfl
@[simp] theorem StateOf.setTau_rstep (d : Num) : (s.setTau d).rstep = s.rstep := rfl
@[simp] theorem StateOf.setTau_cmdq (d : Num) : (s.setTau d).cmdq = s.cmdq := rfl
@[simp] theorem StateOf.setTau_rspq (d : Num) : (s.setTau d).rspq = s.rspq := rfl
@[simp] theorem StateOf.setTau_inq (d : Num) : (s.setTau d).inq = s.inq := rfl
@[simp] theorem StateOf.setTau_outq (d : Num) : (s.setTau d).outq = s.outq := rfl
@[simp] theorem StateOf.setTau_L (d : Num) : (s.setTau d).L = s.L := rfl
@[simp] theorem StateOf.setTau_arbCount (d : Num) : (s.setTau d).arbCount = s.arbCount := rfl
@[simp] theorem StateOf.setTau_tapsEpoch (d : Num) : (s.setTau d).tapsEpoch = s.tapsEpoch := rfl

/-! ## `applySetdev` -/

@[simp] theorem StateOf.applySetdev_fsm (d : Num) : (s.applySetdev P d).fsm = .run := rfl
@[simp] theorem StateOf.applySetdev_deEn (d : Num) : (s.applySetdev P d).deEn = s.deEn := rfl
@[simp] theorem StateOf.applySetdev_prevValid (d : Num) : (s.applySetdev P d).prevValid = s.prevValid := rfl
@[simp] theorem StateOf.applySetdev_inbatch (d : Num) : (s.applySetdev P d).inbatch = s.inbatch := rfl
@[simp] theorem StateOf.applySetdev_errv (d : Num) : (s.applySetdev P d).errv = s.errv := rfl
@[simp] theorem StateOf.applySetdev_qrate (d : Num) : (s.applySetdev P d).qrate = s.qrate := rfl
@[simp] theorem StateOf.applySetdev_arate (d : Num) : (s.applySetdev P d).arate = s.arate := rfl
@[simp] theorem StateOf.applySetdev_maxdev (d : Num) : (s.applySetdev P d).maxdev = d := rfl
@[simp] theorem StateOf.applySetdev_tau (d : Num) : (s.applySetdev P d).tau = s.tau := rfl
@[simp] theorem StateOf.applySetdev_gain (d : Num) : (s.applySetdev P d).gain = gaincalc P.num s.qrate d := rfl
@[simp] theorem StateOf.applySetdev_alpha (d : Num) : (s.applySetdev P d).alpha = s.alpha := rfl
@[simp] theorem StateOf.applySetdev_beta (d : Num) : (s.applySetdev P d).beta = s.beta := rfl
@[simp] theorem StateOf.applySetdev_prevI (d : Num) : (s.applySetdev P d).prevI = s.prevI := rfl
@[simp] theorem StateOf.applySetdev_prevQ (d : Num) : (s.applySetdev P d).prevQ = s.prevQ := rfl
@[simp] theorem StateOf.applySetdev_yprev (d : Num) : (s.applySetdev P d).yprev = s.yprev := rfl
@[simp] theorem StateOf.applySetdev_errcode (d : Num) : (s.applySetdev P d).errcode = s.errcode := rfl
@[simp] theorem StateOf.applySetdev_errcmdh (d : Num) : (s.applySetdev P d).errcmdh = s.errcmdh := rfl
@[simp] theorem StateOf.applySetdev_errcmdl (d : Num) : (s.applySetdev P d).errcmdl = s.errcmdl := rfl
@[simp] theorem StateOf.applySetdev_hist (d : Num) : (s.applySetdev P d).hist = s.hist := rfl
@[simp] theorem StateOf.applySetdev_taps (d : Num) : (s.applySetdev P d).taps = s.taps := rfl
@[simp] theorem StateOf.applySetdev_rpos (d : Num) : (s.applySetdev P d).rpos = s.rpos := rfl
@[simp] theorem StateOf.applySetdev_rstep (d : Num) : (s.applySetdev P d).rstep = s.rstep := rfl
@[simp] theorem StateOf.applySetdev_cmdq (d : Num) : (s.applySetdev P d).cmdq = s.cmdq := rfl
@[simp] theorem StateOf.applySetdev_rspq (d : Num) : (s.applySetdev P d).rspq = s.rspq := rfl
@[simp] theorem StateOf.applySetdev_inq (d : Num) : (s.applySetdev P d).inq = s.inq := rfl
@[simp] theorem StateOf.applySetdev_outq (d : Num) : (s.applySetdev P d).outq = s.outq := rfl
@[simp] theorem StateOf.applySetdev_L (d : Num) : (s.applySetdev P d).L = s.L := rfl
@[simp] theorem StateOf.applySetdev_arbCount (d : Num) : (s.applySetdev P d).arbCount = s.arbCount := rfl
@[simp] theorem StateOf.applySetdev_tapsEpoch (d : Num) : (s.applySetdev P d).tapsEpoch = s.tapsEpoch := rfl

/-! ## `applySettau` -/

@[simp] theorem StateOf.applySettau_fsm (d : Num) : (s.applySettau P d).fsm = .run := rfl
@[simp] theorem StateOf.applySettau_deEn (d : Num) : (s.applySettau P d).deEn = (decoef P.num d s.qrate).en := rfl
@[simp] theorem StateOf.applySettau_prevValid (d : Num) : (s.applySettau P d).prevValid = s.prevValid := rfl
@[simp] theorem StateOf.applySettau_inbatch (d : Num) : (s.applySettau P d).inbatch = s.inbatch := rfl
@[simp] theorem StateOf.applySettau_errv (d : Num) : (s.applySettau P d).errv = s.errv := rfl
@[simp] theorem StateOf.applySettau_qrate (d : Num) : (s.applySettau P d).qrate = s.qrate := rfl
@[simp] theorem StateOf.applySettau_arate (d : Num) : (s.applySettau P d).arate = s.arate := rfl
@[simp] theorem StateOf.applySettau_maxdev (d : Num) : (s.applySettau P d).maxdev = s.maxdev := rfl
@[simp] theorem StateOf.applySettau_tau (d : Num) : (s.applySettau P d).tau = d := rfl
@[simp] theorem StateOf.applySettau_gain (d : Num) : (s.applySettau P d).gain = s.gain := rfl
@[simp] theorem StateOf.applySettau_alpha (d : Num) :
    (s.applySettau P d).alpha = (decoef P.num d s.qrate).alpha := rfl
@[simp] theorem StateOf.applySettau_beta (d : Num) :
    (s.applySettau P d).beta = (decoef P.num d s.qrate).beta := rfl
@[simp] theorem StateOf.applySettau_prevI (d : Num) : (s.applySettau P d).prevI = s.prevI := rfl
@[simp] theorem StateOf.applySettau_prevQ (d : Num) : (s.applySettau P d).prevQ = s.prevQ := rfl
@[simp] theorem StateOf.applySettau_yprev (d : Num) : (s.applySettau P d).yprev = P.num.zero := rfl
@[simp] theorem StateOf.applySettau_errcode (d : Num) : (s.applySettau P d).errcode = s.errcode := rfl
@[simp] theorem StateOf.applySettau_errcmdh (d : Num) : (s.applySettau P d).errcmdh = s.errcmdh := rfl
@[simp] theorem StateOf.applySettau_errcmdl (d : Num) : (s.applySettau P d).errcmdl = s.errcmdl := rfl
@[simp] theorem StateOf.applySettau_hist (d : Num) : (s.applySettau P d).hist = s.hist := rfl
@[simp] theorem StateOf.applySettau_taps (d : Num) : (s.applySettau P d).taps = s.taps := rfl
@[simp] theorem StateOf.applySettau_rpos (d : Num) : (s.applySettau P d).rpos = s.rpos := rfl
@[simp] theorem StateOf.applySettau_rstep (d : Num) : (s.applySettau P d).rstep = s.rstep := rfl
@[simp] theorem StateOf.applySettau_cmdq (d : Num) : (s.applySettau P d).cmdq = s.cmdq := rfl
@[simp] theorem StateOf.applySettau_rspq (d : Num) : (s.applySettau P d).rspq = s.rspq := rfl
@[simp] theorem StateOf.applySettau_inq (d : Num) : (s.applySettau P d).inq = s.inq := rfl
@[simp] theorem StateOf.applySettau_outq (d : Num) : (s.applySettau P d).outq = s.outq := rfl
@[simp] theorem StateOf.applySettau_L (d : Num) : (s.applySettau P d).L = s.L := rfl
@[simp] theorem StateOf.applySettau_arbCount (d : Num) : (s.applySettau P d).arbCount = s.arbCount := rfl
@[simp] theorem StateOf.applySettau_tapsEpoch (d : Num) : (s.applySettau P d).tapsEpoch = s.tapsEpoch := rfl

/-! ## `applyBuild` -/

@[simp] theorem StateOf.applyBuild_fsm : (s.applyBuild P).fsm = .run := rfl
@[simp] theorem StateOf.applyBuild_deEn : (s.applyBuild P).deEn = (decoef P.num s.tau s.qrate).en := rfl
@[simp] theorem StateOf.applyBuild_prevValid : (s.applyBuild P).prevValid = false := rfl
@[simp] theorem StateOf.applyBuild_inbatch : (s.applyBuild P).inbatch = false := rfl
@[simp] theorem StateOf.applyBuild_errv : (s.applyBuild P).errv = s.errv := rfl
@[simp] theorem StateOf.applyBuild_qrate : (s.applyBuild P).qrate = s.qrate := rfl
@[simp] theorem StateOf.applyBuild_arate : (s.applyBuild P).arate = s.arate := rfl
@[simp] theorem StateOf.applyBuild_maxdev : (s.applyBuild P).maxdev = s.maxdev := rfl
@[simp] theorem StateOf.applyBuild_tau : (s.applyBuild P).tau = s.tau := rfl
@[simp] theorem StateOf.applyBuild_gain : (s.applyBuild P).gain = gaincalc P.num s.qrate s.maxdev := rfl
@[simp] theorem StateOf.applyBuild_alpha : (s.applyBuild P).alpha = (decoef P.num s.tau s.qrate).alpha := rfl
@[simp] theorem StateOf.applyBuild_beta : (s.applyBuild P).beta = (decoef P.num s.tau s.qrate).beta := rfl
@[simp] theorem StateOf.applyBuild_prevI : (s.applyBuild P).prevI = P.num.zero := rfl
@[simp] theorem StateOf.applyBuild_prevQ : (s.applyBuild P).prevQ = P.num.zero := rfl
@[simp] theorem StateOf.applyBuild_yprev : (s.applyBuild P).yprev = P.num.zero := rfl
@[simp] theorem StateOf.applyBuild_errcode : (s.applyBuild P).errcode = s.errcode := rfl
@[simp] theorem StateOf.applyBuild_errcmdh : (s.applyBuild P).errcmdh = s.errcmdh := rfl
@[simp] theorem StateOf.applyBuild_errcmdl : (s.applyBuild P).errcmdl = s.errcmdl := rfl
@[simp] theorem StateOf.applyBuild_hist : (s.applyBuild P).hist = List.replicate s.L P.num.zero := rfl
@[simp] theorem StateOf.applyBuild_taps : (s.applyBuild P).taps = s.taps := rfl
@[simp] theorem StateOf.applyBuild_rpos : (s.applyBuild P).rpos = 0 := rfl
@[simp] theorem StateOf.applyBuild_rstep : (s.applyBuild P).rstep = stepOfRates P.num s.qrate s.arate := rfl
@[simp] theorem StateOf.applyBuild_cmdq : (s.applyBuild P).cmdq = s.cmdq := rfl
@[simp] theorem StateOf.applyBuild_rspq : (s.applyBuild P).rspq = s.rspq := rfl
@[simp] theorem StateOf.applyBuild_inq : (s.applyBuild P).inq = s.inq := rfl
@[simp] theorem StateOf.applyBuild_outq : (s.applyBuild P).outq = s.outq := rfl
@[simp] theorem StateOf.applyBuild_L : (s.applyBuild P).L = s.L := rfl
@[simp] theorem StateOf.applyBuild_arbCount : (s.applyBuild P).arbCount = s.arbCount := rfl
@[simp] theorem StateOf.applyBuild_tapsEpoch : (s.applyBuild P).tapsEpoch = s.tapsEpoch := rfl

/-! ## `applyTeardn` -/

@[simp] theorem StateOf.applyTeardn_fsm : (s.applyTeardn P).fsm = .unbuilt := rfl
@[simp] theorem StateOf.applyTeardn_deEn : (s.applyTeardn P).deEn = false := rfl
@[simp] theorem StateOf.applyTeardn_prevValid : (s.applyTeardn P).prevValid = false := rfl
@[simp] theorem StateOf.applyTeardn_inbatch : (s.applyTeardn P).inbatch = false := rfl
@[simp] theorem StateOf.applyTeardn_errv : (s.applyTeardn P).errv = s.errv := rfl
@[simp] theorem StateOf.applyTeardn_qrate : (s.applyTeardn P).qrate = P.num.zero := rfl
@[simp] theorem StateOf.applyTeardn_arate : (s.applyTeardn P).arate = P.num.zero := rfl
@[simp] theorem StateOf.applyTeardn_maxdev : (s.applyTeardn P).maxdev = P.num.zero := rfl
@[simp] theorem StateOf.applyTeardn_tau : (s.applyTeardn P).tau = P.num.zero := rfl
@[simp] theorem StateOf.applyTeardn_gain : (s.applyTeardn P).gain = P.num.zero := rfl
@[simp] theorem StateOf.applyTeardn_alpha : (s.applyTeardn P).alpha = P.num.zero := rfl
@[simp] theorem StateOf.applyTeardn_beta : (s.applyTeardn P).beta = P.num.zero := rfl
@[simp] theorem StateOf.applyTeardn_prevI : (s.applyTeardn P).prevI = P.num.zero := rfl
@[simp] theorem StateOf.applyTeardn_prevQ : (s.applyTeardn P).prevQ = P.num.zero := rfl
@[simp] theorem StateOf.applyTeardn_yprev : (s.applyTeardn P).yprev = P.num.zero := rfl
@[simp] theorem StateOf.applyTeardn_errcode : (s.applyTeardn P).errcode = s.errcode := rfl
@[simp] theorem StateOf.applyTeardn_errcmdh : (s.applyTeardn P).errcmdh = s.errcmdh := rfl
@[simp] theorem StateOf.applyTeardn_errcmdl : (s.applyTeardn P).errcmdl = s.errcmdl := rfl
@[simp] theorem StateOf.applyTeardn_hist : (s.applyTeardn P).hist = List.replicate s.L P.num.zero := rfl
@[simp] theorem StateOf.applyTeardn_taps : (s.applyTeardn P).taps = s.taps := rfl
@[simp] theorem StateOf.applyTeardn_rpos : (s.applyTeardn P).rpos = 0 := rfl
@[simp] theorem StateOf.applyTeardn_rstep : (s.applyTeardn P).rstep = 0 := rfl
@[simp] theorem StateOf.applyTeardn_cmdq : (s.applyTeardn P).cmdq = s.cmdq := rfl
@[simp] theorem StateOf.applyTeardn_rspq : (s.applyTeardn P).rspq = s.rspq := rfl
@[simp] theorem StateOf.applyTeardn_inq : (s.applyTeardn P).inq = s.inq := rfl
@[simp] theorem StateOf.applyTeardn_outq : (s.applyTeardn P).outq = s.outq := rfl
@[simp] theorem StateOf.applyTeardn_L : (s.applyTeardn P).L = s.L := rfl
@[simp] theorem StateOf.applyTeardn_arbCount : (s.applyTeardn P).arbCount = s.arbCount := rfl
@[simp] theorem StateOf.applyTeardn_tapsEpoch : (s.applyTeardn P).tapsEpoch = s.tapsEpoch := rfl

/-! ## `applySample` -/

@[simp] theorem StateOf.applySample_fsm (last : Bool) (i q : Num) : (s.applySample P last i q).fsm = s.fsm := rfl
@[simp] theorem StateOf.applySample_deEn (last : Bool) (i q : Num) :
    (s.applySample P last i q).deEn = s.deEn := rfl
@[simp] theorem StateOf.applySample_prevValid (last : Bool) (i q : Num) :
    (s.applySample P last i q).prevValid = (s.demodResult P i q).prevValid := rfl
@[simp] theorem StateOf.applySample_inbatch (last : Bool) (i q : Num) :
    (s.applySample P last i q).inbatch = inbatchFlag last := rfl
@[simp] theorem StateOf.applySample_errv (last : Bool) (i q : Num) :
    (s.applySample P last i q).errv = s.errv := rfl
@[simp] theorem StateOf.applySample_qrate (last : Bool) (i q : Num) :
    (s.applySample P last i q).qrate = s.qrate := rfl
@[simp] theorem StateOf.applySample_arate (last : Bool) (i q : Num) :
    (s.applySample P last i q).arate = s.arate := rfl
@[simp] theorem StateOf.applySample_maxdev (last : Bool) (i q : Num) :
    (s.applySample P last i q).maxdev = s.maxdev := rfl
@[simp] theorem StateOf.applySample_tau (last : Bool) (i q : Num) : (s.applySample P last i q).tau = s.tau := rfl
@[simp] theorem StateOf.applySample_gain (last : Bool) (i q : Num) :
    (s.applySample P last i q).gain = s.gain := rfl
@[simp] theorem StateOf.applySample_alpha (last : Bool) (i q : Num) :
    (s.applySample P last i q).alpha = s.alpha := rfl
@[simp] theorem StateOf.applySample_beta (last : Bool) (i q : Num) :
    (s.applySample P last i q).beta = s.beta := rfl
@[simp] theorem StateOf.applySample_prevI (last : Bool) (i q : Num) :
    (s.applySample P last i q).prevI = (s.demodResult P i q).prevI := rfl
@[simp] theorem StateOf.applySample_prevQ (last : Bool) (i q : Num) :
    (s.applySample P last i q).prevQ = (s.demodResult P i q).prevQ := rfl
@[simp] theorem StateOf.applySample_yprev (last : Bool) (i q : Num) :
    (s.applySample P last i q).yprev = (s.deemphResult P i q).2 := rfl
@[simp] theorem StateOf.applySample_errcode (last : Bool) (i q : Num) :
    (s.applySample P last i q).errcode = s.errcode := rfl
@[simp] theorem StateOf.applySample_errcmdh (last : Bool) (i q : Num) :
    (s.applySample P last i q).errcmdh = s.errcmdh := rfl
@[simp] theorem StateOf.applySample_errcmdl (last : Bool) (i q : Num) :
    (s.applySample P last i q).errcmdl = s.errcmdl := rfl
@[simp] theorem StateOf.applySample_hist (last : Bool) (i q : Num) :
    (s.applySample P last i q).hist = s.histAfter P i q := rfl
@[simp] theorem StateOf.applySample_taps (last : Bool) (i q : Num) :
    (s.applySample P last i q).taps = s.taps := rfl
@[simp] theorem StateOf.applySample_rpos (last : Bool) (i q : Num) :
    (s.applySample P last i q).rpos = nextRpos s.rpos s.rstep := rfl
@[simp] theorem StateOf.applySample_rstep (last : Bool) (i q : Num) :
    (s.applySample P last i q).rstep = s.rstep := rfl
@[simp] theorem StateOf.applySample_cmdq (last : Bool) (i q : Num) :
    (s.applySample P last i q).cmdq = s.cmdq := rfl
@[simp] theorem StateOf.applySample_rspq (last : Bool) (i q : Num) :
    (s.applySample P last i q).rspq = s.rspq := rfl
@[simp] theorem StateOf.applySample_inq (last : Bool) (i q : Num) : (s.applySample P last i q).inq = s.inq := rfl
@[simp] theorem StateOf.applySample_outq (last : Bool) (i q : Num) :
    (s.applySample P last i q).outq = s.outq ++ s.sampleOutputs P i q := rfl
@[simp] theorem StateOf.applySample_L (last : Bool) (i q : Num) : (s.applySample P last i q).L = s.L := rfl
@[simp] theorem StateOf.applySample_arbCount (last : Bool) (i q : Num) :
    (s.applySample P last i q).arbCount = s.arbCount := rfl
@[simp] theorem StateOf.applySample_tapsEpoch (last : Bool) (i q : Num) :
    (s.applySample P last i q).tapsEpoch = s.tapsEpoch := rfl

/-! ## `popCommand` -/

@[simp] theorem StateOf.popCommand_fsm : (s.popCommand).fsm = s.fsm := rfl
@[simp] theorem StateOf.popCommand_deEn : (s.popCommand).deEn = s.deEn := rfl
@[simp] theorem StateOf.popCommand_prevValid : (s.popCommand).prevValid = s.prevValid := rfl
@[simp] theorem StateOf.popCommand_inbatch : (s.popCommand).inbatch = s.inbatch := rfl
@[simp] theorem StateOf.popCommand_errv : (s.popCommand).errv = s.errv := rfl
@[simp] theorem StateOf.popCommand_qrate : (s.popCommand).qrate = s.qrate := rfl
@[simp] theorem StateOf.popCommand_arate : (s.popCommand).arate = s.arate := rfl
@[simp] theorem StateOf.popCommand_maxdev : (s.popCommand).maxdev = s.maxdev := rfl
@[simp] theorem StateOf.popCommand_tau : (s.popCommand).tau = s.tau := rfl
@[simp] theorem StateOf.popCommand_gain : (s.popCommand).gain = s.gain := rfl
@[simp] theorem StateOf.popCommand_alpha : (s.popCommand).alpha = s.alpha := rfl
@[simp] theorem StateOf.popCommand_beta : (s.popCommand).beta = s.beta := rfl
@[simp] theorem StateOf.popCommand_prevI : (s.popCommand).prevI = s.prevI := rfl
@[simp] theorem StateOf.popCommand_prevQ : (s.popCommand).prevQ = s.prevQ := rfl
@[simp] theorem StateOf.popCommand_yprev : (s.popCommand).yprev = s.yprev := rfl
@[simp] theorem StateOf.popCommand_errcode : (s.popCommand).errcode = s.errcode := rfl
@[simp] theorem StateOf.popCommand_errcmdh : (s.popCommand).errcmdh = s.errcmdh := rfl
@[simp] theorem StateOf.popCommand_errcmdl : (s.popCommand).errcmdl = s.errcmdl := rfl
@[simp] theorem StateOf.popCommand_hist : (s.popCommand).hist = s.hist := rfl
@[simp] theorem StateOf.popCommand_taps : (s.popCommand).taps = s.taps := rfl
@[simp] theorem StateOf.popCommand_rpos : (s.popCommand).rpos = s.rpos := rfl
@[simp] theorem StateOf.popCommand_rstep : (s.popCommand).rstep = s.rstep := rfl
@[simp] theorem StateOf.popCommand_cmdq : (s.popCommand).cmdq = s.cmdq.tail := rfl
@[simp] theorem StateOf.popCommand_rspq : (s.popCommand).rspq = s.rspq := rfl
@[simp] theorem StateOf.popCommand_inq : (s.popCommand).inq = s.inq := rfl
@[simp] theorem StateOf.popCommand_outq : (s.popCommand).outq = s.outq := rfl
@[simp] theorem StateOf.popCommand_L : (s.popCommand).L = s.L := rfl
@[simp] theorem StateOf.popCommand_arbCount : (s.popCommand).arbCount = s.arbCount := rfl
@[simp] theorem StateOf.popCommand_tapsEpoch : (s.popCommand).tapsEpoch = s.tapsEpoch := rfl

/-! ## `popSample` -/

@[simp] theorem StateOf.popSample_fsm : (s.popSample).fsm = s.fsm := rfl
@[simp] theorem StateOf.popSample_deEn : (s.popSample).deEn = s.deEn := rfl
@[simp] theorem StateOf.popSample_prevValid : (s.popSample).prevValid = s.prevValid := rfl
@[simp] theorem StateOf.popSample_inbatch : (s.popSample).inbatch = s.inbatch := rfl
@[simp] theorem StateOf.popSample_errv : (s.popSample).errv = s.errv := rfl
@[simp] theorem StateOf.popSample_qrate : (s.popSample).qrate = s.qrate := rfl
@[simp] theorem StateOf.popSample_arate : (s.popSample).arate = s.arate := rfl
@[simp] theorem StateOf.popSample_maxdev : (s.popSample).maxdev = s.maxdev := rfl
@[simp] theorem StateOf.popSample_tau : (s.popSample).tau = s.tau := rfl
@[simp] theorem StateOf.popSample_gain : (s.popSample).gain = s.gain := rfl
@[simp] theorem StateOf.popSample_alpha : (s.popSample).alpha = s.alpha := rfl
@[simp] theorem StateOf.popSample_beta : (s.popSample).beta = s.beta := rfl
@[simp] theorem StateOf.popSample_prevI : (s.popSample).prevI = s.prevI := rfl
@[simp] theorem StateOf.popSample_prevQ : (s.popSample).prevQ = s.prevQ := rfl
@[simp] theorem StateOf.popSample_yprev : (s.popSample).yprev = s.yprev := rfl
@[simp] theorem StateOf.popSample_errcode : (s.popSample).errcode = s.errcode := rfl
@[simp] theorem StateOf.popSample_errcmdh : (s.popSample).errcmdh = s.errcmdh := rfl
@[simp] theorem StateOf.popSample_errcmdl : (s.popSample).errcmdl = s.errcmdl := rfl
@[simp] theorem StateOf.popSample_hist : (s.popSample).hist = s.hist := rfl
@[simp] theorem StateOf.popSample_taps : (s.popSample).taps = s.taps := rfl
@[simp] theorem StateOf.popSample_rpos : (s.popSample).rpos = s.rpos := rfl
@[simp] theorem StateOf.popSample_rstep : (s.popSample).rstep = s.rstep := rfl
@[simp] theorem StateOf.popSample_cmdq : (s.popSample).cmdq = s.cmdq := rfl
@[simp] theorem StateOf.popSample_rspq : (s.popSample).rspq = s.rspq := rfl
@[simp] theorem StateOf.popSample_inq : (s.popSample).inq = s.inq.tail := rfl
@[simp] theorem StateOf.popSample_outq : (s.popSample).outq = s.outq := rfl
@[simp] theorem StateOf.popSample_L : (s.popSample).L = s.L := rfl
@[simp] theorem StateOf.popSample_arbCount : (s.popSample).arbCount = s.arbCount := rfl
@[simp] theorem StateOf.popSample_tapsEpoch : (s.popSample).tapsEpoch = s.tapsEpoch := rfl

/-! ## `drawArb` -/

@[simp] theorem StateOf.drawArb_fsm : (s.drawArb).fsm = s.fsm := rfl
@[simp] theorem StateOf.drawArb_deEn : (s.drawArb).deEn = s.deEn := rfl
@[simp] theorem StateOf.drawArb_prevValid : (s.drawArb).prevValid = s.prevValid := rfl
@[simp] theorem StateOf.drawArb_inbatch : (s.drawArb).inbatch = s.inbatch := rfl
@[simp] theorem StateOf.drawArb_errv : (s.drawArb).errv = s.errv := rfl
@[simp] theorem StateOf.drawArb_qrate : (s.drawArb).qrate = s.qrate := rfl
@[simp] theorem StateOf.drawArb_arate : (s.drawArb).arate = s.arate := rfl
@[simp] theorem StateOf.drawArb_maxdev : (s.drawArb).maxdev = s.maxdev := rfl
@[simp] theorem StateOf.drawArb_tau : (s.drawArb).tau = s.tau := rfl
@[simp] theorem StateOf.drawArb_gain : (s.drawArb).gain = s.gain := rfl
@[simp] theorem StateOf.drawArb_alpha : (s.drawArb).alpha = s.alpha := rfl
@[simp] theorem StateOf.drawArb_beta : (s.drawArb).beta = s.beta := rfl
@[simp] theorem StateOf.drawArb_prevI : (s.drawArb).prevI = s.prevI := rfl
@[simp] theorem StateOf.drawArb_prevQ : (s.drawArb).prevQ = s.prevQ := rfl
@[simp] theorem StateOf.drawArb_yprev : (s.drawArb).yprev = s.yprev := rfl
@[simp] theorem StateOf.drawArb_errcode : (s.drawArb).errcode = s.errcode := rfl
@[simp] theorem StateOf.drawArb_errcmdh : (s.drawArb).errcmdh = s.errcmdh := rfl
@[simp] theorem StateOf.drawArb_errcmdl : (s.drawArb).errcmdl = s.errcmdl := rfl
@[simp] theorem StateOf.drawArb_hist : (s.drawArb).hist = s.hist := rfl
@[simp] theorem StateOf.drawArb_taps : (s.drawArb).taps = s.taps := rfl
@[simp] theorem StateOf.drawArb_rpos : (s.drawArb).rpos = s.rpos := rfl
@[simp] theorem StateOf.drawArb_rstep : (s.drawArb).rstep = s.rstep := rfl
@[simp] theorem StateOf.drawArb_cmdq : (s.drawArb).cmdq = s.cmdq := rfl
@[simp] theorem StateOf.drawArb_rspq : (s.drawArb).rspq = s.rspq := rfl
@[simp] theorem StateOf.drawArb_inq : (s.drawArb).inq = s.inq := rfl
@[simp] theorem StateOf.drawArb_outq : (s.drawArb).outq = s.outq := rfl
@[simp] theorem StateOf.drawArb_L : (s.drawArb).L = s.L := rfl
@[simp] theorem StateOf.drawArb_arbCount : (s.drawArb).arbCount = s.arbCount + 1 := rfl
@[simp] theorem StateOf.drawArb_tapsEpoch : (s.drawArb).tapsEpoch = s.tapsEpoch := rfl

/-! ## `pushCommand` -/

@[simp] theorem StateOf.pushCommand_fsm (w : Cmd) : (s.pushCommand w).fsm = s.fsm := rfl
@[simp] theorem StateOf.pushCommand_deEn (w : Cmd) : (s.pushCommand w).deEn = s.deEn := rfl
@[simp] theorem StateOf.pushCommand_prevValid (w : Cmd) : (s.pushCommand w).prevValid = s.prevValid := rfl
@[simp] theorem StateOf.pushCommand_inbatch (w : Cmd) : (s.pushCommand w).inbatch = s.inbatch := rfl
@[simp] theorem StateOf.pushCommand_errv (w : Cmd) : (s.pushCommand w).errv = s.errv := rfl
@[simp] theorem StateOf.pushCommand_qrate (w : Cmd) : (s.pushCommand w).qrate = s.qrate := rfl
@[simp] theorem StateOf.pushCommand_arate (w : Cmd) : (s.pushCommand w).arate = s.arate := rfl
@[simp] theorem StateOf.pushCommand_maxdev (w : Cmd) : (s.pushCommand w).maxdev = s.maxdev := rfl
@[simp] theorem StateOf.pushCommand_tau (w : Cmd) : (s.pushCommand w).tau = s.tau := rfl
@[simp] theorem StateOf.pushCommand_gain (w : Cmd) : (s.pushCommand w).gain = s.gain := rfl
@[simp] theorem StateOf.pushCommand_alpha (w : Cmd) : (s.pushCommand w).alpha = s.alpha := rfl
@[simp] theorem StateOf.pushCommand_beta (w : Cmd) : (s.pushCommand w).beta = s.beta := rfl
@[simp] theorem StateOf.pushCommand_prevI (w : Cmd) : (s.pushCommand w).prevI = s.prevI := rfl
@[simp] theorem StateOf.pushCommand_prevQ (w : Cmd) : (s.pushCommand w).prevQ = s.prevQ := rfl
@[simp] theorem StateOf.pushCommand_yprev (w : Cmd) : (s.pushCommand w).yprev = s.yprev := rfl
@[simp] theorem StateOf.pushCommand_errcode (w : Cmd) : (s.pushCommand w).errcode = s.errcode := rfl
@[simp] theorem StateOf.pushCommand_errcmdh (w : Cmd) : (s.pushCommand w).errcmdh = s.errcmdh := rfl
@[simp] theorem StateOf.pushCommand_errcmdl (w : Cmd) : (s.pushCommand w).errcmdl = s.errcmdl := rfl
@[simp] theorem StateOf.pushCommand_hist (w : Cmd) : (s.pushCommand w).hist = s.hist := rfl
@[simp] theorem StateOf.pushCommand_taps (w : Cmd) : (s.pushCommand w).taps = s.taps := rfl
@[simp] theorem StateOf.pushCommand_rpos (w : Cmd) : (s.pushCommand w).rpos = s.rpos := rfl
@[simp] theorem StateOf.pushCommand_rstep (w : Cmd) : (s.pushCommand w).rstep = s.rstep := rfl
@[simp] theorem StateOf.pushCommand_cmdq (w : Cmd) : (s.pushCommand w).cmdq = s.cmdq ++ [w] := rfl
@[simp] theorem StateOf.pushCommand_rspq (w : Cmd) : (s.pushCommand w).rspq = s.rspq := rfl
@[simp] theorem StateOf.pushCommand_inq (w : Cmd) : (s.pushCommand w).inq = s.inq := rfl
@[simp] theorem StateOf.pushCommand_outq (w : Cmd) : (s.pushCommand w).outq = s.outq := rfl
@[simp] theorem StateOf.pushCommand_L (w : Cmd) : (s.pushCommand w).L = s.L := rfl
@[simp] theorem StateOf.pushCommand_arbCount (w : Cmd) : (s.pushCommand w).arbCount = s.arbCount := rfl
@[simp] theorem StateOf.pushCommand_tapsEpoch (w : Cmd) : (s.pushCommand w).tapsEpoch = s.tapsEpoch := rfl

/-! ## `pushSample` -/

@[simp] theorem StateOf.pushSample_fsm (w : Smp) : (s.pushSample w).fsm = s.fsm := rfl
@[simp] theorem StateOf.pushSample_deEn (w : Smp) : (s.pushSample w).deEn = s.deEn := rfl
@[simp] theorem StateOf.pushSample_prevValid (w : Smp) : (s.pushSample w).prevValid = s.prevValid := rfl
@[simp] theorem StateOf.pushSample_inbatch (w : Smp) : (s.pushSample w).inbatch = s.inbatch := rfl
@[simp] theorem StateOf.pushSample_errv (w : Smp) : (s.pushSample w).errv = s.errv := rfl
@[simp] theorem StateOf.pushSample_qrate (w : Smp) : (s.pushSample w).qrate = s.qrate := rfl
@[simp] theorem StateOf.pushSample_arate (w : Smp) : (s.pushSample w).arate = s.arate := rfl
@[simp] theorem StateOf.pushSample_maxdev (w : Smp) : (s.pushSample w).maxdev = s.maxdev := rfl
@[simp] theorem StateOf.pushSample_tau (w : Smp) : (s.pushSample w).tau = s.tau := rfl
@[simp] theorem StateOf.pushSample_gain (w : Smp) : (s.pushSample w).gain = s.gain := rfl
@[simp] theorem StateOf.pushSample_alpha (w : Smp) : (s.pushSample w).alpha = s.alpha := rfl
@[simp] theorem StateOf.pushSample_beta (w : Smp) : (s.pushSample w).beta = s.beta := rfl
@[simp] theorem StateOf.pushSample_prevI (w : Smp) : (s.pushSample w).prevI = s.prevI := rfl
@[simp] theorem StateOf.pushSample_prevQ (w : Smp) : (s.pushSample w).prevQ = s.prevQ := rfl
@[simp] theorem StateOf.pushSample_yprev (w : Smp) : (s.pushSample w).yprev = s.yprev := rfl
@[simp] theorem StateOf.pushSample_errcode (w : Smp) : (s.pushSample w).errcode = s.errcode := rfl
@[simp] theorem StateOf.pushSample_errcmdh (w : Smp) : (s.pushSample w).errcmdh = s.errcmdh := rfl
@[simp] theorem StateOf.pushSample_errcmdl (w : Smp) : (s.pushSample w).errcmdl = s.errcmdl := rfl
@[simp] theorem StateOf.pushSample_hist (w : Smp) : (s.pushSample w).hist = s.hist := rfl
@[simp] theorem StateOf.pushSample_taps (w : Smp) : (s.pushSample w).taps = s.taps := rfl
@[simp] theorem StateOf.pushSample_rpos (w : Smp) : (s.pushSample w).rpos = s.rpos := rfl
@[simp] theorem StateOf.pushSample_rstep (w : Smp) : (s.pushSample w).rstep = s.rstep := rfl
@[simp] theorem StateOf.pushSample_cmdq (w : Smp) : (s.pushSample w).cmdq = s.cmdq := rfl
@[simp] theorem StateOf.pushSample_rspq (w : Smp) : (s.pushSample w).rspq = s.rspq := rfl
@[simp] theorem StateOf.pushSample_inq (w : Smp) : (s.pushSample w).inq = s.inq ++ [w] := rfl
@[simp] theorem StateOf.pushSample_outq (w : Smp) : (s.pushSample w).outq = s.outq := rfl
@[simp] theorem StateOf.pushSample_L (w : Smp) : (s.pushSample w).L = s.L := rfl
@[simp] theorem StateOf.pushSample_arbCount (w : Smp) : (s.pushSample w).arbCount = s.arbCount := rfl
@[simp] theorem StateOf.pushSample_tapsEpoch (w : Smp) : (s.pushSample w).tapsEpoch = s.tapsEpoch := rfl

/-! ## `popResponse` -/

@[simp] theorem StateOf.popResponse_fsm : (s.popResponse).fsm = s.fsm := rfl
@[simp] theorem StateOf.popResponse_deEn : (s.popResponse).deEn = s.deEn := rfl
@[simp] theorem StateOf.popResponse_prevValid : (s.popResponse).prevValid = s.prevValid := rfl
@[simp] theorem StateOf.popResponse_inbatch : (s.popResponse).inbatch = s.inbatch := rfl
@[simp] theorem StateOf.popResponse_errv : (s.popResponse).errv = s.errv := rfl
@[simp] theorem StateOf.popResponse_qrate : (s.popResponse).qrate = s.qrate := rfl
@[simp] theorem StateOf.popResponse_arate : (s.popResponse).arate = s.arate := rfl
@[simp] theorem StateOf.popResponse_maxdev : (s.popResponse).maxdev = s.maxdev := rfl
@[simp] theorem StateOf.popResponse_tau : (s.popResponse).tau = s.tau := rfl
@[simp] theorem StateOf.popResponse_gain : (s.popResponse).gain = s.gain := rfl
@[simp] theorem StateOf.popResponse_alpha : (s.popResponse).alpha = s.alpha := rfl
@[simp] theorem StateOf.popResponse_beta : (s.popResponse).beta = s.beta := rfl
@[simp] theorem StateOf.popResponse_prevI : (s.popResponse).prevI = s.prevI := rfl
@[simp] theorem StateOf.popResponse_prevQ : (s.popResponse).prevQ = s.prevQ := rfl
@[simp] theorem StateOf.popResponse_yprev : (s.popResponse).yprev = s.yprev := rfl
@[simp] theorem StateOf.popResponse_errcode : (s.popResponse).errcode = s.errcode := rfl
@[simp] theorem StateOf.popResponse_errcmdh : (s.popResponse).errcmdh = s.errcmdh := rfl
@[simp] theorem StateOf.popResponse_errcmdl : (s.popResponse).errcmdl = s.errcmdl := rfl
@[simp] theorem StateOf.popResponse_hist : (s.popResponse).hist = s.hist := rfl
@[simp] theorem StateOf.popResponse_taps : (s.popResponse).taps = s.taps := rfl
@[simp] theorem StateOf.popResponse_rpos : (s.popResponse).rpos = s.rpos := rfl
@[simp] theorem StateOf.popResponse_rstep : (s.popResponse).rstep = s.rstep := rfl
@[simp] theorem StateOf.popResponse_cmdq : (s.popResponse).cmdq = s.cmdq := rfl
@[simp] theorem StateOf.popResponse_rspq : (s.popResponse).rspq = s.rspq.tail := rfl
@[simp] theorem StateOf.popResponse_inq : (s.popResponse).inq = s.inq := rfl
@[simp] theorem StateOf.popResponse_outq : (s.popResponse).outq = s.outq := rfl
@[simp] theorem StateOf.popResponse_L : (s.popResponse).L = s.L := rfl
@[simp] theorem StateOf.popResponse_arbCount : (s.popResponse).arbCount = s.arbCount := rfl
@[simp] theorem StateOf.popResponse_tapsEpoch : (s.popResponse).tapsEpoch = s.tapsEpoch := rfl

/-! ## `popOutput` -/

@[simp] theorem StateOf.popOutput_fsm : (s.popOutput).fsm = s.fsm := rfl
@[simp] theorem StateOf.popOutput_deEn : (s.popOutput).deEn = s.deEn := rfl
@[simp] theorem StateOf.popOutput_prevValid : (s.popOutput).prevValid = s.prevValid := rfl
@[simp] theorem StateOf.popOutput_inbatch : (s.popOutput).inbatch = s.inbatch := rfl
@[simp] theorem StateOf.popOutput_errv : (s.popOutput).errv = s.errv := rfl
@[simp] theorem StateOf.popOutput_qrate : (s.popOutput).qrate = s.qrate := rfl
@[simp] theorem StateOf.popOutput_arate : (s.popOutput).arate = s.arate := rfl
@[simp] theorem StateOf.popOutput_maxdev : (s.popOutput).maxdev = s.maxdev := rfl
@[simp] theorem StateOf.popOutput_tau : (s.popOutput).tau = s.tau := rfl
@[simp] theorem StateOf.popOutput_gain : (s.popOutput).gain = s.gain := rfl
@[simp] theorem StateOf.popOutput_alpha : (s.popOutput).alpha = s.alpha := rfl
@[simp] theorem StateOf.popOutput_beta : (s.popOutput).beta = s.beta := rfl
@[simp] theorem StateOf.popOutput_prevI : (s.popOutput).prevI = s.prevI := rfl
@[simp] theorem StateOf.popOutput_prevQ : (s.popOutput).prevQ = s.prevQ := rfl
@[simp] theorem StateOf.popOutput_yprev : (s.popOutput).yprev = s.yprev := rfl
@[simp] theorem StateOf.popOutput_errcode : (s.popOutput).errcode = s.errcode := rfl
@[simp] theorem StateOf.popOutput_errcmdh : (s.popOutput).errcmdh = s.errcmdh := rfl
@[simp] theorem StateOf.popOutput_errcmdl : (s.popOutput).errcmdl = s.errcmdl := rfl
@[simp] theorem StateOf.popOutput_hist : (s.popOutput).hist = s.hist := rfl
@[simp] theorem StateOf.popOutput_taps : (s.popOutput).taps = s.taps := rfl
@[simp] theorem StateOf.popOutput_rpos : (s.popOutput).rpos = s.rpos := rfl
@[simp] theorem StateOf.popOutput_rstep : (s.popOutput).rstep = s.rstep := rfl
@[simp] theorem StateOf.popOutput_cmdq : (s.popOutput).cmdq = s.cmdq := rfl
@[simp] theorem StateOf.popOutput_rspq : (s.popOutput).rspq = s.rspq := rfl
@[simp] theorem StateOf.popOutput_inq : (s.popOutput).inq = s.inq := rfl
@[simp] theorem StateOf.popOutput_outq : (s.popOutput).outq = s.outq.tail := rfl
@[simp] theorem StateOf.popOutput_L : (s.popOutput).L = s.L := rfl
@[simp] theorem StateOf.popOutput_arbCount : (s.popOutput).arbCount = s.arbCount := rfl
@[simp] theorem StateOf.popOutput_tapsEpoch : (s.popOutput).tapsEpoch = s.tapsEpoch := rfl

/-! ## `hardwareReset` -/

@[simp] theorem StateOf.hardwareReset_fsm (zero : Num) : (s.hardwareReset zero).fsm = .unbuilt := rfl
@[simp] theorem StateOf.hardwareReset_deEn (zero : Num) : (s.hardwareReset zero).deEn = false := rfl
@[simp] theorem StateOf.hardwareReset_prevValid (zero : Num) : (s.hardwareReset zero).prevValid = false := rfl
@[simp] theorem StateOf.hardwareReset_inbatch (zero : Num) : (s.hardwareReset zero).inbatch = false := rfl
@[simp] theorem StateOf.hardwareReset_errv (zero : Num) : (s.hardwareReset zero).errv = false := rfl
@[simp] theorem StateOf.hardwareReset_qrate (zero : Num) : (s.hardwareReset zero).qrate = zero := rfl
@[simp] theorem StateOf.hardwareReset_arate (zero : Num) : (s.hardwareReset zero).arate = zero := rfl
@[simp] theorem StateOf.hardwareReset_maxdev (zero : Num) : (s.hardwareReset zero).maxdev = zero := rfl
@[simp] theorem StateOf.hardwareReset_tau (zero : Num) : (s.hardwareReset zero).tau = zero := rfl
@[simp] theorem StateOf.hardwareReset_gain (zero : Num) : (s.hardwareReset zero).gain = zero := rfl
@[simp] theorem StateOf.hardwareReset_alpha (zero : Num) : (s.hardwareReset zero).alpha = zero := rfl
@[simp] theorem StateOf.hardwareReset_beta (zero : Num) : (s.hardwareReset zero).beta = zero := rfl
@[simp] theorem StateOf.hardwareReset_prevI (zero : Num) : (s.hardwareReset zero).prevI = zero := rfl
@[simp] theorem StateOf.hardwareReset_prevQ (zero : Num) : (s.hardwareReset zero).prevQ = zero := rfl
@[simp] theorem StateOf.hardwareReset_yprev (zero : Num) : (s.hardwareReset zero).yprev = zero := rfl
@[simp] theorem StateOf.hardwareReset_errcode (zero : Num) : (s.hardwareReset zero).errcode = 0 := rfl
@[simp] theorem StateOf.hardwareReset_errcmdh (zero : Num) : (s.hardwareReset zero).errcmdh = 0 := rfl
@[simp] theorem StateOf.hardwareReset_errcmdl (zero : Num) : (s.hardwareReset zero).errcmdl = zero := rfl
@[simp] theorem StateOf.hardwareReset_hist (zero : Num) :
    (s.hardwareReset zero).hist = List.replicate s.L zero := rfl
@[simp] theorem StateOf.hardwareReset_taps (zero : Num) : (s.hardwareReset zero).taps = [] := rfl
@[simp] theorem StateOf.hardwareReset_rpos (zero : Num) : (s.hardwareReset zero).rpos = 0 := rfl
@[simp] theorem StateOf.hardwareReset_rstep (zero : Num) : (s.hardwareReset zero).rstep = 0 := rfl
@[simp] theorem StateOf.hardwareReset_cmdq (zero : Num) : (s.hardwareReset zero).cmdq = s.cmdq := rfl
@[simp] theorem StateOf.hardwareReset_rspq (zero : Num) : (s.hardwareReset zero).rspq = s.rspq := rfl
@[simp] theorem StateOf.hardwareReset_inq (zero : Num) : (s.hardwareReset zero).inq = s.inq := rfl
@[simp] theorem StateOf.hardwareReset_outq (zero : Num) : (s.hardwareReset zero).outq = s.outq := rfl
@[simp] theorem StateOf.hardwareReset_L (zero : Num) : (s.hardwareReset zero).L = s.L := rfl
@[simp] theorem StateOf.hardwareReset_arbCount (zero : Num) : (s.hardwareReset zero).arbCount = s.arbCount := rfl
@[simp] theorem StateOf.hardwareReset_tapsEpoch (zero : Num) :
    (s.hardwareReset zero).tapsEpoch = s.tapsEpoch + 1 := rfl

end AnyProfile

/-! ## Profile `B32` of the machine -/

@[simp] theorem b32Machine_num : b32Machine.num = b32 := rfl
@[simp] theorem b32Machine_tapsDraw (e j : Nat) : b32Machine.tapsDraw e j = Config.tapsDraw e j := rfl
@[simp] theorem b32Machine_isClear (d : Word) : b32Machine.isClear d = decide (d = 0) := rfl
@[simp] theorem b32Machine_fields (w : CmdWord) : b32Machine.fields w = commandFields w := rfl
@[simp] theorem b32Machine_pack (c : Command Word) : b32Machine.pack c = packCommand c.op c.a c.d := rfl
@[simp] theorem b32Machine_high (w : CmdWord) : b32Machine.high w = w.extractLsb' 32 32 := rfl
@[simp] theorem b32Machine_low (w : CmdWord) : b32Machine.low w = w.extractLsb' 0 32 := rfl
@[simp] theorem b32Machine_response (r : Response Word) :
    b32Machine.response r = responseWord r.code r.data.word := rfl
@[simp] theorem b32Machine_sample (x : SmpWord) : b32Machine.sample x = ⟨lastField x, qField x, iField x⟩ := rfl
@[simp] theorem Datum.word_num (v : Word) : (Datum.num v).word = v := rfl
@[simp] theorem Datum.word_bits (w : Word) : (Datum.bits w).word = w := rfl

/-- The entry of each command is its encoding (R98). -/
@[simp] theorem b32Machine_word_ldqr (d : Word) : b32Machine.word.ldqr d = encodeCommand (.ldqr d) := rfl
@[simp] theorem b32Machine_word_ldar (d : Word) : b32Machine.word.ldar d = encodeCommand (.ldar d) := rfl
@[simp] theorem b32Machine_word_lddv (d : Word) : b32Machine.word.lddv d = encodeCommand (.lddv d) := rfl
@[simp] theorem b32Machine_word_ldtc (d : Word) : b32Machine.word.ldtc d = encodeCommand (.ldtc d) := rfl
@[simp] theorem b32Machine_word_ldtap (j : Nat) (d : Word) :
    b32Machine.word.ldtap j d = encodeCommand (.ldtap j d) := rfl
@[simp] theorem b32Machine_word_build : b32Machine.word.build = encodeCommand .build := rfl
@[simp] theorem b32Machine_word_teardn : b32Machine.word.teardn = encodeCommand .teardn := rfl
@[simp] theorem b32Machine_word_rdreg (a : Nat) : b32Machine.word.rdreg a = encodeCommand (.rdreg a) := rfl
@[simp] theorem b32Machine_word_setdev (d : Word) : b32Machine.word.setdev d = encodeCommand (.setdev d) := rfl
@[simp] theorem b32Machine_word_settau (d : Word) : b32Machine.word.settau d = encodeCommand (.settau d) := rfl

/-! ## The machine's state around the state under a profile -/

@[simp] theorem State.toStateOf_launch (L : Nat) : (State.launch L).toStateOf = StateOf.launch 0 L := rfl
@[simp] theorem State.toStateOf_hardwareReset (s : State) :
    s.hardwareReset.toStateOf = s.toStateOf.hardwareReset NUM_ZERO := rfl
@[simp] theorem State.toStateOf_hostMove (s : State) (m : HostMove CmdWord SmpWord) :
    (s.hostMove m).toStateOf = s.toStateOf.hostMove NUM_ZERO m := rfl
@[simp] theorem State.mk_toStateOf (s : State) : State.mk s.toStateOf = s := rfl
@[simp] theorem OutcomeOf.toState_next (s : StateOf Word CmdWord RspWord SmpWord) :
    OutcomeOf.toState (.next s) = .next ⟨s⟩ := rfl
@[simp] theorem OutcomeOf.toState_fault (f : Fault) : OutcomeOf.toState (.fault f) = .fault f := rfl
theorem State.readTap_eq (s : State) (j : Nat) : s.readTap j = s.toStateOf.readTap b32Machine j := rfl

end Sys2Proof.Machine
end

