-- ==== Sys2Proof/Laws/Memory.lean ====
section
/-! SUPPORT. The coefficient memory: read after write, and the canonical form that every operation keeps (R42, R62,
log 3). -/

namespace Sys2Proof.Machine

variable {Num Cmd Rsp Smp : Type}

/-- The canonical form of a non-empty memory: the head's index is below all others. -/
theorem Memory.wf_cons (c : Nat × Num) (m : Memory Num) :
    Memory.wf (c :: m) ↔ (∀ x ∈ m, c.1 < x.1) ∧ Memory.wf m :=
  List.pairwise_cons

/-- A read of the cell just written answers what was written. -/
@[simp] theorem Memory.read?_write_same (m : Memory Num) (j : Nat) (d : Num) :
    Memory.read? (Memory.write m j d) j = some d := by
  induction m with
  | nil => simp [Memory.write, Memory.read?]
  | cons c m ih =>
    obtain ⟨i, v⟩ := c
    by_cases h1 : j < i
    · simp [Memory.write, Memory.read?, h1]
    · by_cases h2 : j = i
      · simp [Memory.write, Memory.read?, h2]
      · have h3 : ¬i = j := fun h => h2 h.symm
        simpa [Memory.write, Memory.read?, h1, h2, h3] using ih

/-- A write leaves every other cell alone. -/
theorem Memory.read?_write_other (m : Memory Num) (j k : Nat) (d : Num) (h : k ≠ j) :
    Memory.read? (Memory.write m j d) k = Memory.read? m k := by
  have hjk : ¬j = k := fun e => h e.symm
  induction m with
  | nil => simp [Memory.write, Memory.read?, hjk]
  | cons c m ih =>
    obtain ⟨i, v⟩ := c
    by_cases h1 : j < i
    · simp [Memory.write, Memory.read?, h1, hjk]
    · by_cases h2 : j = i
      · subst h2
        simp [Memory.write, Memory.read?, hjk]
      · simp [Memory.write, Memory.read?, if_neg h1, if_neg h2, ih]

/-- The cells listed after a write are the written one and those listed before. -/
theorem Memory.mem_write (m : Memory Num) (j : Nat) (d : Num) (c : Nat × Num)
    (h : c ∈ Memory.write m j d) : c = (j, d) ∨ c ∈ m := by
  induction m with
  | nil => simpa [Memory.write] using h
  | cons x m ih =>
    obtain ⟨i, v⟩ := x
    by_cases h1 : j < i
    · simpa [Memory.write, h1] using h
    · by_cases h2 : j = i
      · subst h2
        simp only [Memory.write, lt_irrefl, if_false, if_true, List.mem_cons] at h ⊢
        tauto
      · simp only [Memory.write, h1, h2, if_false, List.mem_cons] at h ⊢
        rcases h with h | h
        · exact Or.inr (Or.inl h)
        · rcases ih h with h | h <;> tauto

/-- A write keeps the canonical form. -/
theorem Memory.write_wf (m : Memory Num) (j : Nat) (d : Num) (h : Memory.wf m) :
    Memory.wf (Memory.write m j d) := by
  induction m with
  | nil => simp [Memory.write, Memory.wf]
  | cons x m ih =>
    obtain ⟨i, v⟩ := x
    obtain ⟨hhead, htail⟩ := (Memory.wf_cons _ _).1 h
    by_cases h1 : j < i
    · simp only [Memory.write, h1, if_true]
      refine (Memory.wf_cons _ _).2 ⟨fun c hc => ?_, h⟩
      rcases List.mem_cons.1 hc with rfl | hc
      · exact h1
      · exact lt_trans h1 (hhead c hc)
    · by_cases h2 : j = i
      · subst h2
        simp only [Memory.write, lt_irrefl, if_false, if_true]
        exact (Memory.wf_cons _ _).2 ⟨hhead, htail⟩
      · simp only [Memory.write, h1, h2, if_false]
        refine (Memory.wf_cons _ _).2 ⟨fun c hc => ?_, ih htail⟩
        rcases Memory.mem_write m j d c hc with rfl | hc
        · show i < j
          omega
        · exact hhead c hc

/-- The memory of a block at launch has the canonical form. -/
theorem launch_taps_wf (L : Nat) : Memory.wf (State.launch L).taps := List.Pairwise.nil

/-- The memory after reset has the canonical form. -/
theorem reset_taps_wf : Memory.wf State.reset.taps := launch_taps_wf _

/-- `TAPS[j]` read after `TAPS[j] <- d`. -/
@[simp] theorem StateOf.readTap_writeTap_same (P : Profile Num Cmd Rsp Smp) (s : StateOf Num Cmd Rsp Smp) (j : Nat)
    (d : Num) : (s.writeTap j d).readTap P j = d := by
  simp [StateOf.readTap]

/-- Any other cell read after `TAPS[j] <- d`. -/
theorem StateOf.readTap_writeTap_other (P : Profile Num Cmd Rsp Smp) (s : StateOf Num Cmd Rsp Smp) (j k : Nat)
    (d : Num) (h : k ≠ j) : (s.writeTap j d).readTap P k = s.readTap P k := by
  simp [StateOf.readTap, Memory.read?_write_other _ _ _ _ h]

/-- What a cell reads as depends on the written cells and on the current draw alone. -/
theorem StateOf.readTap_congr (P : Profile Num Cmd Rsp Smp) (s t : StateOf Num Cmd Rsp Smp) (h : t.taps = s.taps)
    (e : t.tapsEpoch = s.tapsEpoch) : t.readTap P = s.readTap P := by
  funext j
  simp [StateOf.readTap, h, e]

/-- The same of the machine. -/
theorem State.readTap_congr (s t : State) (h : t.taps = s.taps) (e : t.tapsEpoch = s.tapsEpoch) :
    t.readTap = s.readTap :=
  StateOf.readTap_congr b32Machine s.toStateOf t.toStateOf h e

end Sys2Proof.Machine
end

