-- ==== Sys2Proof/Laws/Ops.lean ====
section
/-! SUPPORT. What each shared operation can do, said once: the state check, the register read, the fetch, and the
answer of `exec` for every operation. The provers cite these instead of unfolding. -/

namespace Sys2Proof.Machine

/-! ## The state check (R223) -/

section AnyProfile
variable {Num Cmd Rsp Smp : Type} (P : Profile Num Cmd Rsp Smp) (s : StateOf Num Cmd Rsp Smp)

theorem StateOf.whenFsm_of_eq (need : Fsm) (w : Cmd) (t : StateOf Num Cmd Rsp Smp) (h : s.fsm = need) :
    s.whenFsm P need w t = t := if_pos h

theorem StateOf.whenFsm_of_ne (need : Fsm) (w : Cmd) (t : StateOf Num Cmd Rsp Smp) (h : s.fsm ≠ need) :
    s.whenFsm P need w t = s.reject P .state w := if_neg h

/-- A state-checked command does what it is permitted to do or is rejected with `E_STATE`. -/
theorem StateOf.whenFsm_cases (need : Fsm) (w : Cmd) (t : StateOf Num Cmd Rsp Smp) :
    (s.fsm = need ∧ s.whenFsm P need w t = t) ∨
      (s.fsm ≠ need ∧ s.whenFsm P need w t = s.reject P .state w) := by
  by_cases h : s.fsm = need
  · exact Or.inl ⟨h, s.whenFsm_of_eq P _ _ _ h⟩
  · exact Or.inr ⟨h, s.whenFsm_of_ne P _ _ _ h⟩

end AnyProfile

/-! ## Registers (R40, R61) -/

@[simp] theorem Csr.ofAddr?_addr (r : Csr) : Csr.ofAddr? r.addr = some r := by cases r <;> rfl

theorem Csr.addr_le (r : Csr) : r.addr ≤ 0x12 := by cases r <;> decide

/-- The register found at an address has that address. -/
theorem Csr.addr_of_ofAddr? (a : Nat) (r : Csr) (h : Csr.ofAddr? a = some r) : r.addr = a := by
  unfold Csr.ofAddr? at h
  split at h <;> simp_all [Csr.addr] <;> subst h <;> rfl

/-- Above `0x12` there is no register. -/
theorem Csr.ofAddr?_none (a : Nat) (h : 0x12 < a) : Csr.ofAddr? a = none := by
  cases e : Csr.ofAddr? a with
  | none => rfl
  | some r =>
    have h1 := Csr.addr_of_ofAddr? a r e
    have h2 := r.addr_le
    omega

/-- Up to `0x12` there is one. -/
theorem Csr.ofAddr?_isSome (a : Nat) (h : a ≤ 0x12) : (Csr.ofAddr? a).isSome = true := by
  interval_cases a <;> rfl

/-! ## Fetch (R186 to R188) -/

section AnyProfile
variable {Num Cmd Rsp Smp : Type} (P : Profile Num Cmd Rsp Smp) (s : StateOf Num Cmd Rsp Smp)

theorem StateOf.commandHead?_some (w : Cmd) (h : s.commandHead? = some w) :
    s.inbatch = false ∧ s.cmdq = w :: s.cmdq.tail := by
  unfold StateOf.commandHead? at h
  cases hb : s.inbatch <;> simp [hb] at h ⊢
  cases hq : s.cmdq with
  | nil => simp [hq] at h
  | cons x xs => simp_all

theorem StateOf.sampleHead?_some (w : Smp) (h : s.sampleHead? = some w) :
    s.fsm = .run ∧ s.inq = w :: s.inq.tail := by
  unfold StateOf.sampleHead? at h
  by_cases hb : s.fsm = .run
  · simp [hb] at h ⊢
    cases hq : s.inq with
    | nil => simp [hq] at h
    | cons x xs => simp_all
  · simp [hb] at h

/-- What a step can take: nothing, the head command, or the head sample; a choice of `ARB` is drawn exactly where both
are enabled. -/
theorem StateOf.fetch_cases :
    (s.commandHead? = none ∧ s.sampleHead? = none ∧ s.fetch = .idle) ∨
    (∃ w, s.commandHead? = some w ∧ s.sampleHead? = none ∧ s.fetch = .command w s.popCommand) ∨
    (∃ x, s.commandHead? = none ∧ s.sampleHead? = some x ∧ s.fetch = .sample x s.popSample) ∨
    (∃ w x, s.commandHead? = some w ∧ s.sampleHead? = some x ∧ Config.arb s.arbCount = true ∧
      s.fetch = .command w s.popCommand.drawArb) ∨
    (∃ w x, s.commandHead? = some w ∧ s.sampleHead? = some x ∧ Config.arb s.arbCount = false ∧
      s.fetch = .sample x s.popSample.drawArb) := by
  unfold StateOf.fetch
  cases hc : s.commandHead? <;> cases hx : s.sampleHead? <;> simp

end AnyProfile

/-- What the machine takes, in the same five cases. -/
theorem State.fetch_cases (s : State) :
    (s.commandHead? = none ∧ s.sampleHead? = none ∧ s.fetch = .idle) ∨
    (∃ w, s.commandHead? = some w ∧ s.sampleHead? = none ∧ s.fetch = .command w ⟨s.popCommand⟩) ∨
    (∃ x, s.commandHead? = none ∧ s.sampleHead? = some x ∧ s.fetch = .sample x ⟨s.popSample⟩) ∨
    (∃ w x, s.commandHead? = some w ∧ s.sampleHead? = some x ∧ Config.arb s.arbCount = true ∧
      s.fetch = .command w ⟨s.popCommand.drawArb⟩) ∨
    (∃ w x, s.commandHead? = some w ∧ s.sampleHead? = some x ∧ Config.arb s.arbCount = false ∧
      s.fetch = .sample x ⟨s.popSample.drawArb⟩) := by
  unfold State.fetch
  rcases s.toStateOf.fetch_cases with ⟨h1, h2, e⟩ | ⟨w, h1, h2, e⟩ | ⟨x, h1, h2, e⟩ | ⟨w, x, h1, h2, h3, e⟩ |
    ⟨w, x, h1, h2, h3, e⟩ <;> rw [e]
  · exact Or.inl ⟨h1, h2, rfl⟩
  · exact Or.inr (Or.inl ⟨w, h1, h2, rfl⟩)
  · exact Or.inr (Or.inr (Or.inl ⟨x, h1, h2, rfl⟩))
  · exact Or.inr (Or.inr (Or.inr (Or.inl ⟨w, x, h1, h2, h3, rfl⟩)))
  · exact Or.inr (Or.inr (Or.inr (Or.inr ⟨w, x, h1, h2, h3, rfl⟩)))

/-- What a step can be: idle, a rejected illegal word, or `exec` of the decoded operation, each from the state after its
word has left the queue. -/
theorem step_cases (s : State) :
    (s.fetch = .idle ∧ step s = .next s) ∨
    (∃ w t, s.fetch = .command w t ∧
      ((∃ i, decodeCommand w = .ok i ∧ step s = exec i t) ∨
        (∃ e, decodeCommand w = .error e ∧ step s = .next ⟨t.toStateOf.reject b32Machine .illegal w⟩))) ∨
    (∃ w t, s.fetch = .sample w t ∧ step s = exec (decodeSample w) t) := by
  unfold step
  cases s.fetch with
  | idle => exact Or.inl ⟨rfl, rfl⟩
  | command w t =>
    refine Or.inr (Or.inl ⟨w, t, rfl, ?_⟩)
    simp only [runFetched, runCommandWord]
    cases decodeCommand w with
    | ok i => exact Or.inl ⟨i, rfl, rfl⟩
    | error e => exact Or.inr ⟨e, rfl, rfl⟩
  | sample w t => exact Or.inr (Or.inr ⟨w, t, rfl, rfl⟩)

/-! ## The meanings under any profile -/

section AnyProfile
variable {Num Cmd Rsp Smp : Type} (P : Profile Num Cmd Rsp Smp) (s : StateOf Num Cmd Rsp Smp)

/-- A sample answers the pipeline's state, or the one fault where the scheduler is invalid. -/
theorem StateOf.runSample_cases (last : Bool) (i q : Num) :
    (s.schedulerValid = true ∧ s.runSample P last i q = .next (s.applySample P last i q)) ∨
      (s.schedulerValid = false ∧ s.runSample P last i q = .fault .schedulerInvalid) := by
  unfold StateOf.runSample
  cases h : s.schedulerValid <;> simp

/-- What a load can do, for any of the four: it loads and accepts, or is rejected for the state. -/
theorem StateOf.ldqr_cases (d : Num) :
    (s.fsm = .unbuilt ∧ s.ldqr P d = (s.setQrate d).accept P) ∨ ∃ c, s.ldqr P d = s.reject P c (P.word.ldqr d) :=
  (s.whenFsm_cases P _ _ _).imp id fun h => ⟨_, h.2⟩

theorem StateOf.ldar_cases (d : Num) :
    (s.fsm = .unbuilt ∧ s.ldar P d = (s.setArate d).accept P) ∨ ∃ c, s.ldar P d = s.reject P c (P.word.ldar d) :=
  (s.whenFsm_cases P _ _ _).imp id fun h => ⟨_, h.2⟩

theorem StateOf.lddv_cases (d : Num) :
    (s.fsm = .unbuilt ∧ s.lddv P d = (s.setMaxdev d).accept P) ∨ ∃ c, s.lddv P d = s.reject P c (P.word.lddv d) :=
  (s.whenFsm_cases P _ _ _).imp id fun h => ⟨_, h.2⟩

theorem StateOf.ldtc_cases (d : Num) :
    (s.fsm = .unbuilt ∧ s.ldtc P d = (s.setTau d).accept P) ∨ ∃ c, s.ldtc P d = s.reject P c (P.word.ldtc d) :=
  (s.whenFsm_cases P _ _ _).imp id fun h => ⟨_, h.2⟩

/-- What `LDTAP` can do. -/
theorem StateOf.ldtap_cases (j : Nat) (d : Num) :
    (s.fsm = .unbuilt ∧ j < s.tapCells ∧ s.ldtap P j d = (s.writeTap j d).accept P) ∨
      ∃ c, s.ldtap P j d = s.reject P c (P.word.ldtap j d) := by
  unfold StateOf.ldtap
  rcases s.whenFsm_cases P .unbuilt (P.word.ldtap j d) _ with ⟨h, e⟩ | ⟨-, e⟩ <;> rw [e]
  · by_cases hj : s.tapCells ≤ j
    · exact Or.inr ⟨_, if_pos hj⟩
    · exact Or.inl ⟨h, Nat.lt_of_not_le hj, if_neg hj⟩
  · exact Or.inr ⟨_, rfl⟩

/-- What `BUILD` can do. -/
theorem StateOf.build_cases :
    (s.fsm = .unbuilt ∧ configError? P.num s.qrate s.arate s.maxdev s.tau = none ∧
        s.build P = (s.applyBuild P).accept P) ∨
      ∃ c, s.build P = s.reject P c P.word.build := by
  unfold StateOf.build
  rcases s.whenFsm_cases P .unbuilt P.word.build _ with ⟨h, e⟩ | ⟨-, e⟩ <;> rw [e]
  · cases hc : configError? P.num s.qrate s.arate s.maxdev s.tau with
    | none => exact Or.inl ⟨h, rfl, rfl⟩
    | some c => exact Or.inr ⟨c, rfl⟩
  · exact Or.inr ⟨_, rfl⟩

/-- What `RDREG` can do. -/
theorem StateOf.rdreg_cases (a : Nat) :
    (∃ r, Csr.ofAddr? a = some r ∧ s.rdreg P a = s.respond P (s.csrValue P r)) ∨
      ∃ c, s.rdreg P a = s.reject P c (P.word.rdreg a) := by
  unfold StateOf.rdreg StateOf.csrRead?
  cases Csr.ofAddr? a with
  | none => exact Or.inr ⟨_, rfl⟩
  | some r => exact Or.inl ⟨r, rfl, rfl⟩

/-- What `SETDEV` can do. -/
theorem StateOf.setdev_cases (d : Num) :
    (s.fsm = .run ∧ validPositive P.num d = true ∧ s.setdev P d = (s.applySetdev P d).accept P) ∨
      ∃ c, s.setdev P d = s.reject P c (P.word.setdev d) := by
  unfold StateOf.setdev
  rcases s.whenFsm_cases P .run (P.word.setdev d) _ with ⟨h, e⟩ | ⟨-, e⟩ <;> rw [e]
  · cases hd : validPositive P.num d with
    | true => exact Or.inl ⟨h, rfl, rfl⟩
    | false => exact Or.inr ⟨_, rfl⟩
  · exact Or.inr ⟨_, rfl⟩

/-- What `SETTAU` can do. -/
theorem StateOf.settau_cases (d : Num) :
    (s.fsm = .run ∧ P.num.isFinite d = true ∧ s.settau P d = (s.applySettau P d).accept P) ∨
      ∃ c, s.settau P d = s.reject P c (P.word.settau d) := by
  unfold StateOf.settau
  rcases s.whenFsm_cases P .run (P.word.settau d) _ with ⟨h, e⟩ | ⟨-, e⟩ <;> rw [e]
  · cases hd : P.num.isFinite d with
    | true => exact Or.inl ⟨h, rfl, rfl⟩
    | false => exact Or.inr ⟨_, rfl⟩
  · exact Or.inr ⟨_, rfl⟩

end AnyProfile

/-! ## The answers of `exec` -/

/-- The next states of a command: accepted with its own update and a response, or rejected for a cause. -/
theorem exec_command_cases (i : Instr) (s : State) (hi : i.isCommand = true) :
    ∃ t : StateOf Word CmdWord RspWord SmpWord, exec i s = .next ⟨t⟩ ∧
      ((∃ c, t = s.reject b32Machine c (encodeCommand i)) ∨
        (∃ d, i = .ldqr d ∧ s.fsm = .unbuilt ∧ t = (s.setQrate d).accept b32Machine) ∨
        (∃ d, i = .ldar d ∧ s.fsm = .unbuilt ∧ t = (s.setArate d).accept b32Machine) ∨
        (∃ d, i = .lddv d ∧ s.fsm = .unbuilt ∧ t = (s.setMaxdev d).accept b32Machine) ∨
        (∃ d, i = .ldtc d ∧ s.fsm = .unbuilt ∧ t = (s.setTau d).accept b32Machine) ∨
        (∃ j d, i = .ldtap j d ∧ s.fsm = .unbuilt ∧ j < s.tapCells ∧ t = (s.writeTap j d).accept b32Machine) ∨
        (i = .build ∧ s.fsm = .unbuilt ∧ configError? b32 s.qrate s.arate s.maxdev s.tau = none ∧
          t = (s.applyBuild b32Machine).accept b32Machine) ∨
        (i = .teardn ∧ t = (s.applyTeardn b32Machine).accept b32Machine) ∨
        (∃ a r, i = .rdreg a ∧ Csr.ofAddr? a = some r ∧
          t = s.respond b32Machine (s.csrValue b32Machine r)) ∨
        (∃ d, i = .setdev d ∧ s.fsm = .run ∧ validPositive b32 d = true ∧
          t = (s.applySetdev b32Machine d).accept b32Machine) ∨
        (∃ d, i = .settau d ∧ s.fsm = .run ∧ isfinite d = true ∧
          t = (s.applySettau b32Machine d).accept b32Machine)) := by
  cases i with
  | ldqr d =>
    refine ⟨_, rfl, ?_⟩
    rcases s.toStateOf.ldqr_cases b32Machine d with ⟨h, e⟩ | ⟨c, e⟩
    · exact Or.inr (Or.inl ⟨d, rfl, h, e⟩)
    · exact Or.inl ⟨c, e⟩
  | ldar d =>
    refine ⟨_, rfl, ?_⟩
    rcases s.toStateOf.ldar_cases b32Machine d with ⟨h, e⟩ | ⟨c, e⟩
    · exact Or.inr (Or.inr (Or.inl ⟨d, rfl, h, e⟩))
    · exact Or.inl ⟨c, e⟩
  | lddv d =>
    refine ⟨_, rfl, ?_⟩
    rcases s.toStateOf.lddv_cases b32Machine d with ⟨h, e⟩ | ⟨c, e⟩
    · exact Or.inr (Or.inr (Or.inr (Or.inl ⟨d, rfl, h, e⟩)))
    · exact Or.inl ⟨c, e⟩
  | ldtc d =>
    refine ⟨_, rfl, ?_⟩
    rcases s.toStateOf.ldtc_cases b32Machine d with ⟨h, e⟩ | ⟨c, e⟩
    · exact Or.inr (Or.inr (Or.inr (Or.inr (Or.inl ⟨d, rfl, h, e⟩))))
    · exact Or.inl ⟨c, e⟩
  | ldtap j d =>
    refine ⟨_, rfl, ?_⟩
    rcases s.toStateOf.ldtap_cases b32Machine j d with ⟨h, hj, e⟩ | ⟨c, e⟩
    · exact Or.inr (Or.inr (Or.inr (Or.inr (Or.inr (Or.inl ⟨j, d, rfl, h, hj, e⟩)))))
    · exact Or.inl ⟨c, e⟩
  | build =>
    refine ⟨_, rfl, ?_⟩
    rcases s.toStateOf.build_cases b32Machine with ⟨h, hc, e⟩ | ⟨c, e⟩
    · exact Or.inr (Or.inr (Or.inr (Or.inr (Or.inr (Or.inr (Or.inl ⟨rfl, h, hc, e⟩))))))
    · exact Or.inl ⟨c, e⟩
  | teardn =>
    exact ⟨_, rfl, Or.inr (Or.inr (Or.inr (Or.inr (Or.inr (Or.inr (Or.inr (Or.inl ⟨rfl, rfl⟩)))))))⟩
  | rdreg a =>
    refine ⟨_, rfl, ?_⟩
    rcases s.toStateOf.rdreg_cases b32Machine a with ⟨r, hr, e⟩ | ⟨c, e⟩
    · exact Or.inr (Or.inr (Or.inr (Or.inr (Or.inr (Or.inr (Or.inr (Or.inr (Or.inl ⟨a, r, rfl, hr, e⟩))))))))
    · exact Or.inl ⟨c, e⟩
  | setdev d =>
    refine ⟨_, rfl, ?_⟩
    rcases s.toStateOf.setdev_cases b32Machine d with ⟨h, hd, e⟩ | ⟨c, e⟩
    · exact Or.inr (Or.inr (Or.inr (Or.inr (Or.inr (Or.inr (Or.inr (Or.inr (Or.inr
        (Or.inl ⟨d, rfl, h, hd, e⟩)))))))))
    · exact Or.inl ⟨c, e⟩
  | settau d =>
    refine ⟨_, rfl, ?_⟩
    rcases s.toStateOf.settau_cases b32Machine d with ⟨h, hd, e⟩ | ⟨c, e⟩
    · exact Or.inr (Or.inr (Or.inr (Or.inr (Or.inr (Or.inr (Or.inr (Or.inr (Or.inr
        (Or.inr ⟨d, rfl, h, hd, e⟩)))))))))
    · exact Or.inl ⟨c, e⟩
  | sample i q => cases hi
  | samplec i q => cases hi

/-- The answers of a sample: the pipeline's state with its `LAST` bit, or the one fault. -/
theorem exec_sample_cases (i : Instr) (s : State) (hi : i.isCommand = false) :
    ∃ last x y, (i = if last then .sample x y else .samplec x y) ∧
      exec i s = OutcomeOf.toState (s.toStateOf.runSample b32Machine last x y) := by
  cases i <;> first | (cases hi; done) | skip
  · rename_i x y
    exact ⟨true, x, y, rfl, rfl⟩
  · rename_i x y
    exact ⟨false, x, y, rfl, rfl⟩

/-! ## The machine is the block under profile `B32` (R9) -/

/-- The decoder finds for a word an operation and its meaning together, or neither. -/
theorem decodeCommand_alike (w : CmdWord) :
    DecodesAlike (fun i f => ∀ t : State, exec i t = .next ⟨f t.toStateOf⟩) (decodeCommand w)
      (decodeFields (meanings b32Machine) (commandFields w) (decide (dField w = 0))) :=
  decodeFields_alike _ instructions (meanings b32Machine)
    (fun _ => ⟨fun _ => rfl, fun _ => rfl, fun _ => rfl, fun _ => rfl, fun _ => rfl, fun _ => rfl⟩)
    (fun _ => ⟨fun _ => rfl, fun _ _ => rfl⟩) (fun _ => rfl) (fun _ => rfl) _ _

/-- Every step of the machine is the step that any profile has, at `B32`. -/
theorem step_eq_profile_step (s : State) : step s = OutcomeOf.toState (s.toStateOf.step b32Machine) := by
  unfold step State.fetch StateOf.step
  cases s.toStateOf.fetch with
  | idle => rfl
  | command w t =>
    have h := decodeCommand_alike w
    simp only [runFetched, runCommandWord, OutcomeOf.toState_next, StateOf.runCommand, b32Machine_fields,
      b32Machine_isClear]
    change DecodesAlike _ _ (decodeFields _ _ (decide ((commandFields w).d = 0))) at h
    cases hi : decodeCommand w <;>
      cases hf : decodeFields (meanings b32Machine) (commandFields w) (decide ((commandFields w).d = 0)) <;>
        rw [hi, hf] at h <;> simp_all [DecodesAlike]
  | sample x t =>
    simp only [runFetched, runSampleWord, b32Machine_sample]
    rcases decodeSample_cases x with ⟨h, e⟩ | ⟨h, e⟩ <;> rw [e, h] <;> rfl

end Sys2Proof.Machine
end

