-- ==== Sys2Proof/Laws/PerInstr.lean ====
section
/-! SUPPORT. Statements for all operations, one lemma per constructor of `Instr`. -/

namespace Sys2Proof

theorem packCommand_and (op op' : BitVec 8) (a a' : BitVec 24) (d d' : Word) :
    packCommand op a d &&& packCommand op' a' d' = packCommand (op &&& op') (a &&& a') (d &&& d') := by
  show (op ++ a ++ d : BitVec (8 + 24 + 32)) &&& (op' ++ a' ++ d') = _
  rw [BitVec.and_append, BitVec.and_append]
  rfl

theorem packSample_and (l l' : Bool) (q q' i i' : Word) :
    packSample l q i &&& packSample l' q' i' = packSample (l && l') (q &&& q') (i &&& i') := by
  show (BitVec.ofBool l ++ q ++ i : BitVec (1 + 32 + 32)) &&& (BitVec.ofBool l' ++ q' ++ i') = _
  rw [BitVec.and_append, BitVec.and_append, BitVec.ofBool_and_ofBool]
  rfl

/-- A packed command under a packed mask, as numbers. -/
theorem packCommand_mask (op mop rop : BitVec 8) (a ma ra : BitVec 24) (d md rd : Word) (m r : Nat)
    (hm : (packCommand mop ma md).toNat = m) (hr : (packCommand rop ra rd).toNat = r)
    (ho : op &&& mop = rop) (ha : a &&& ma = ra) (hd : d &&& md = rd) :
    (packCommand op a d).toNat &&& m = r := by
  rw [← hm, ← BitVec.toNat_and, packCommand_and, ho, ha, hd, hr]

/-- A packed sample under a packed mask, as numbers. -/
theorem packSample_mask (l ml rl : Bool) (q mq rq i mi ri : Word) (m r : Nat)
    (hm : (packSample ml mq mi).toNat = m) (hr : (packSample rl rq ri).toNat = r)
    (ho : (l && ml) = rl) (ha : q &&& mq = rq) (hd : i &&& mi = ri) :
    (packSample l q i).toNat &&& m = r := by
  rw [← hm, ← BitVec.toNat_and, packSample_and, ho, ha, hd, hr]

namespace Laws.EncodedInRow

/-- R98: the word of an operation lies in the operation's row of the opcode map. -/
def Statement (i : Instr) : Prop := (encode i).bits &&& (opcodeRow i).1 = (opcodeRow i).2

theorem ldqr (d : Word) : Statement (.ldqr d) :=
  packCommand_mask 0x01 0xFF 0x01 0 0xFFFFFF 0 d 0 0 _ _ rfl rfl rfl rfl (by simp)

theorem ldar (d : Word) : Statement (.ldar d) :=
  packCommand_mask 0x02 0xFF 0x02 0 0xFFFFFF 0 d 0 0 _ _ rfl rfl rfl rfl (by simp)

theorem lddv (d : Word) : Statement (.lddv d) :=
  packCommand_mask 0x03 0xFF 0x03 0 0xFFFFFF 0 d 0 0 _ _ rfl rfl rfl rfl (by simp)

theorem ldtc (d : Word) : Statement (.ldtc d) :=
  packCommand_mask 0x04 0xFF 0x04 0 0xFFFFFF 0 d 0 0 _ _ rfl rfl rfl rfl (by simp)

theorem ldtap (j : Nat) (d : Word) : Statement (.ldtap j d) :=
  packCommand_mask 0x05 0xFF 0x05 (BitVec.ofNat 24 j) 0 0 d 0 0 _ _ rfl rfl rfl (by simp) (by simp)

theorem build : Statement .build := rfl

theorem teardn : Statement .teardn := rfl

theorem rdreg (a : Nat) : Statement (.rdreg a) :=
  packCommand_mask 0x08 0xFF 0x08 (BitVec.ofNat 24 a) 0 0 0 0xFFFFFFFF 0 _ _ rfl rfl rfl (by simp) rfl

theorem setdev (d : Word) : Statement (.setdev d) :=
  packCommand_mask 0x10 0xFF 0x10 0 0xFFFFFF 0 d 0 0 _ _ rfl rfl rfl rfl (by simp)

theorem settau (d : Word) : Statement (.settau d) :=
  packCommand_mask 0x11 0xFF 0x11 0 0xFFFFFF 0 d 0 0 _ _ rfl rfl rfl rfl (by simp)

theorem sample (i q : Word) : Statement (.sample i q) :=
  packSample_mask true true true q 0 0 i 0 0 _ _ rfl rfl rfl (by simp) (by simp)

theorem samplec (i q : Word) : Statement (.samplec i q) :=
  packSample_mask false true false q 0 0 i 0 0 _ _ rfl rfl rfl (by simp) (by simp)

end Laws.EncodedInRow

end Sys2Proof
end

