-- ==== Sys2Proof/Laws/Resample.lean ====
section
/-! SUPPORT. What the scheduler's loop does (R170), and the sizes of the delay line (R41). -/

namespace Sys2Proof.Machine

/-- What the loop of R170 can do: `k` turns, each at the next position below 32, and either the fuel is used up or the
loop's condition has become false. -/
theorem scheduleLoop_cases (rstep : Rat) (fuel : Nat) (rpos : Rat) :
    ∃ k, k ≤ fuel ∧
      scheduleLoop rstep fuel rpos = ((List.range k).map fun j : Nat => rpos + (j : Rat) * rstep, rpos + k * rstep) ∧
      (∀ j : Nat, j < k → rpos + j * rstep < Config.NPH) ∧
      (k < fuel → (Config.NPH : Rat) ≤ rpos + k * rstep) := by
  induction fuel generalizing rpos with
  | zero => exact ⟨0, le_rfl, by simp [scheduleLoop], by simp, by simp⟩
  | succ fuel ih =>
    by_cases h : rpos < Config.NPH
    · obtain ⟨k, hk, he, hlt, hge⟩ := ih (rpos + rstep)
      have shift (j : Nat) : rpos + rstep + (j : Rat) * rstep = rpos + ((j + 1 : Nat) : Rat) * rstep := by
        push_cast
        ring
      refine ⟨k + 1, by omega, ?_, ?_, ?_⟩
      · simp only [scheduleLoop, if_pos h, he, List.range_succ_eq_map, List.map_cons, List.map_map]
        refine Prod.ext (List.cons_eq_cons.2 ⟨by simp, ?_⟩) (shift k)
        exact List.map_congr_left fun j _ => shift j
      · intro j hj
        cases j with
        | zero => simpa using h
        | succ j => rw [← shift]; exact hlt j (by omega)
      · intro hkf
        rw [← shift]
        exact hge (by omega)
    · exact ⟨0, by omega, by simp [scheduleLoop, h], by simp, fun _ => by simpa using le_of_not_gt h⟩

/-- The fuel given is enough: after as many turns the loop's condition is false. -/
theorem loopCount_enough (rpos rstep : Rat) (h : 0 < rstep) :
    (Config.NPH : Rat) ≤ rpos + loopCount rpos rstep * rstep := by
  have h1 : ((Config.NPH : Rat) - rpos) / rstep ≤ (loopCount rpos rstep : Rat) := by
    unfold loopCount
    refine le_trans Rat.le_ceil ?_
    have h2 : (((Config.NPH : Rat) - rpos) / rstep).ceil ≤
        ((((Config.NPH : Rat) - rpos) / rstep).ceil.toNat : Int) := Int.self_le_toNat _
    exact_mod_cast h2
  rw [div_le_iff₀ h] at h1
  linarith

/-- The loop ends because its condition is false, not for want of fuel. -/
theorem scheduleLoop_ends (rpos rstep : Rat) (h : 0 < rstep) :
    (Config.NPH : Rat) ≤ (scheduleLoop rstep (loopCount rpos rstep) rpos).2 := by
  obtain ⟨k, hk, he, -, hge⟩ := scheduleLoop_cases rstep (loopCount rpos rstep) rpos
  rw [he]
  rcases Nat.lt_or_ge k (loopCount rpos rstep) with hlt | hle
  · exact hge hlt
  · have : k = loopCount rpos rstep := by omega
    rw [this]
    exact loopCount_enough rpos rstep h

/-! ## The delay line -/

@[simp] theorem shiftIn_length {α : Type} (e : α) (hist : List α) (L : Nat) (h : hist.length = L) :
    (shiftIn e hist L).length = L := by
  simp [shiftIn, h]

/-- The newest sample is at index 0 (R41). -/
theorem shiftIn_head {α : Type} (e : α) (hist : List α) (L : Nat) (h : 1 ≤ L) :
    (shiftIn e hist L).head? = some e := by
  cases L with
  | zero => omega
  | succ L => simp [shiftIn]

/-! ## Rows (R165, R166) -/

@[simp] theorem nextTap_of_lt {α : Type} (P : Config.NumProfile α) (tap : Nat → α) (L p k : Nat) (h : p < 31) :
    nextTap P tap L p k = armTap tap (p + 1) k := if_pos h

theorem nextTap_wrap {α : Type} (P : Config.NumProfile α) (tap : Nat → α) (L k : Nat) :
    nextTap P tap L 31 k = if k + 1 < L then armTap tap 0 (k + 1) else P.zero := by
  simp [nextTap, armTap]

theorem interp_zero {α : Type} (P : Config.NumProfile α) (tap : Nat → α) (hist : List α) (L p : Nat) :
    interp P tap hist L p 0 = fir P tap hist L p := if_pos rfl

theorem interp_of_ne {α : Type} (P : Config.NumProfile α) (tap : Nat → α) (hist : List α) (L p : Nat) (mu : Rat)
    (h : mu ≠ 0) :
    interp P tap hist L p mu =
      P.add (fir P tap hist L p) (P.mul (P.ofRat mu) (P.sub (firn P tap hist L p) (fir P tap hist L p))) :=
  if_neg h

/-- The number of outputs does not depend on the taps or on the samples. -/
theorem resampOutputs_length {α : Type} (P : Config.NumProfile α) (tap : Nat → α) (hist : List α) (L : Nat)
    (rpos rstep : Rat) :
    (resampOutputs P tap hist L rpos rstep).length = (outputPositions rpos rstep).length := by
  simp [resampOutputs]

end Sys2Proof.Machine
end

