-- ==== Sys2Proof/Laws/Stages.lean ====
section
/-! SUPPORT. What the two stages before the rate converter can do (R131, R146), the gain formula and the filter
coefficient, and the small lemmas of the record `ideal`. -/

namespace Sys2Proof.Machine

section AnyProfile
variable {α : Type} (P : Config.NumProfile α)

/-- What `DEMOD` can do: nothing for a zero-magnitude sample, prime the state, or measure the phase difference. -/
theorem demod_cases (gain pI pQ : α) (pv : Bool) (i q : α) :
    ((P.isZero i && P.isZero q) = true ∧ demod P gain pI pQ pv i q = ⟨P.zero, pI, pQ, pv⟩) ∨
    ((P.isZero i && P.isZero q) = false ∧ pv = false ∧ demod P gain pI pQ pv i q = ⟨P.zero, i, q, true⟩) ∨
    ((P.isZero i && P.isZero q) = false ∧ pv = true ∧
      demod P gain pI pQ pv i q =
        ⟨P.mul gain (dphi P (demodRe P i q pI pQ) (demodIm P i q pI pQ)), i, q, true⟩) := by
  unfold demod prevValidFlag
  cases P.isZero i && P.isZero q <;> cases pv <;> simp

/-- What the phase difference is: zero, `NUM_PI`, or the angle. -/
theorem dphi_cases (re im : α) :
    ((P.isZero re && P.isZero im) = true ∧ dphi P re im = P.zero) ∨
    ((P.isZero re && P.isZero im) = false ∧ (P.isZero im && P.lt re P.zero) = true ∧ dphi P re im = P.pi) ∨
    ((P.isZero re && P.isZero im) = false ∧ (P.isZero im && P.lt re P.zero) = false ∧
      dphi P re im = P.atan2 im re) := by
  unfold dphi
  cases P.isZero re && P.isZero im <;> cases P.isZero im && P.lt re P.zero <;> simp

@[simp] theorem deemph_bypass (alpha beta yprev x : α) :
    deemph P false alpha beta yprev x = (x, yprev) := rfl

@[simp] theorem deemph_active (alpha beta yprev x : α) :
    deemph P true alpha beta yprev x =
      (deemphStep P alpha beta yprev x, deemphStep P alpha beta yprev x) := rfl

theorem decoef_bypass (tau fs : α) (h : P.gt0 tau = false) : decoef P tau fs = ⟨false, P.one, P.zero⟩ := by
  simp [decoef, deEnFlag, h]

theorem decoef_active (tau fs : α) (h : P.gt0 tau = true) :
    decoef P tau fs = ⟨true, decoefAlpha P tau fs, P.sub P.one (decoefAlpha P tau fs)⟩ := by
  simp [decoef, deEnFlag, h]

/-- `DE_EN` is the sign of the time constant (R28). -/
@[simp] theorem decoef_en (tau fs : α) : (decoef P tau fs).en = P.gt0 tau := by
  cases h : P.gt0 tau
  · rw [decoef_bypass P tau fs h]
  · rw [decoef_active P tau fs h]

end AnyProfile

/-! ## The angle off and on the axes (U7) -/

theorem fatan2_zero_right (y x : Word) (hy : isfinite y = true) (hx : isfinite x = true) (h0 : iszero y = true)
    (h1 : fgt0 x = true) : fatan2 y x = y := by
  simp [fatan2, hy, hx, h0, h1]

theorem fatan2_axis (y x : Word) (hy : isfinite y = true) (hx : isfinite x = true) (h0 : iszero y = false)
    (h1 : iszero x = true) : fatan2 y x = withSign (fsign y) (fmag NUM_HALF_PI) := by
  simp [fatan2, hy, hx, h0, h1]

theorem fatan2_general (y x : Word) (hy : isfinite y = true) (hx : isfinite x = true) (h0 : iszero y = false)
    (h1 : iszero x = false) :
    fatan2 y x = withSign (fsign y)
      (min (Config.atan2Mag (normSignificand y) (normSignificand x) (normExponent y - normExponent x) (fsign x))
        (fmag NUM_PI)) := by
  simp [fatan2, hy, hx, h0, h1]

/-- On the negative axis the angle is some pattern within `NUM_PI`. -/
theorem fatan2_negativeAxis (y x : Word) (hy : isfinite y = true) (hx : isfinite x = true) (h0 : iszero y = true)
    (h1 : fgt0 x = false) (h2 : iszero x = false) :
    fatan2 y x = negativeAxis (Config.atan2NegativeAxis (fsign y) (normSignificand x)) := by
  simp [fatan2, hy, hx, h0, h1, h2]

/-- A pattern made for the negative axis is within `NUM_PI`. -/
theorem fmag_negativeAxis_le (free : Word) : fmag (negativeAxis free) ≤ fmag NUM_PI := by
  rw [negativeAxis, fmag_withSign]
  exact le_trans (Nat.mod_le _ _) (Nat.min_le_right _ _)

/-! ## The value of a real number (R14) -/

/-- The exact rational value of a rational number. -/
@[simp] theorem idealVal_ratCast (q : Rat) : idealVal (q : ℝ) = q := by
  have h : ∃ p : Rat, (p : ℝ) = (q : ℝ) := ⟨q, rfl⟩
  rw [idealVal, dif_pos h]
  exact_mod_cast h.choose_spec

/-- The value of a positive number is positive, be it rational or not. -/
theorem idealVal_pos (r : ℝ) (hr : 0 < r) : 0 < idealVal r := by
  by_cases h : ∃ q : Rat, (q : ℝ) = r
  · obtain ⟨q, rfl⟩ := h
    rw [idealVal_ratCast]
    exact_mod_cast hr
  · rw [idealVal, dif_neg h, if_pos hr, Rat.mkRat_eq_div]
    positivity

/-! ## The record `ideal` -/

@[simp] theorem ideal_zero : ideal.zero = 0 := rfl
@[simp] theorem ideal_one : ideal.one = 1 := rfl
@[simp] theorem ideal_half : ideal.half = 1 / 2 := rfl
@[simp] theorem ideal_tenth : ideal.tenth = 1 / 10 := rfl
@[simp] theorem ideal_pi : ideal.pi = Real.pi := rfl
@[simp] theorem ideal_twoPi : ideal.twoPi = 2 * Real.pi := rfl
@[simp] theorem ideal_add (a b : ℝ) : ideal.add a b = a + b := rfl
@[simp] theorem ideal_sub (a b : ℝ) : ideal.sub a b = a - b := rfl
@[simp] theorem ideal_mul (a b : ℝ) : ideal.mul a b = a * b := rfl
@[simp] theorem ideal_div (a b : ℝ) : ideal.div a b = a / b := rfl
@[simp] theorem ideal_atan2 (y x : ℝ) : ideal.atan2 y x = realArg y x := rfl
@[simp] theorem ideal_lt (a b : ℝ) : ideal.lt a b = true ↔ a < b := by simp [ideal]
@[simp] theorem ideal_gt0 (a : ℝ) : ideal.gt0 a = true ↔ 0 < a := by simp [ideal]
@[simp] theorem ideal_isZero (a : ℝ) : ideal.isZero a = true ↔ a = 0 := by simp [ideal]
@[simp] theorem ideal_isFinite (a : ℝ) : ideal.isFinite a = true := rfl
@[simp] theorem ideal_val (a : ℝ) : ideal.val a = idealVal a := rfl
@[simp] theorem ideal_ofRat (q : Rat) : ideal.ofRat q = (q : ℝ) := rfl

end Sys2Proof.Machine
end

