-- ==== Sys2Proof/Tests/Slice0.lean ====
section
/-! SUPPORT. Tests. Expected values are those spec/ writes out (spec/30 R109; spec/95 T10 to T30; spec/44 R196, R198;
spec/60 R231); the theorems `witness_…` show, for each obligation with hypotheses, concrete values that meet them. -/

namespace Sys2Proof.Tests

open Sys2Proof.Machine Sys2Proof.Claims

set_option Elab.async false

/-! ## Helpers -/

/-- The step answers a next state. -/
def isNext : Outcome → Bool
  | .next _ => true
  | .fault _ => false
  | .refused _ => false

/-- The next state, or `s` where there is none. -/
def after (o : Outcome) (s : State) : State :=
  match o with
  | .next t => t
  | .fault _ => s
  | .refused _ => s

theorem next_of_isNext {o : Outcome} (h : isNext o = true) : ∃ t, o = .next t := by
  cases o with
  | next t => exact ⟨t, rfl⟩
  | fault f => simp [isNext] at h
  | refused r => simp [isNext] at h

/-- An unbuilt block with two taps a phase. -/
def fresh : State := State.launch 2

/-- A pipeline for the rates 1.0 and 1.0, the deviation 1.0 and no de-emphasis. -/
def unit : State :=
  { State.launch 2 with
    fsm := .run, qrate := 0x3F800000, arate := 0x3F800000, maxdev := 0x3F800000,
    gain := 0x3E22F983, alpha := 0x3F800000, rstep := 32 }

/-- The pipeline of spec/44 R196's example: 250000 to 48000, deviation 5000, no de-emphasis. -/
def radio : State :=
  { State.launch 2 with
    fsm := .run, qrate := 0x48742400, arate := 0x473B8000, maxdev := 0x459C4000,
    gain := 0x40FEA5DD, alpha := 0x3F800000, rstep := mkRat 500 3 }

/-- The state before the lines of T25. -/
def filtering : State :=
  { State.launch 2 with
    fsm := .run, qrate := 0x48800000, arate := 0x48800000, maxdev := 0x47800000, tau := 0x37400000,
    deEn := true, gain := 0x3F22F983, alpha := 0x3E800000, beta := 0x3F400000, yprev := 0x3F2F0000,
    rstep := 32 }

/-- The four arguments of R196's example loaded. -/
def loaded : State :=
  { fresh with qrate := 0x48742400, arate := 0x473B8000, maxdev := 0x459C4000 }

theorem unit_inv : Inv unit where
  stable := .inr rfl
  unbuilt := nofun
  built _ := {
    qrate := by decide +kernel, arate := by decide +kernel, maxdev := by decide +kernel, tau := by decide +kernel,
    rstep := by decide +kernel, rstepPos := by decide +kernel, rposNonneg := by decide +kernel,
    rposLt := by decide +kernel, deEn := by decide +kernel, gain := by decide +kernel, coef := by decide +kernel }
  bypass _ := rfl
  prevSet := nofun
  prevUnset _ := ⟨rfl, rfl⟩
  sizeMin := by decide
  sizeMax := by decide
  histLength := rfl
  tapsForm := List.Pairwise.nil
  tapsRange := nofun
  log _ := ⟨rfl, rfl, rfl⟩

theorem fresh_inv : Inv fresh where
  stable := .inl rfl
  unbuilt _ := ⟨rfl, rfl, rfl, rfl, rfl, rfl, rfl, rfl, rfl, rfl, rfl, rfl⟩
  built := nofun
  bypass _ := rfl
  prevSet := nofun
  prevUnset _ := ⟨rfl, rfl⟩
  sizeMin := by decide
  sizeMax := by decide
  histLength := rfl
  tapsForm := List.Pairwise.nil
  tapsRange := nofun
  log _ := ⟨rfl, rfl, rfl⟩

/-! ## WellFormed refuses what does not fit (R105) -/

theorem test_wellFormed_refuses_wide_tap_index : (Instr.ldtap (2 ^ 24) 0).wellFormed = false := by decide
theorem test_wellFormed_refuses_wide_register : (Instr.rdreg (2 ^ 24)).wellFormed = false := by decide
theorem test_wellFormed_keeps_greatest_index : WellFormed (.ldtap 0xFFFFFF 0) ∧ WellFormed (.rdreg 0xFFFFFF) := by
  decide

/-! ## Decoding of words written out from R90, R92, R98 (T10, T11) -/

theorem test_decode_ldqr : decode (.cmd 0x0100000048742400) = .ok (.ldqr 0x48742400) := by decide
theorem test_decode_ldar : decode (.cmd 0x02000000473B8000) = .ok (.ldar 0x473B8000) := by decide
theorem test_decode_lddv : decode (.cmd 0x03000000BF800000) = .ok (.lddv 0xBF800000) := by decide
theorem test_decode_ldtc : decode (.cmd 0x040000007FC00000) = .ok (.ldtc 0x7FC00000) := by decide
theorem test_decode_ldtap : decode (.cmd 0x0500003F3D000000) = .ok (.ldtap 63 0x3D000000) := by decide
theorem test_decode_build : decode (.cmd 0x0600000000000000) = .ok .build := by decide
theorem test_decode_teardn : decode (.cmd 0x0700000000000000) = .ok .teardn := by decide
theorem test_decode_rdreg : decode (.cmd 0x0800001200000000) = .ok (.rdreg 0x12) := by decide
theorem test_decode_setdev : decode (.cmd 0x1000000080000000) = .ok (.setdev 0x80000000) := by decide
theorem test_decode_settau : decode (.cmd 0x11000000389D4952) = .ok (.settau 0x389D4952) := by decide
theorem test_decode_sample : decode (.smp 0x14080000040400000) = .ok (.sample 0x40400000 0x40800000) := by decide
theorem test_decode_samplec : decode (.smp 0x0BF80000000000000) = .ok (.samplec 0 0xBF800000) := by decide

theorem test_decode_refuses_reserved_opcodes :
    ([0x0000000000000000, 0xFFFFFFFFFFFFFFFF, 0x0900000000000000, 0x0F00000000000000, 0x1200000000000000,
      0x8000000000000000] : List CmdWord).map decodeCommand = List.replicate 6 (.error .reservedOpcode) := rfl

theorem test_decode_refuses_must_be_zero :
    ([0x0100000148742400, 0x10FFFFFF451C4000, 0x0600000100000000, 0x0600000000000001, 0x0700000000000001,
      0x0800000600000001] : List CmdWord).map decodeCommand = List.replicate 6 (.error .mustBeZero) := rfl

/-- R64: little-endian, the ninth byte of a sample holding `LAST` and zeros. -/
theorem test_decode_bytes :
    decodeBytes [0x00, 0x24, 0x74, 0x48, 0x00, 0x00, 0x00, 0x01] = .ok (.ldqr 0x48742400) ∧
    decodeBytes [0x00, 0x00, 0x80, 0x3F, 0x00, 0x00, 0x00, 0x00, 0x01] = .ok (.sample 0x3F800000 0) ∧
    decodeBytes [0x00, 0x00, 0x80, 0x3F, 0x00, 0x00, 0x00, 0x00, 0x02] = .error .samplePadding ∧
    decodeBytes [0x00] = .error .wordLength := by
  decide

theorem test_decode_table_word :
    decodeTableWord 64 0x050000213F780000 = some (.ldtap 33 0x3F780000) ∧
    decodeTableWord 72 0x13F80000000000000 = some (.sample 0 0x3F800000) ∧
    decodeTableWord 72 0x00000000000000000 = some (.samplec 0 0) ∧
    decodeTableWord 64 0 = none := by
  decide

/-! ## Assembler text (R105, R106, R108) -/

theorem test_text_of_literals :
    assembleText "LDTC nan ; comment\nSETTAU -inf\nSETDEV -0.0\nRDREG 0x13\nLDQR =0x48742400".toList =
      some [.cmd 0x040000007FC00000, .cmd 0x11000000FF800000, .cmd 0x1000000080000000,
        .cmd 0x0800001300000000, .cmd 0x0100000048742400] := by
  decide +kernel

theorem test_text_of_pseudo_instructions :
    assembleText "BATCH (1.0,0.0) (0.0,1.0)\nRDSTATUS\nset_max_deviation 2500.0".toList =
      some [.smp 0x0000000003F800000, .smp 0x13F80000000000000, .cmd 0x0800000100000000,
        .cmd 0x10000000451C4000] := by
  decide +kernel

theorem test_text_refuses_wide_integer : assembleText "LDTAP 16777216, 0".toList = none := by decide +kernel

/-! ## The step fetches what `withFetchWord` places -/

theorem test_step_runs_command_from_reset :
    (after (step (State.reset.withFetchWord 64 0x0100000048742400)) State.reset).qrate = 0x48742400 := by
  decide

theorem test_step_runs_sample_from_reset :
    isNext (step (State.reset.withFetchWord 72 0x13F80000000000000)) = true ∧
    (after (step (State.reset.withFetchWord 72 0x13F80000000000000)) State.reset).prevQ = 0x3F800000 := by
  decide +kernel

/-- The scheduler step that `placeSample` writes as a number is the one that `BUILD` computes. -/
theorem test_unit_rates_are_built :
    State.reset.buildUnitRates =
      ⟨((((State.reset.setQrate 0x3F800000).setArate 0x3F800000).setMaxdev 0x3F800000).setTau 0).applyBuild
        b32Machine⟩ := by
  decide +kernel

theorem test_step_rejects_illegal_word :
    (after (step { fresh with cmdq := [0x0100000148742400] }) fresh).rspq = [0x0100000000] ∧
    (after (step { fresh with cmdq := [0x0100000148742400] }) fresh).errcmdh = 0x01000001 := by
  decide

/-! ## One step of each instruction -/

theorem test_ldqr_in_run : (after (exec (.ldqr 0x48742400) unit) unit).errcode = 0x02 := by decide
theorem test_ldar : (after (exec (.ldar 0x473B8000) fresh) fresh).arate = 0x473B8000 := by decide
theorem test_lddv : (after (exec (.lddv 0x459C4000) fresh) fresh).maxdev = 0x459C4000 := by decide
theorem test_ldtc : (after (exec (.ldtc 0x7FC00000) fresh) fresh).tau = 0x7FC00000 := by decide

/-- R163: `L = 2`. -/
theorem test_ldtap : (after (exec (.ldtap 33 0x3F780000) fresh) fresh).readTap 33 = 0x3F780000 := by decide
theorem test_ldtap_past_end : (after (exec (.ldtap 64 0x3F800000) fresh) fresh).rspq = [0x0300000000] := by decide

/-- R196: the example. -/
theorem test_build :
    (after (exec .build loaded) loaded) = { radio with rspq := [0] } := by
  decide +kernel

/-- R231: the first cause wins. -/
theorem test_build_reports_first_cause : (after (exec .build fresh) fresh).rspq = [0x1000000000] := by
  decide +kernel

theorem test_teardn : after (exec .teardn { radio with prevI := 1 }) radio = { fresh with rspq := [0] } := by
  decide

/-- R198: the example. -/
theorem test_rdreg : (after (exec (.rdreg 0x0D) radio) radio).rspq = [0x0046BB8000] := by decide +kernel
theorem test_rdreg_reserved : (after (exec (.rdreg 0x13) radio) radio).rspq = [0x0300000000] := by decide

/-- T13. -/
theorem test_setdev :
    after (exec (.setdev 0x451C4000) radio) radio =
      { radio with maxdev := 0x451C4000, gain := 0x417EA5DD, rspq := [0] } := by
  decide +kernel
theorem test_setdev_rejects_minus_zero :
    (after (exec (.setdev 0x80000000) radio) radio).rspq = [0x1200000000] := by decide +kernel

/-- T25. -/
theorem test_settau :
    after (exec (.settau 0x3F800000) filtering) filtering =
      { filtering with
        tau := 0x3F800000, alpha := 0x367FFFC0, beta := 0x3F7FFFC0, yprev := 0, rspq := [0] } := by
  decide +kernel
theorem test_settau_rejects_infinity : (after (exec (.settau 0xFF800000) filtering) filtering).yprev = 0x3F2F0000 := by
  decide +kernel

/-- T26, n = 5: two taps of T20 at each of the phases 6 and 7, position 20/3. -/
theorem test_sample :
    (after (exec (.sample 0 0)
      { radio with
        rpos := mkRat 20 3, prevValid := true, prevI := 0x3F800000, hist := [0x40C00000, 0x40A00000],
        taps := [(6, 0x3E400000), (7, 0x3E600000), (38, 0x3F500000), (39, 0x3F480000)] }) radio).rpos = mkRat 424 3 := by
  decide +kernel

/-- R199: `SAMPLEC` leaves the batch open. -/
theorem test_samplec : (after (exec (.samplec 0 0x3F800000) unit) unit).inbatch = true := by decide +kernel

/-! ## Vectors of the stage functions -/

/-- T12. -/
theorem test_gaincalc :
    gaincalc b32 0x48742400 0x47927C00 = 0x3F07CFED ∧ gaincalc b32 0x48800000 0x3F800000 = 0x4722F983 ∧
    gaincalc b32 0x48742400 0x00000001 = 0x7F800000 := by
  decide +kernel

/-- T14 to T17: quarter turns either way, the branch cut with a negative zero, a zero of negative sign. -/
theorem test_demod :
    (demod b32 0x40FEA5DD 0x3F800000 0 true 0 0x3F800000).out = 0x41480000 ∧
    (demod b32 0x40FEA5DD 0x3F800000 0 true 0 0xBF800000).out = 0xC1480000 ∧
    (demod b32 0x40FEA5DD 0xBF800000 0 true 0x3F800000 0).out = 0x41C80000 ∧
    demod b32 0x40FEA5DD 0 0x3F800000 true 0x80000000 0 = ⟨0, 0, 0x3F800000, true⟩ := by
  decide +kernel

/-- T19. -/
theorem test_demod_vanishing_product :
    demod b32 0x40FEA5DD 0x0D800000 0 true 0 0x0D800000 = ⟨0, 0, 0x0D800000, true⟩ := by
  decide +kernel

/-- T21. -/
theorem test_decoef :
    decoef b32 0x37400000 0x48800000 = ⟨true, 0x3E800000, 0x3F400000⟩ ∧
    decoef b32 0x80000000 0x48742400 = ⟨false, 0x3F800000, 0⟩ ∧
    decoef b32 0x7F61B1E6 0x48742400 = ⟨true, 0, 0x3F800000⟩ := by
  decide +kernel

/-- T24. -/
theorem test_deemph :
    deemphStream b32 true 0x3E800000 0x3F400000 0 [0x40000000, 0x40000000, 0x40000000, 0xC0800000, 0] =
      [0x3F000000, 0x3F600000, 0x3F940000, 0xBE080000, 0xBDCC0000] := by
  decide +kernel

/-- The tap set of T20. -/
def triangle (j : Nat) : Word := ofrat (if j ≤ 32 then mkRat j 32 else mkRat (64 - (j : Int)) 32)

/-- T26, the detail of n = 5. -/
theorem test_interp :
    interp b32 triangle [0x40C00000, 0x40A00000] 2 6 (mkRat 2 3) = 0x40A6AAAB := by
  decide +kernel

/-- T30: the outputs of the first three inputs. -/
theorem test_resamp :
    resampStream b32 triangle 2 (mkRat 49 2) [0, 0] 0 [0x3F800000, 0x40000000, 0x40400000] =
      [0, 0x3F440000, 0x3FC40000, 0x40130000] := by
  decide +kernel

/-- R170: the table of scheduler positions, from entry 5 and from entry 10. -/
theorem test_scheduler :
    outputPositions (mkRat 20 3) (mkRat 500 3) = [mkRat 20 3] ∧
    nextRpos (mkRat 20 3) (mkRat 500 3) = mkRat 424 3 ∧
    outputPositions 148 (mkRat 500 3) = [] ∧ nextRpos 148 (mkRat 500 3) = 116 := by
  decide +kernel

/-- T26, the detail of n = 5, by the sums that the statement about samples writes out; and R167's `FIRN(31)`. -/
theorem test_position_word :
    positionWord triangle [0x40C00000, 0x40A00000] 2 6 (mkRat 2 3) = 0x40A6AAAB ∧
    nextSum triangle [0x40C00000, 0x40A00000] 2 31 = 0x40C00000 := by
  decide +kernel

/-! ## Runs from a launch (R256), under either profile -/

/-- The script `LDQR 250000.0`. -/
def oneLine : List (CmdWord ⊕ SmpWord) := [.inl 0x0100000048742400]

/-- R107: its word is pushed and its step taken. -/
theorem test_script_run :
    ((Launch.ofScript 2 oneLine).run b32Machine (scriptEvents oneLine)).map
      (fun r => (r.state.qrate, r.state.rspq, r.finished)) = some (0x48742400, [0], true) := by
  decide

/-- R200: the response belongs to the run's output also after `CTRL` has taken it. -/
theorem test_output_keeps_taken_response :
    ((Launch.ofScript 2 oneLine).final? b32Machine (scriptEvents oneLine ++ [.popResponse])).map
      (fun x => (x.1.rspq, x.2)) = some ([], ⟨[0], []⟩) := by
  decide

/-- The same operation under `IDEAL`: the register holds the real number. -/
theorem test_ideal_load (draw : IdealDraw) :
    ((StateOf.launch 0 2 : IdealState).ldqr (idealMachine draw) 250000).qrate = 250000 := rfl

/-! ## Witnesses: concrete values that meet the hypotheses of each obligation -/

/-- A batch in flight with a sample of the batch and a command waiting. -/
def midBatch : State :=
  { unit with inbatch := true, cmdq := [0x0700000000000000], inq := [0x1000000003F800000] }

/-- A running block with a command and a sample waiting. -/
def contended : State :=
  { unit with cmdq := [0x0700000000000000], inq := [0x1000000003F800000] }

/-- An unbuilt block with one word in `CMDQ`. -/
def freshWith (w : CmdWord) : State := { fresh with cmdq := [w] }

theorem witness_DecodeOfEncode : WellFormed (.ldtap 0xFFFFFF 0x3F800000) ∧ WellFormed (.rdreg 0xFFFFFF) := by decide

theorem witness_EncodeOfDecode :
    decode (.cmd 0x0800001200000000) = .ok (.rdreg 0x12) ∧
    decode (.smp 0x13F80000000000000) = .ok (.sample 0 0x3F800000) := by decide

theorem witness_DecodeAgreesWithOpcodeMap :
    (Instr.rdreg 3).isCommand = true ∧ (Instr.samplec 0 0).isCommand = false := by decide

theorem witness_IllegalWordsAreRejected :
    (freshWith 0x0900000000000000).cmdq = 0x0900000000000000 :: [] ∧
    (freshWith 0x0900000000000000).inbatch = false ∧ (freshWith 0x0900000000000000).sampleHead? = none ∧
    decodeCommand 0x0900000000000000 = .error .reservedOpcode := by decide

theorem witness_ConstructSucceedsIffBuildAccepted :
    fresh.fsm = .unbuilt ∧ fresh.inbatch = false ∧ fresh.cmdq = [] ∧ fresh.inq = [] ∧
    assembleAll (construct (.decimal false 250000) (.decimal false 48000) (.decimal false 5000) (.decimal false 0)) =
      some [.cmd 0x0100000048742400, .cmd 0x02000000473B8000, .cmd 0x03000000459C4000, .cmd 0x0400000000000000,
        .cmd 0x0600000000000000] := by decide +kernel

theorem witness_StepRunsDecodedInstruction_command :
    (freshWith 0x0700000000000000).cmdq = 0x0700000000000000 :: [] ∧
    (freshWith 0x0700000000000000).inbatch = false ∧
    ((freshWith 0x0700000000000000).fsm ≠ .run ∨ (freshWith 0x0700000000000000).inq = []) ∧
    decode (.cmd 0x0700000000000000) = .ok .teardn := by decide

theorem witness_StepRunsDecodedInstruction_sample :
    midBatch.inq = 0x1000000003F800000 :: [] ∧ midBatch.fsm = .run ∧
    (midBatch.inbatch = true ∨ midBatch.cmdq = []) ∧
    decode (.smp 0x1000000003F800000) = .ok (.sample 0x3F800000 0) := by decide

theorem witness_ArbitrationTakesEitherStep :
    contended.cmdq = 0x0700000000000000 :: [] ∧ contended.inq = 0x1000000003F800000 :: [] ∧
    contended.inbatch = false ∧ contended.fsm = .run := by decide

theorem witness_HeldWordsStayInTheirQueues :
    ((∃ t, step midBatch = .next t) ∧ midBatch.inbatch = true) ∧
    (∃ t, step (freshWith 0x0600000000000000) = .next t) ∧ (freshWith 0x0600000000000000).fsm ≠ .run :=
  ⟨⟨next_of_isNext (by decide +kernel), rfl⟩, next_of_isNext (by decide +kernel), by decide⟩

theorem witness_NoEnabledStepKeepsState :
    fresh.enabled = false ∧ { fresh with inq := [0] }.stuck = true := by decide

theorem witness_StuckStatesAreTwo :
    Inv { fresh with inq := [0] } ∧ { fresh with inq := [0] }.stuck = true ∧
    Inv { unit with inbatch := true, cmdq := [0] } ∧ { unit with inbatch := true, cmdq := [0] }.stuck = true ∧
    Inv fresh ∧ fresh.stuck = false :=
  ⟨{ fresh_inv with unbuilt := fun _ => { fresh_inv.unbuilt rfl with }, built := nofun }, by decide,
    { unit_inv with unbuilt := nofun, built := fun _ => { unit_inv.built rfl with } }, by decide, fresh_inv, by decide⟩

theorem witness_EnabledStepTakesOneWord :
    midBatch.enabled = true ∧ ∃ t, step midBatch = .next t :=
  ⟨by decide, next_of_isNext (by decide +kernel)⟩

theorem witness_EveryCommandGetsOneResponse :
    (freshWith 0x0800001300000000).fetch = .command 0x0800001300000000 fresh := by decide

/-- A step, a step of the block in a run, and a host that takes the one response. -/
theorem witness_PushedWordsAreNeverChanged :
    (∃ t, step midBatch = .next t) ∧
    (((⟨(freshWith 0x0700000000000000).toStateOf, [], [], [0], []⟩ :
      Running Word CmdWord RspWord SmpWord).event b32Machine .block).map Running.output) = some ⟨[0, 0], []⟩ ∧
    (((⟨{ fresh.toStateOf with rspq := [0x0200000000] }, [], [], [0], []⟩ :
      Running Word CmdWord RspWord SmpWord).event b32Machine .popResponse).map Running.output) =
        some ⟨[0, 0x0200000000], []⟩ :=
  ⟨next_of_isNext (by decide +kernel), by decide, by decide⟩

theorem witness_RejectionChangesOnlyLogAndResponse :
    (freshWith 0x0600000000000000).fetch = .command 0x0600000000000000 fresh ∧
    (Instr.setdev 0).isCommand = true := by decide

/-- For `RunsAs` in the statements about each command: a fetched word with its must-be-zero fields zero, and one without,
for each of the formats `CD`, `CAD`, `C0`, `CA`. -/
theorem witness_RunsAs :
    ((freshWith 0x0100000048742400).fetch = .command 0x0100000048742400 fresh ∧
      opField 0x0100000048742400 = 0x01 ∧ aField 0x0100000048742400 = 0 ∧ aField 0x0100000148742400 ≠ 0) ∧
    ((freshWith 0x05FFFFFF3F800000).fetch = .command 0x05FFFFFF3F800000 fresh ∧
      opField 0x05FFFFFF3F800000 = 0x05) ∧
    ((freshWith 0x0600000000000001).fetch = .command 0x0600000000000001 fresh ∧
      opField 0x0600000000000001 = 0x06 ∧ ¬(aField 0x0600000000000001 = 0 ∧ dField 0x0600000000000001 = 0)) ∧
    ((freshWith 0x0800001200000000).fetch = .command 0x0800001200000000 fresh ∧
      opField 0x0800001200000000 = 0x08 ∧ dField 0x0800001200000000 = 0 ∧ dField 0x0800000600000001 ≠ 0) := by
  decide

theorem witness_StateCheckRejects :
    (0xFFFFFF : Nat) < 2 ^ 24 ∧ unit.fsm = .run ∧ fresh.fsm = .unbuilt := by decide

theorem witness_ErrorLogIsSticky :
    (∃ t, step { freshWith 0x0700000000000000 with errv := true } = .next t) ∧
    (∃ t, step (freshWith 0x0600000000000000) = .next t) ∧
    (after (step (freshWith 0x0600000000000000)) fresh).errcode ≠ fresh.errcode :=
  ⟨next_of_isNext (by decide +kernel), next_of_isNext (by decide +kernel), by decide +kernel⟩

theorem witness_LdqrLoadsQuadratureRate : fresh.fsm = .unbuilt ∧ unit.fsm ≠ .unbuilt := by decide

theorem witness_OtherLoadsLoadTheirArguments : fresh.fsm = .unbuilt ∧ unit.fsm ≠ .unbuilt := by decide

/-- The last cell, the first address past it, and the greatest address. -/
theorem witness_LdtapWritesOneCell :
    fresh.fsm = .unbuilt ∧ 63 < 32 * fresh.L ∧ 32 * fresh.L ≤ 64 ∧ 32 * fresh.L ≤ 0xFFFFFF ∧
    (0xFFFFFF : Nat) < 2 ^ 24 ∧ unit.fsm ≠ .unbuilt ∧ (62 : Nat) ≠ 63 := by decide

theorem witness_BuildChecksThenBuilds_accepts : loaded.fsm = .unbuilt ∧ buildable loaded := by
  unfold buildable; decide +kernel

/-- One state for each check of `BUILD`, the earlier ones passed. -/
theorem witness_BuildChecksThenBuilds_rejects :
    unit.fsm ≠ .unbuilt ∧ positiveFinite fresh.qrate = false ∧
    (positiveFinite { fresh with qrate := 1 }.qrate = true ∧ positiveFinite { fresh with qrate := 1 }.arate = false) ∧
    (positiveFinite { loaded with maxdev := 0xBF800000 }.arate = true ∧
      positiveFinite { loaded with maxdev := 0xBF800000 }.maxdev = false) ∧
    (positiveFinite { loaded with tau := 0x7F800000 }.maxdev = true ∧
      isfinite { loaded with tau := 0x7F800000 }.tau = false) ∧
    (positiveFinite { loaded with qrate := 1 }.qrate = true ∧ isfinite { loaded with qrate := 1 }.tau = true ∧
      cutoffBad { loaded with qrate := 1 }.qrate { loaded with qrate := 1 }.arate = true) := by
  decide +kernel

theorem witness_CutoffErrorOnlyAtLeastSubnormal :
    (positiveFinite 1 = true ∧ positiveFinite 0x3F800000 = true ∧ cutoffBad 1 0x3F800000 = true ∧
      cutoffBad 2 0x3F800000 = false) ∧ (0 : ℝ) < 250000 ∧ (0 : ℝ) < 48000 :=
  ⟨by decide +kernel, by norm_num, by norm_num⟩

theorem witness_RdregAnswersRegister :
    (0x12 : Nat) < 0x13 ∧ (0x13 : Nat) < 2 ^ 24 ∧ (0x12 : Nat) < 0xFFFFFF ∧ (0xFFFFFF : Nat) < 2 ^ 24 := by decide

theorem witness_StatusShowsFlags :
    fresh.fsm = .unbuilt ∧ { fresh with fsm := .building }.fsm = .building ∧ unit.fsm = .run ∧
    { unit with fsm := .reconf }.fsm = .reconf ∧ (5 : Nat) ≤ 5 ∧ (5 : Nat) ≤ 31 := by decide

theorem witness_SetdevSwapsGain :
    radio.fsm = .run ∧ positiveFinite 0x00000001 = true ∧ positiveFinite 0x80000000 = false ∧
    fresh.fsm ≠ .run := by decide +kernel

theorem witness_SettauRestartsFilter :
    filtering.fsm = .run ∧ isfinite 0xBF800000 = true ∧ isfinite 0x7F7FFFFF = true ∧ isfinite 0x7F800000 = false ∧
    fresh.fsm ≠ .run := by decide +kernel

theorem witness_GainDecreasesWithDeviation :
    (positiveFinite 0x48742400 = true ∧ positiveFinite 0x451C4000 = true ∧ positiveFinite 0x459C4000 = true ∧
      flt 0x451C4000 0x459C4000 = true) ∧ (0 : ℝ) < 250000 ∧ (0 : ℝ) < 2500 ∧ (2500 : ℝ) < 5000 :=
  ⟨by decide +kernel, by norm_num, by norm_num, by norm_num⟩

/-- Bypass at a negative zero; an active filter at the least and at the greatest time constant. -/
theorem witness_CoefficientsLieInUnitInterval :
    isfinite 0x80000000 = true ∧ fgt0 0x80000000 = false ∧ isfinite 0x00000001 = true ∧ fgt0 0x00000001 = true ∧
    isfinite 0x7F7FFFFF = true ∧ fgt0 0x7F7FFFFF = true ∧ positiveFinite 0x48742400 = true := by decide +kernel

theorem witness_ZeroSampleIsPhasePreserving : iszero 0x80000000 = true ∧ iszero 0x00000000 = true := by decide

/-- A primed pipeline with a setter, with a zero sample and with another; an accepted `BUILD`. -/
theorem witness_FirstSampleSeedsDemodulator :
    ¬(iszero 0x3F800000 = true ∧ iszero 0 = true) ∧
    (loaded.fsm = .unbuilt ∧ (∃ t, exec .build loaded = .next t) ∧ (after (exec .build loaded) loaded).fsm = .run) ∧
    { unit with prevI := 0x3F800000, prevValid := true }.prevValid = true ∧
    (∀ i ∈ [Instr.setdev 0x3F800000, .settau 0, .sample 0 0, .samplec 0 0x3F800000], i ≠ .build ∧ i ≠ .teardn ∧
      isNext (exec i { unit with prevI := 0x3F800000, prevValid := true }) = true) ∧
    (Instr.settau 0).isCommand = true := by
  refine ⟨by decide, ⟨rfl, next_of_isNext (by decide +kernel), by decide +kernel⟩, rfl, ?_, rfl⟩
  simp only [List.forall_mem_cons, List.not_mem_nil, false_implies, implies_true, and_true]
  refine ⟨⟨by decide, by decide, ?_⟩, ⟨by decide, by decide, ?_⟩, ⟨by decide, by decide, ?_⟩,
    by decide, by decide, ?_⟩ <;> decide +kernel

/-- A sample that is not zero, and products for the three branches: vanishing, on the branch cut, elsewhere. -/
theorem witness_DemodulatorMeasuresPhaseDifference :
    ¬(iszero 0x3F800000 = true ∧ iszero 0 = true) ∧
    (iszero (fadd (fmul 0 0x0D800000) (fmul 0x0D800000 0)) = true ∧
      iszero (fsub (fmul 0x0D800000 0x0D800000) (fmul 0 0)) = true) ∧
    (iszero (fadd (fmul 0x3F800000 0xBF800000) (fmul 0 0)) = false ∧
      iszero (fsub (fmul 0 0xBF800000) (fmul 0x3F800000 0)) = true ∧
      flt (fadd (fmul 0x3F800000 0xBF800000) (fmul 0 0)) 0 = true) ∧
    iszero (fsub (fmul 0x3F800000 0x3F800000) (fmul 0 0)) = false := by decide +kernel

theorem witness_DemodulatorOutputIsBounded :
    isfinite 0x40FEA5DD = true ∧ isfinite (fadd (fmul 0x40400000 0x3F800000) (fmul 0x40800000 0)) = true ∧
    isfinite (fsub (fmul 0x40800000 0x3F800000) (fmul 0x40400000 0)) = true := by decide +kernel

/-- An angle off the axes with its double; on each axis, the negative one with either zero; the least subnormal above
the positive axis. -/
theorem witness_AngleHasNamedProperties :
    (isfinite 0x40400000 = true ∧ isfinite 0x40800000 = true ∧
      ¬(iszero 0x40400000 = true ∧ iszero 0x40800000 = true) ∧
      isfinite 0x40C00000 = true ∧ isfinite 0x41000000 = true ∧ fsign 0x40C00000 = fsign 0x40400000 ∧
      fsign 0x41000000 = fsign 0x40800000 ∧ val 0x40C00000 = val 0x40400000 * (2 : Rat) ^ (1 : Int) ∧
      val 0x41000000 = val 0x40800000 * (2 : Rat) ^ (1 : Int) ∧ iszero 0x40400000 = false) ∧
    (iszero 0x80000000 = true ∧ fgt0 0x3F800000 = true) ∧ (iszero 0 = true ∧ fgt0 0x3F800000 = true) ∧
    ¬(iszero 0x80000000 = true ∧ iszero 0xBF800000 = true) ∧ ¬(iszero 0 = true ∧ iszero 0xBF800000 = true) ∧
    fsign 0xBF800000 = true ∧ iszero 0x00000001 = false := by decide +kernel

theorem witness_IdealDemodulatorIsArgument :
    ((0 : ℝ) ≠ 0 ∨ (1 : ℝ) ≠ 0) ∧ ((1 : ℝ) ≠ 0 ∨ (0 : ℝ) ≠ 0) := by norm_num

theorem witness_IdealToneGivesConstant :
    (0 : ℝ) < 1 ∧ -Real.pi < 1 ∧ (1 : ℝ) ≤ Real.pi ∧ -Real.pi < Real.pi ∧ (0 : ℝ) < 250000 ∧ (0 : ℝ) < 5000 := by
  have h := Real.pi_gt_three
  refine ⟨?_, ?_, ?_, ?_, ?_, ?_⟩ <;> linarith

theorem witness_BypassPassesValuesUnchanged :
    unit.deEn = false ∧ 1 ≤ unit.L ∧ (∃ t, exec (.sample 0x3F800000 0) unit = .next t) ∧
    Reachable fresh ∧ fresh.deEn = false :=
  ⟨rfl, by decide, next_of_isNext (by decide +kernel), .launch 2 (by decide) (by decide), rfl⟩

/-- The zero time constant and a negative one. -/
theorem witness_SettauToZeroLeavesNoResidue :
    filtering.fsm = .run ∧ 1 ≤ filtering.L ∧ isfinite 0 = true ∧ fgt0 0 = false ∧ isfinite 0xBF800000 = true ∧
    fgt0 0xBF800000 = false ∧ (∃ t, exec (.settau 0) filtering = .next t) ∧
    ∃ u, exec (.sample 0x3F800000 0) (after (exec (.settau 0) filtering) filtering) = .next u :=
  ⟨rfl, by decide, by decide, by decide +kernel, by decide, by decide +kernel, next_of_isNext (by decide +kernel),
    next_of_isNext (by decide +kernel)⟩

theorem witness_IdealFilterIsLinearTimeInvariant : 2 < ([1, 2, 3] : List ℝ).length := by simp

/-- A state without and one with the filter, at the position 0; positions between two phases, the second past arm 31. -/
theorem witness_SampleRunsThreeStages :
    (0 ≤ unit.rpos ∧ 0 < unit.rstep ∧ unit.deEn = false) ∧
    (0 ≤ filtering.rpos ∧ 0 < filtering.rstep ∧ filtering.deEn = true) ∧
    (0 ≤ { radio with rpos := mkRat 20 3 }.rpos ∧ 0 < radio.rstep ∧
      outputPositions (mkRat 20 3) radio.rstep = [mkRat 20 3]) ∧
    (0 ≤ { unit with rpos := mkRat 63 2 }.rpos ∧ outputPositions (mkRat 63 2) unit.rstep = [mkRat 63 2]) := by
  decide +kernel

theorem witness_SampleFaultsOnlyWithoutScheduler :
    fresh.rstep ≤ 0 ∧ { unit with rpos := -1 }.rpos < 0 ∧ ¬(unit.rpos < 0 ∨ unit.rstep ≤ 0) := by decide +kernel

theorem witness_SamplePathRaisesNothing :
    Inv { unit with inq := [0x1000000003F800000] } ∧
    { unit with inq := [0x1000000003F800000] }.fetch = .sample 0x1000000003F800000 unit :=
  ⟨{ unit_inv with unbuilt := nofun, built := fun _ => { unit_inv.built rfl with } }, by decide +kernel⟩

/-- The row of `L = 1` taps with tap 0 zero cannot have unit gain, that of `L = 2` can: the second tap 1. -/
theorem witness_IdealInterpolationKeepsConstants :
    ∃ tap : Nat → ℝ, 1 ≤ 2 ∧ (∀ p, p < 32 → (∑ k ∈ Finset.range 2, tap (p + 32 * k)) = 1) ∧ tap 0 = 0 ∧
      (0 : Rat) ≤ 0 ∧ (0 : Rat) < 32 ∧ (0 : Rat) ≤ 63 / 2 ∧ (63 / 2 : Rat) < 32 := by
  refine ⟨fun j => if j < 32 then 0 else 1, by norm_num, ?_, by norm_num, by norm_num, by norm_num, by norm_num,
    by norm_num⟩
  intro p hp
  simp [Finset.sum_range_succ, hp]

theorem witness_RatioOneGivesOneOutputPerSample :
    Inv unit ∧ unit.fsm = .run ∧ unit.arate = unit.qrate ∧ unit.rpos = 0 := ⟨unit_inv, rfl, rfl, rfl⟩

/-- The impulse in the first and in the last tap of two. -/
theorem witness_ImpulseArmCopiesSample :
    ([0x80000000, 0x40400000] : List Word).length = 2 ∧ 0 < 2 ∧ 1 < 2 ∧
    (∀ x ∈ ([0x80000000, 0x40400000] : List Word), isfinite x = true) ∧
    (∀ k, k < 2 → (fun j => if j = 0 then 0x3F800000 else 0 : Nat → Word) (32 * k) =
      if k = 0 then 0x3F800000 else 0x00000000) ∧
    (∀ k, k < 2 → (fun j => if j = 32 then 0x3F800000 else 0 : Nat → Word) (32 * k) =
      if k = 1 then 0x3F800000 else 0x00000000) := by
  refine ⟨rfl, by decide, by decide, by simp; decide, ?_, ?_⟩ <;> intro k hk <;> interval_cases k <;> rfl

theorem witness_OutputsPerInput :
    (0 : Rat) ≤ 0 ∧ (0 : Rat) < mkRat 49 2 ∧ (0 : Rat) ≤ 148 ∧ (148 : Rat) < mkRat 500 3 := by decide +kernel

theorem witness_OutputCountLaw :
    loaded.fsm = .unbuilt ∧ (∃ t, exec .build loaded = .next t) ∧ (after (exec .build loaded) loaded).fsm = .run ∧
    ∀ i ∈ [Instr.sample 0x3F800000 0, .setdev 0x3F800000, .samplec 0 0], i ≠ .teardn :=
  ⟨rfl, next_of_isNext (by decide +kernel), by decide +kernel, by decide⟩

/-- A rational that rounds to a finite pattern, one that overflows, one half way between two patterns. -/
theorem witness_RoundingIsToNearestEven :
    isfinite (ofrat (mkRat 1 10)) = true ∧ isfinite (ofrat ((2 ^ 25 - 1) * 2 ^ 103)) = false ∧
    isfinite (ofrat (2 ^ 24 + 1)) = true ∧ isfinite (ofrat (2 ^ 24)) = true := by decide +kernel

theorem witness_RoundingKeepsRepresentables :
    isfinite 0x7F7FFFFF = true ∧ isfinite 0x00000001 = true ∧ isfinite 0x80000000 = true := by decide

theorem witness_OperationsRoundOnce :
    isfinite 0x3F800000 = true ∧ isfinite 0x40400000 = true ∧ val 0x3F800000 + val 0x40400000 ≠ 0 ∧
    val 0x3F800000 - val 0x40400000 ≠ 0 ∧ val 0x3F800000 * val 0x40400000 ≠ 0 ∧ val 0x40400000 ≠ 0 ∧
    val 0x3F800000 / val 0x40400000 ≠ 0 := by decide +kernel

theorem witness_ComparisonIsNumericOrder :
    isfinite 0x80000000 = true ∧ isfinite 0x7F7FFFFF = true ∧ isnan 0x7FC00000 = true := by decide

theorem witness_ResetRegistersRead : (0 : Nat) ≤ 0x12 ∧ (0x12 : Nat) ≤ 0x12 := by decide

theorem witness_InvariantsHoldAtLaunch : 1 ≤ 1 ∧ 1 ≤ 2 ^ 19 ∧ 2 ^ 19 ≤ 2 ^ 19 := by decide

theorem witness_InvariantsKeptByEveryStep :
    Inv { unit with inq := [0x1000000003F800000] } ∧ isNext (step { unit with inq := [0x1000000003F800000] }) = true :=
  ⟨witness_SamplePathRaisesNothing.1, by decide +kernel⟩

theorem witness_InvariantsKeptByHostMoves : Inv unit := unit_inv

theorem witness_ReachableStatesNeverStop :
    Inv fresh ∧ Inv { unit with inq := [0x1000000003F800000] } ∧
    Reachable (fresh.hostMove (.pushCommand 0x0600000000000000)) :=
  ⟨fresh_inv, witness_SamplePathRaisesNothing.1, .host _ _ (.launch 2 (by decide) (by decide))⟩

theorem witness_MutableSurfaceInRun :
    (Instr.build.isCommand = true ∧ unit.fsm = .run ∧ (∃ t, exec .build unit = .next t) ∧
      (∀ d, Instr.build ≠ .setdev d) ∧ (∀ d, Instr.build ≠ .settau d) ∧ Instr.build ≠ .teardn) ∧
    ((Instr.settau 0).isCommand = true ∧ (∃ t, exec (.settau 0) unit = .next t) ∧ Instr.settau 0 ≠ .teardn) :=
  ⟨⟨rfl, rfl, next_of_isNext (by decide), nofun, nofun, by decide⟩, rfl, next_of_isNext (by decide +kernel), by decide⟩

theorem witness_TapsChangeOnlyByLdtap :
    (∃ t, step (freshWith 0x0500003F3D000000) = .next t) ∧
    (after (step (freshWith 0x0500003F3D000000)) fresh).taps ≠ fresh.taps :=
  ⟨next_of_isNext (by decide +kernel), by decide +kernel⟩

theorem witness_RegistersDoNotDependOnTaps :
    EqualButTaps midBatch { midBatch with taps := [(0, 1)], tapsEpoch := 5 } ∧ ∃ t, step midBatch = .next t :=
  ⟨⟨rfl, rfl⟩, next_of_isNext (by decide +kernel)⟩

end Sys2Proof.Tests
end

section
/-! SUPPORT. The numbers that the patterns of profile `B32` stand for, rounding and the angle (R14, R15, U7), and the
invariants under the moves of the environment (R47). -/

namespace Sys2Proof.Machine

/-! ## Magnitude patterns as numbers (R15) -/

/-- The number a magnitude pattern stands for, in units of `2 ^ -149`, the least subnormal. -/
def magUnits (m : Nat) : Nat :=
  if m / 2 ^ 23 = 0 then m else (2 ^ 23 + m % 2 ^ 23) * 2 ^ (m / 2 ^ 23 - 1)

/-- The number a magnitude pattern stands for. -/
def magNum (m : Nat) : Rat := magUnits m / 2 ^ 149

theorem fexp_eq (a : Word) : fexp a = fmag a / 2 ^ 23 := by
  simp only [fexp, fmag, BitVec.extractLsb'_toNat, Nat.shiftRight_eq_div_pow]
  omega

theorem ffrac_eq (a : Word) : ffrac a = fmag a % 2 ^ 23 := by
  simp only [ffrac, fmag, BitVec.extractLsb'_toNat, Nat.shiftRight_eq_div_pow]
  omega

theorem ffrac_lt (a : Word) : ffrac a < 2 ^ 23 := (a.extractLsb' 0 23).isLt

theorem significand_mul_quantum (a : Word) : significand a * 2 ^ quantum a = 2 * magUnits (fmag a) := by
  rw [significand, quantum, magUnits, fexp_eq, ffrac_eq]
  split_ifs with h
  · rw [h, Nat.mod_eq_of_lt (by omega)]
    simp [mul_comm]
  · obtain ⟨e, he⟩ := Nat.exists_eq_add_one_of_ne_zero h
    rw [he, Nat.max_eq_left (by omega), Nat.add_sub_cancel, Nat.pow_succ]
    ring

/-- The model's magnitude is the number of the magnitude pattern. -/
theorem magVal_eq (a : Word) : magVal a = magNum (fmag a) := by
  rw [magVal, magNum, significand_mul_quantum, Rat.mkRat_eq_div]
  push_cast
  ring

/-- The pattern `k * 2 ^ 23 + t` of a significand `t` at the exponent `k`, a carry out of 24 bits included. -/
theorem magUnits_pattern (k t : Nat) (ht : t ≤ 2 ^ 24) (hk : k = 0 ∨ 2 ^ 23 ≤ t) :
    magUnits (k * 2 ^ 23 + t) = t * 2 ^ k := by
  rcases Nat.lt_or_ge t (2 ^ 23) with hsub | hnorm
  · obtain rfl : k = 0 := by omega
    rw [magUnits, if_pos (by omega)]
    omega
  · rcases Nat.lt_or_ge t (2 ^ 24) with hlt | hge
    · have he : (k * 2 ^ 23 + t) / 2 ^ 23 = k + 1 := by omega
      have hf : 2 ^ 23 + (k * 2 ^ 23 + t) % 2 ^ 23 = t := by omega
      rw [magUnits, he, hf, if_neg (by omega), Nat.add_sub_cancel]
    · obtain rfl : t = 2 ^ 24 := by omega
      have he : (k * 2 ^ 23 + 2 ^ 24) / 2 ^ 23 = k + 2 := by omega
      have hf : (k * 2 ^ 23 + 2 ^ 24) % 2 ^ 23 = 0 := by omega
      rw [magUnits, he, hf, if_neg (by omega), Nat.add_succ_sub_one, Nat.pow_succ]
      ring

/-- Every pattern is that of some significand below `2 ^ 24`. -/
theorem exists_pattern (m : Nat) :
    ∃ k t, m = k * 2 ^ 23 + t ∧ t < 2 ^ 24 ∧ (k = 0 ∨ 2 ^ 23 ≤ t) :=
  ⟨m / 2 ^ 23 - 1, m - (m / 2 ^ 23 - 1) * 2 ^ 23, by omega, by omega, by omega⟩

/-- Greater patterns stand for greater numbers. -/
theorem magUnits_strictMono : StrictMono magUnits := by
  refine strictMono_nat_of_lt_succ fun m => ?_
  obtain ⟨k, t, rfl, ht, hk⟩ := exists_pattern m
  rw [add_assoc, magUnits_pattern k t (by omega) hk, magUnits_pattern k (t + 1) (by omega) (by omega)]
  exact Nat.mul_lt_mul_of_pos_right (by omega) (by positivity)

theorem magNum_strictMono : StrictMono magNum := fun _ _ h =>
  div_lt_div_of_pos_right (Nat.cast_lt.2 (magUnits_strictMono h)) (by positivity)

@[simp] theorem magNum_zero : magNum 0 = 0 := by simp [magNum, magUnits]

theorem magNum_pattern (k t : Nat) (ht : t ≤ 2 ^ 24) (hk : k = 0 ∨ 2 ^ 23 ≤ t) :
    magNum (k * 2 ^ 23 + t) = t * 2 ^ k / 2 ^ 149 := by
  rw [magNum, magUnits_pattern k t ht hk]
  push_cast
  rfl

theorem magNum_nonneg (m : Nat) : 0 ≤ magNum m := by
  simpa using magNum_strictMono.monotone (Nat.zero_le m)

theorem magNum_pos (m : Nat) : 0 < magNum m ↔ m ≠ 0 := by
  rw [← magNum_zero, magNum_strictMono.lt_iff_lt, Nat.pos_iff_ne_zero]

theorem magNum_infMag : magNum infMag = 2 ^ 128 := by
  rw [show infMag = 253 * 2 ^ 23 + 2 ^ 24 from rfl, magNum_pattern 253 (2 ^ 24) le_rfl (by decide)]
  norm_num

theorem magNum_greatestFinite : magNum (infMag - 1) = (2 ^ 24 - 1) * 2 ^ 104 := by
  rw [show infMag - 1 = 253 * 2 ^ 23 + (2 ^ 24 - 1) from rfl, magNum_pattern 253 (2 ^ 24 - 1) (by decide) (by decide)]
  norm_num

/-! ## The value of a pattern (R14) -/

theorem val_eq (a : Word) : val a = if fsign a then -magNum (fmag a) else magNum (fmag a) := by
  rw [val, magVal_eq]

theorem abs_val (a : Word) : |val a| = magNum (fmag a) := by
  rw [val_eq]
  split_ifs
  · rw [abs_neg, abs_of_nonneg (magNum_nonneg _)]
  · rw [abs_of_nonneg (magNum_nonneg _)]

@[simp] theorem val_fneg (a : Word) : val (fneg a) = -val a := by
  rw [val_eq, val_eq, fsign_fneg, fmag_fneg]
  cases fsign a <;> simp

theorem magVal_eq_zero (a : Word) : magVal a = 0 ↔ iszero a = true := by
  rw [magVal_eq, ← magNum_zero, magNum_strictMono.injective.eq_iff, iszero_iff]

theorem val_eq_zero (a : Word) : val a = 0 ↔ iszero a = true := by
  rw [← magVal_eq_zero, val]
  split_ifs <;> simp

/-! ## Comparison (R14) -/

theorem val_pos_iff (a : Word) : 0 < val a ↔ fsign a = false ∧ fmag a ≠ 0 := by
  rw [val_eq, ← magNum_pos]
  have := magNum_nonneg (fmag a)
  cases fsign a <;> simp [this]

/-- The values are ordered as the keys that the model compares. -/
theorem orderKey_lt_iff (a b : Word) : orderKey a < orderKey b ↔ val a < val b := by
  have hlt (m n : Nat) : magNum m < magNum n ↔ m < n := magNum_strictMono.lt_iff_lt
  have ha := magNum_nonneg (fmag a)
  have hb := magNum_nonneg (fmag b)
  have hpa := magNum_pos (fmag a)
  have hpb := magNum_pos (fmag b)
  rw [orderKey, orderKey, val_eq, val_eq]
  cases fsign a <;> cases fsign b
  case false.false => simp [hlt]
  case true.true => simp [hlt]
  case false.true =>
    simp only [Bool.false_eq_true, if_false, if_true]
    constructor <;> intro h
    · omega
    · linarith
  case true.false =>
    simp only [Bool.false_eq_true, if_false, if_true]
    constructor
    · intro h
      have h0 : fmag a ≠ 0 ∨ fmag b ≠ 0 := by omega
      rcases h0 with h0 | h0
      · linarith [hpa.2 h0]
      · linarith [hpb.2 h0]
    · intro h
      by_contra hle
      rw [show fmag a = 0 by omega, show fmag b = 0 by omega] at h
      simp at h

/-! ## Rounding to nearest (R14, R15) -/

/-- What `rneDiv` does with the fraction `θ` that the integer quotient leaves: down where `θ` is at most one half, up
where it is at least one half, and at one half to the even neighbour. -/
theorem rneDiv_fraction (n d : Nat) (hd : 0 < d) :
    ∃ θ : Rat, (n : Rat) / d = (n / d : Nat) + θ ∧ 0 ≤ θ ∧ θ < 1 ∧
      ((2 * θ ≤ 1 ∧ rneDiv n d = n / d) ∨ (1 ≤ 2 * θ ∧ rneDiv n d = n / d + 1)) ∧
      (2 * θ = 1 → rneDiv n d % 2 = 0) := by
  have hd' : (0 : Rat) < d := by exact_mod_cast hd
  refine ⟨(n % d : Nat) / d, ?_, by positivity, ?_, ?_⟩
  · rw [div_eq_iff hd'.ne', add_mul, div_mul_cancel₀ _ hd'.ne']
    exact_mod_cast (Nat.div_add_mod' n d).symm
  · rw [div_lt_one hd']
    exact_mod_cast Nat.mod_lt n hd
  · rw [← mul_div_assoc, div_le_one hd', one_le_div hd', div_eq_one_iff_eq hd'.ne']
    norm_cast
    unfold rneDiv
    split_ifs <;> omega

/-- The quotient rounded by `rneDiv` is no farther from the exact quotient than any number outside the open unit
interval that the quotient stands in; where another one is as far, `rneDiv` is even. -/
theorem rneDiv_nearest (n d : Nat) (hd : 0 < d) (z : Rat) (hz : z ≤ (n / d : Nat) ∨ ((n / d : Nat) + 1 : Rat) ≤ z) :
    |(rneDiv n d : Rat) - n / d| ≤ |z - n / d| ∧
      (|z - n / d| = |(rneDiv n d : Rat) - n / d| → z = rneDiv n d ∨ rneDiv n d % 2 = 0) := by
  obtain ⟨θ, hy, h0, h1, hr, heven⟩ := rneDiv_fraction n d hd
  have hfar : (z ≤ (n / d : Nat) ∧ |z - n / d| = n / d - z) ∨
      ((n / d : Nat) + 1 ≤ z ∧ |z - n / d| = z - n / d) :=
    hz.imp (fun h => ⟨h, by rw [abs_sub_comm, abs_of_nonneg (by linarith)]⟩)
      fun h => ⟨h, abs_of_nonneg (by linarith)⟩
  rcases hr with ⟨hθ, hr⟩ | ⟨hθ, hr⟩
  · have hnear : |(rneDiv n d : Rat) - n / d| = θ := by
      rw [hr, abs_sub_comm, hy, add_sub_cancel_left, abs_of_nonneg h0]
    rcases hfar with ⟨hle, hfar⟩ | ⟨hle, hfar⟩ <;> refine ⟨by linarith, fun heq => ?_⟩
    · left; rw [hr]; linarith
    · exact .inr (heven (by linarith))
  · have hnear : |(rneDiv n d : Rat) - n / d| = 1 - θ := by
      rw [hr, hy, Nat.cast_add_one, add_sub_add_left_eq_sub, abs_of_nonneg (by linarith)]
    rcases hfar with ⟨hle, hfar⟩ | ⟨hle, hfar⟩ <;> refine ⟨by linarith, fun heq => ?_⟩
    · exact .inr (heven (by linarith))
    · left; rw [hr, Nat.cast_add_one]; linarith

/-! ### The magnitude before the overflow -/

/-- The exponent at which `roundMag` rounds: a number of `2 ^ 24` units or more loses its last `k` bits. -/
def roundExponent (q : Rat) : Nat := Nat.log2 (q.num.natAbs * 2 ^ 149 / q.den) - 23

/-- The significand to which `roundMag` rounds, a carry to `2 ^ 24` included. -/
def roundSignificand (q : Rat) : Nat := rneDiv (q.num.natAbs * 2 ^ 149) (q.den * 2 ^ roundExponent q)

/-- The pattern that `roundMag` would answer if the format had no greatest exponent. -/
def nearestMag (q : Rat) : Nat := roundExponent q * 2 ^ 23 + roundSignificand q

theorem roundMag_eq (q : Rat) : roundMag q = min (nearestMag q) infMag := rfl

/-- The integer part of the significand to be rounded has 24 bits at most, and all of them above exponent 0. -/
theorem scaledQuotient_bounds (q : Rat) :
    q.num.natAbs * 2 ^ 149 / (q.den * 2 ^ roundExponent q) < 2 ^ 24 ∧
      (roundExponent q = 0 ∨ 2 ^ 23 ≤ q.num.natAbs * 2 ^ 149 / (q.den * 2 ^ roundExponent q)) := by
  rw [← Nat.div_div_eq_div_mul, roundExponent]
  generalize q.num.natAbs * 2 ^ 149 / q.den = v
  constructor
  · rw [Nat.div_lt_iff_lt_mul (by positivity), ← pow_add]
    exact lt_of_lt_of_le Nat.lt_log2_self (Nat.pow_le_pow_right (by decide) (by omega))
  · rcases Nat.eq_zero_or_pos (Nat.log2 v - 23) with h0 | hpos
    · exact .inl h0
    · right
      have hv : v ≠ 0 := by rintro rfl; simp at hpos
      rw [Nat.le_div_iff_mul_le (by positivity), ← pow_add]
      exact le_trans (Nat.pow_le_pow_right (by decide) (by omega)) (Nat.log2_self_le hv)

theorem roundSignificand_bounds (q : Rat) :
    roundSignificand q ≤ 2 ^ 24 ∧ (roundExponent q = 0 ∨ 2 ^ 23 ≤ roundSignificand q) := by
  have hb := scaledQuotient_bounds q
  unfold roundSignificand
  rcases rneDiv_cases (q.num.natAbs * 2 ^ 149) (q.den * 2 ^ roundExponent q) with hc | hc <;> rw [hc] <;> omega

theorem magNum_nearestMag (q : Rat) :
    magNum (nearestMag q) = roundSignificand q * 2 ^ roundExponent q / 2 ^ 149 :=
  magNum_pattern _ _ (roundSignificand_bounds q).1 (roundSignificand_bounds q).2

theorem nearestMag_even (q : Rat) : nearestMag q % 2 = roundSignificand q % 2 := by
  unfold nearestMag
  omega

/-- No pattern's number stands strictly between the two neighbours that `roundMag` chooses from. -/
theorem magNum_outside (k f m : Nat) (hf : f < 2 ^ 24) (hk : k = 0 ∨ 2 ^ 23 ≤ f) :
    magNum m ≤ f * 2 ^ k / 2 ^ 149 ∨ (f + 1) * 2 ^ k / 2 ^ 149 ≤ magNum m := by
  have hdown := magNum_pattern k f hf.le hk
  have hup := magNum_pattern k (f + 1) hf (by omega)
  push_cast at hup
  rw [← hdown, ← hup, magNum_strictMono.le_iff_le, magNum_strictMono.le_iff_le]
  omega

/-- The pattern `nearestMag` is nearest among all magnitude patterns, and even where another is as near. -/
theorem nearestMag_nearest (q : Rat) (m : Nat) :
    |magNum (nearestMag q) - (|q|)| ≤ |magNum m - (|q|)| ∧
      (|magNum m - (|q|)| = |magNum (nearestMag q) - (|q|)| →
        magNum m = magNum (nearestMag q) ∨ nearestMag q % 2 = 0) := by
  obtain ⟨hf, hk⟩ := scaledQuotient_bounds q
  have hu : (0 : Rat) < 2 ^ roundExponent q / 2 ^ 149 := by positivity
  have hq : |q| = (q.num.natAbs * 2 ^ 149 : Nat) / (q.den * 2 ^ roundExponent q : Nat)
      * (2 ^ roundExponent q / 2 ^ 149) := by
    have hnum : |q| = (q.num.natAbs : Rat) / q.den := by rw [Rat.abs_def, Rat.divInt_eq_div]; rfl
    rw [hnum]
    push_cast
    field_simp
    norm_num
  have hn : magNum (nearestMag q) = roundSignificand q * (2 ^ roundExponent q / 2 ^ 149) := by
    rw [magNum_nearestMag, mul_div_assoc]
  obtain ⟨z, hz⟩ : ∃ z, magNum m = z * (2 ^ roundExponent q / 2 ^ 149) := ⟨_, (div_mul_cancel₀ _ hu.ne').symm⟩
  have hout := magNum_outside (roundExponent q) _ m hf hk
  rw [hz, mul_div_assoc, mul_div_assoc, mul_le_mul_iff_left₀ hu, mul_le_mul_iff_left₀ hu] at hout
  have hnear := rneDiv_nearest _ _ (by have := q.den_pos; positivity) z hout
  rw [hz, hn, hq, nearestMag_even, ← sub_mul, ← sub_mul, abs_mul, abs_mul, mul_le_mul_iff_left₀ (abs_pos_of_pos hu),
    mul_left_inj' (abs_pos_of_pos hu).ne', mul_left_inj' hu.ne']
  exact hnear

/-! ### Overflow and representable numbers -/

/-- Half a unit past the greatest finite magnitude and beyond, `nearestMag` leaves the finite patterns. -/
theorem nearestMag_lt_infMag_iff (q : Rat) : nearestMag q < infMag ↔ |q| < (2 ^ 25 - 1) * 2 ^ 103 := by
  obtain ⟨hinf, htie⟩ := nearestMag_nearest q infMag
  have hmax := (nearestMag_nearest q (infMag - 1)).1
  rw [magNum_infMag] at hinf htie
  rw [magNum_greatestFinite] at hmax
  constructor
  · intro hlt
    by_contra hge
    have hle : magNum (nearestMag q) ≤ (2 ^ 24 - 1) * 2 ^ 104 := by
      rw [← magNum_greatestFinite]
      exact magNum_strictMono.monotone (by omega)
    have hfar : |magNum (nearestMag q) - (|q|)| = |q| - magNum (nearestMag q) := by
      rw [abs_sub_comm, abs_of_nonneg (by linarith)]
    rw [hfar] at hinf htie
    have hnear : |2 ^ 128 - (|q|)| ≤ |q| - (2 ^ 24 - 1) * 2 ^ 104 := abs_le.2 ⟨by linarith, by linarith⟩
    have hlast : magNum (nearestMag q) = magNum (infMag - 1) := by
      rw [magNum_greatestFinite]
      linarith
    rcases htie (by linarith) with h128 | heven
    · linarith
    · rw [magNum_strictMono.injective hlast] at heven
      exact absurd heven (by decide)
  · intro hlt
    by_contra hge
    have hle : (2 : Rat) ^ 128 ≤ magNum (nearestMag q) := by
      rw [← magNum_infMag]
      exact magNum_strictMono.monotone (by omega)
    rw [abs_of_nonneg (by linarith)] at hmax
    have hnear : |(2 ^ 24 - 1) * 2 ^ 104 - (|q|)| < 2 ^ 128 - |q| := abs_lt.2 ⟨by linarith, by linarith⟩
    linarith

theorem roundMag_lt_infMag_iff (q : Rat) : roundMag q < infMag ↔ |q| < (2 ^ 25 - 1) * 2 ^ 103 := by
  rw [← nearestMag_lt_infMag_iff, roundMag_eq]
  omega

theorem roundMag_of_lt (q : Rat) (h : roundMag q < infMag) : roundMag q = nearestMag q := by
  rw [roundMag_eq] at h ⊢
  omega

/-- A number that a pattern stands for is rounded to that pattern. -/
theorem nearestMag_of_abs_eq (q : Rat) (m : Nat) (h : |q| = magNum m) : nearestMag q = m := by
  have hnear := (nearestMag_nearest q m).1
  rw [h, sub_self, abs_zero, abs_nonpos_iff, sub_eq_zero] at hnear
  exact magNum_strictMono.injective hnear

/-- Rounding the magnitude does not look at the sign. -/
@[simp] theorem roundMag_neg (q : Rat) : roundMag (-q) = roundMag q := by
  simp [roundMag]

/-! ### The rounded word -/

theorem val_ofrat (q : Rat) (h : isfinite (ofrat q) = true) :
    val (ofrat q) = if q < 0 then -magNum (nearestMag q) else magNum (nearestMag q) := by
  rw [isfinite_iff, fmag_ofrat] at h
  rw [val_eq, fsign_ofrat, fmag_ofrat, roundMag_of_lt q h]
  simp

/-- Rounding keeps the sign, so the error of the word is that of its magnitude. -/
theorem abs_val_ofrat_sub (q : Rat) (h : isfinite (ofrat q) = true) :
    |val (ofrat q) - q| = |magNum (nearestMag q) - (|q|)| := by
  rw [val_ofrat q h]
  split_ifs with hq
  · rw [abs_of_neg hq, ← abs_neg, neg_sub, sub_neg_eq_add, sub_neg_eq_add, add_comm]
  · rw [abs_of_nonneg (not_lt.1 hq)]

/-- A signed number rounded: the sign and the rounded magnitude. -/
theorem ofrat_signed (s : Bool) (q : Rat) (hq : 0 < q) :
    ofrat (if s then -q else q) = withSign s (roundMag q) := by
  cases s <;> simp [ofrat, hq, hq.not_gt]

/-- Two numbers of one magnitude that are as far from `q`: they are equal, unless `q` is zero. -/
theorem eq_of_abs_eq_of_dist_eq (v w q : Rat) (habs : |w| = |v|) (hdist : |w - q| = |v - q|) : w = v ∨ q = 0 := by
  rcases abs_eq_abs.1 habs with rfl | rfl
  · exact .inl rfl
  · rcases abs_eq_abs.1 hdist with h | h
    · left; linarith
    · right; linarith

theorem magVal_pos_iff (a : Word) : 0 < magVal a ↔ val a ≠ 0 := by
  rw [magVal_eq, magNum_pos, ne_eq, ne_eq, val_eq_zero, iszero_iff]

/-! ### The exact operations on signs and magnitudes -/

theorem val_mul_val (a b : Word) :
    val a * val b = if fsign a != fsign b then -(magVal a * magVal b) else magVal a * magVal b := by
  rw [val, val]
  cases fsign a <;> cases fsign b <;> simp

theorem val_div_val (a b : Word) :
    val a / val b = if fsign a != fsign b then -(magVal a / magVal b) else magVal a / magVal b := by
  rw [val, val]
  cases fsign a <;> cases fsign b <;> simp [div_neg, neg_div]

theorem fsub_finite (a b : Word) (ha : isfinite a = true) (hb : isfinite b = true) :
    fsub a b = if val a - val b = 0 then withSign (fsign a && !fsign b) 0 else ofrat (val a - val b) := by
  have hb' : isfinite (fneg b) = true := by simpa [isfinite] using hb
  simp [fsub, sumOr, not_isnan_of_isfinite, not_isinf_of_isfinite, ha, hb', sub_eq_add_neg]

/-! ## The normalised significand of the angle's free magnitude (U7 (f)) -/

theorem significand_lt (a : Word) : significand a < 2 ^ 24 := by
  have := ffrac_lt a
  unfold significand
  split_ifs <;> omega

theorem significand_eq_zero (a : Word) : significand a = 0 ↔ iszero a = true := by
  rw [iszero_iff, significand, fexp_eq, ffrac_eq]
  split_ifs <;> omega

/-- The normalised significand of a number that is not zero has exactly 24 bits. -/
theorem normSignificand_bounds (a : Word) (h : iszero a = false) :
    2 ^ 23 ≤ normSignificand a ∧ normSignificand a < 2 ^ 24 := by
  have h0 : significand a ≠ 0 := fun h' => by simp [(significand_eq_zero a).1 h'] at h
  have hlog : Nat.log2 (significand a) < 24 := (Nat.log2_lt h0).2 (significand_lt a)
  unfold normSignificand normShift
  constructor
  · calc 2 ^ 23 = 2 ^ Nat.log2 (significand a) * 2 ^ (23 - Nat.log2 (significand a)) := by
          rw [← pow_add]; congr 1; omega
      _ ≤ _ := Nat.mul_le_mul_right _ (Nat.log2_self_le h0)
  · calc _ < 2 ^ (Nat.log2 (significand a) + 1) * 2 ^ (23 - Nat.log2 (significand a)) :=
          Nat.mul_lt_mul_of_pos_right Nat.lt_log2_self (by positivity)
      _ = 2 ^ 24 := by rw [← pow_add]; congr 1; omega

/-- Normalising changes no value. -/
theorem magVal_normalised (a : Word) : magVal a = normSignificand a * (2 : Rat) ^ (normExponent a - 150) := by
  rw [magVal, Rat.mkRat_eq_div, normSignificand, normExponent, zpow_sub₀ two_ne_zero, zpow_sub₀ two_ne_zero,
    zpow_natCast, zpow_natCast]
  push_cast
  field_simp

/-- Of two equal numbers, one with a significand of 24 bits or more and one of 24 bits or fewer, the second has no
smaller exponent. -/
theorem exponent_le (m n : Nat) (i j : Int) (hm : 2 ^ 23 ≤ m) (hn : n < 2 ^ 24)
    (h : (m : Rat) * 2 ^ i = n * 2 ^ j) : i ≤ j := by
  have hm' : (2 : Rat) ^ 23 ≤ m := by exact_mod_cast hm
  have hn' : (n : Rat) < 2 ^ 24 := by exact_mod_cast hn
  have hlt : (2 : Rat) ^ 23 * 2 ^ i < 2 ^ 23 * 2 ^ (j + 1) :=
    calc (2 : Rat) ^ 23 * 2 ^ i ≤ m * 2 ^ i := by gcongr
      _ = n * 2 ^ j := h
      _ < 2 ^ 24 * 2 ^ j := by gcongr
      _ = 2 ^ 23 * 2 ^ (j + 1) := by rw [zpow_add_one₀ two_ne_zero]; ring
  have := (zpow_lt_zpow_iff_right₀ one_lt_two).1 (lt_of_mul_lt_mul_left hlt (by positivity))
  omega

/-- A 24-bit significand and its exponent are fixed by their value. -/
theorem normalised_unique (m n : Nat) (i j : Int) (hm : 2 ^ 23 ≤ m ∧ m < 2 ^ 24) (hn : 2 ^ 23 ≤ n ∧ n < 2 ^ 24)
    (h : (m : Rat) * 2 ^ i = n * 2 ^ j) : m = n ∧ i = j := by
  obtain rfl : i = j := le_antisymm (exponent_le m n i j hm.1 hn.2 h) (exponent_le n m j i hn.1 hm.2 h.symm)
  exact ⟨by exact_mod_cast mul_right_cancel₀ (by positivity) h, rfl⟩

/-- Scaling by a power of two leaves the normalised significand and adds to the exponent. -/
theorem normalised_of_scaled (a a' : Word) (k : Int) (h : iszero a = false) (h' : iszero a' = false)
    (hval : magVal a' = magVal a * (2 : Rat) ^ k) :
    normSignificand a' = normSignificand a ∧ normExponent a' = normExponent a + k := by
  rw [magVal_normalised, magVal_normalised, mul_assoc, ← zpow_add₀ two_ne_zero] at hval
  obtain ⟨hs, he⟩ := normalised_unique _ _ _ _ (normSignificand_bounds a' h') (normSignificand_bounds a h) hval
  exact ⟨hs, by omega⟩

/-! ## The angle (U7) -/

/-- The same sign, and the magnitude times a power of two. -/
structure ScaledBy (k : Int) (a a' : Word) : Prop where
  sign : fsign a' = fsign a
  mag : magVal a' = magVal a * (2 : Rat) ^ k

theorem scaledBy_of_val (k : Int) (a a' : Word) (hs : fsign a' = fsign a) (hv : val a' = val a * (2 : Rat) ^ k) :
    ScaledBy k a a' := by
  refine ⟨hs, ?_⟩
  rw [val, val, hs] at hv
  cases h : fsign a <;> simpa [h] using hv

namespace ScaledBy
variable {k : Int} {a a' : Word} (h : ScaledBy k a a')
include h

theorem iszero_eq : iszero a' = iszero a := by
  rw [Bool.eq_iff_iff, ← magVal_eq_zero, ← magVal_eq_zero, h.mag, mul_eq_zero,
    or_iff_left (zpow_ne_zero k two_ne_zero)]

theorem eq_of_iszero (h0 : iszero a = true) : a' = a :=
  word_ext_sign_mag _ _ h.sign
    (((iszero_iff a').1 (h.iszero_eq.trans h0)).trans ((iszero_iff a).1 h0).symm)

theorem fgt0_eq (ha : isfinite a = true) (ha' : isfinite a' = true) : fgt0 a' = fgt0 a := by
  have hz := Bool.eq_iff_iff.1 h.iszero_eq
  rw [iszero_iff, iszero_iff] at hz
  rw [isfinite_iff] at ha ha'
  rw [Bool.eq_iff_iff, fgt0_iff, fgt0_iff, h.sign, ne_eq, ne_eq, hz]
  simp [ha.le, ha'.le]

end ScaledBy

/-- U7 (b): the angle is within `NUM_PI`. -/
theorem fmag_fatan2_le (y x : Word) (hy : isfinite y = true) (hx : isfinite x = true)
    (hyx : ¬(iszero y = true ∧ iszero x = true)) : fmag (fatan2 y x) ≤ fmag NUM_PI := by
  cases hy0 : iszero y
  case false =>
    cases hx0 : iszero x
    case true =>
      rw [fatan2_axis y x hy hx hy0 hx0, fmag_withSign]
      decide
    case false =>
      rw [fatan2_general y x hy hx hy0 hx0, fmag_withSign]
      exact (Nat.mod_le _ _).trans (Nat.min_le_right _ _)
  case true =>
    cases hx1 : fgt0 x
    case true =>
      rw [fatan2_zero_right y x hy hx hy0 hx1, (iszero_iff y).1 hy0]
      exact Nat.zero_le _
    case false =>
      have hx0 : iszero x = false := by simpa [hy0] using hyx
      rw [fatan2_negativeAxis y x hy hx hy0 hx1 hx0]
      exact fmag_negativeAxis_le _

/-- Off the horizontal axis the angle is the sign of `y` on a magnitude that does not depend on it (U7 (c) to (e)). -/
theorem fatan2_signed (y x : Word) (hy : isfinite y = true) (hx : isfinite x = true) (hy0 : iszero y = false) :
    ∃ m, fatan2 y x = withSign (fsign y) m ∧ fatan2 (fneg y) x = withSign (!fsign y) m := by
  have hy' : isfinite (fneg y) = true := by simpa [isfinite] using hy
  have hy0' : iszero (fneg y) = false := by simpa [iszero] using hy0
  cases hx0 : iszero x
  case true => exact ⟨_, fatan2_axis y x hy hx hy0 hx0, by rw [fatan2_axis _ x hy' hx hy0' hx0, fsign_fneg]⟩
  case false =>
    obtain ⟨hs, he⟩ := normalised_of_scaled y (fneg y) 0 hy0 hy0' (by simp [magVal_eq])
    exact ⟨_, fatan2_general y x hy hx hy0 hx0, by
      rw [fatan2_general _ x hy' hx hy0' hx0, fsign_fneg, hs, he, add_zero]⟩

theorem fneg_withSign (s : Bool) (m : Nat) : fneg (withSign s m) = withSign (!s) m :=
  word_ext_sign_mag _ _ (by simp) (by simp)

/-- U7 (f): a power of two common to both arguments does not change the angle. -/
theorem fatan2_scaled (y x y' x' : Word) (k : Int) (hy : isfinite y = true) (hx : isfinite x = true)
    (hy' : isfinite y' = true) (hx' : isfinite x' = true) (hyx : ¬(iszero y = true ∧ iszero x = true))
    (hys : ScaledBy k y y') (hxs : ScaledBy k x x') : fatan2 y' x' = fatan2 y x := by
  cases hy0 : iszero y
  case true =>
    obtain rfl := hys.eq_of_iszero hy0
    cases hx1 : fgt0 x
    case true =>
      rw [fatan2_zero_right y' x hy hx hy0 hx1, fatan2_zero_right y' x' hy hx' hy0 ((hxs.fgt0_eq hx hx').trans hx1)]
    case false =>
      have hx0 : iszero x = false := by simpa [hy0] using hyx
      have hx0' := hxs.iszero_eq.trans hx0
      rw [fatan2_negativeAxis y' x hy hx hy0 hx1 hx0,
        fatan2_negativeAxis y' x' hy hx' hy0 ((hxs.fgt0_eq hx hx').trans hx1) hx0',
        (normalised_of_scaled x x' k hx0 hx0' hxs.mag).1]
  case false =>
    have hy0' := hys.iszero_eq.trans hy0
    cases hx0 : iszero x
    case true =>
      rw [fatan2_axis y x hy hx hy0 hx0, fatan2_axis y' x' hy' hx' hy0' (hxs.iszero_eq.trans hx0), hys.sign]
    case false =>
      have hx0' := hxs.iszero_eq.trans hx0
      obtain ⟨hsy, hey⟩ := normalised_of_scaled y y' k hy0 hy0' hys.mag
      obtain ⟨hsx, hex⟩ := normalised_of_scaled x x' k hx0 hx0' hxs.mag
      rw [fatan2_general y x hy hx hy0 hx0, fatan2_general y' x' hy' hx' hy0' hx0', hys.sign, hxs.sign, hsy, hsx,
        hey, hex, add_sub_add_right_eq_sub]

/-! ## The invariants and the environment (R47, R6, R250) -/

/-- R47 speaks of no queue and of neither of the model's own counters. -/
theorem Inv.with_queues_and_counters {s : State} (h : Inv s) (cmdq : List CmdWord) (rspq : List RspWord)
    (inq : List SmpWord) (outq : List Word) (arbCount tapsEpoch : Nat) :
    Inv { s with
      cmdq := cmdq, rspq := rspq, inq := inq, outq := outq, arbCount := arbCount, tapsEpoch := tapsEpoch } :=
  { h with
    unbuilt := fun hf => { h.unbuilt hf with }
    built := fun hf => { h.built hf with } }

/-- The invariants at launch, for every legal `L` (R251). -/
theorem inv_launch (L : Nat) (hmin : 1 ≤ L) (hmax : L ≤ Config.maxTapsPerPhase) : Inv (State.launch L) where
  stable := .inl rfl
  unbuilt _ := ⟨rfl, rfl, rfl, rfl, rfl, rfl, rfl, rfl, rfl, rfl, rfl, rfl⟩
  built := nofun
  bypass _ := rfl
  prevSet := nofun
  prevUnset _ := ⟨rfl, rfl⟩
  sizeMin := hmin
  sizeMax := hmax
  histLength := List.length_replicate
  tapsForm := launch_taps_wf L
  tapsRange := nofun
  log _ := ⟨rfl, rfl, rfl⟩

/-- Hardware reset leaves the state of a launch, but for the queues and the counters. -/
theorem inv_hardwareReset {s : State} (hmin : 1 ≤ s.L) (hmax : s.L ≤ Config.maxTapsPerPhase) : Inv s.hardwareReset :=
  (inv_launch s.L hmin hmax).with_queues_and_counters s.cmdq s.rspq s.inq s.outq s.arbCount (s.tapsEpoch + 1)

end Sys2Proof.Machine
end

section
/-! The statements settled: arithmetic, the angle, and the moves of the environment. -/

namespace Sys2Proof.Proofs

open Sys2Proof.Machine

/-- Settles O51: finite patterns are ordered as the keys that `flt` compares, and both comparisons test for a NaN. -/
theorem comparisonIsNumericOrder : Obligations.ComparisonIsNumericOrder := by
  intro a b
  refine ⟨fun ha hb => ⟨?_, ?_, (val_eq_zero a).symm⟩, ?_, fun h => by simp [fgt0, h]⟩
  · simp [flt, not_isnan_of_isfinite, ha, hb, orderKey_lt_iff]
  · rw [fgt0_iff, val_pos_iff, and_iff_right ((isfinite_iff a).1 ha).le]
  · rintro (h | h) <;> simp [flt, h]

/-- Settles O50: a nonzero sum or difference is rounded as it stands, a product or quotient as sign and magnitude. -/
theorem operationsRoundOnce : Obligations.OperationsRoundOnce := by
  intro a b ha hb
  refine ⟨fun h => ?_, fun h => ?_, fun h => ?_, fun hv h => ?_⟩
  · rw [fadd_finite a b ha hb, if_neg h]
  · rw [fsub_finite a b ha hb, if_neg h]
  · obtain ⟨ha0, hb0⟩ := mul_ne_zero_iff.1 h
    have hpos := mul_pos ((magVal_pos_iff a).2 ha0) ((magVal_pos_iff b).2 hb0)
    rw [fmul_finite a b ha hb, val_mul_val, ofrat_signed _ _ hpos]
  · obtain ⟨ha0, -⟩ := div_ne_zero_iff.1 h
    have hpos := div_pos ((magVal_pos_iff a).2 ha0) ((magVal_pos_iff b).2 hv)
    have hb0 : iszero b = false := by rwa [← Bool.not_eq_true, ← val_eq_zero]
    rw [fdiv_finite a b ha hb hb0, val_div_val, ofrat_signed _ _ hpos]

/-- Settles O49: the word's own magnitude is at distance 0 from its value, so it is the nearest one. -/
theorem roundingKeepsRepresentables : Obligations.RoundingKeepsRepresentables := by
  intro w hw
  have hmag : roundMag (val w) = fmag w := by
    rw [roundMag_eq, nearestMag_of_abs_eq _ _ (abs_val w), min_eq_left ((isfinite_iff w).1 hw).le]
  split_ifs with h0
  · rw [(val_eq_zero w).2 h0]; decide
  · have hpos : 0 < magVal w := (magVal_pos_iff w).2 fun h => h0 ((val_eq_zero w).1 h)
    have hround : roundMag (magVal w) = fmag w := by
      rw [← hmag, val]; split_ifs <;> simp
    rw [val, ofrat_signed _ _ hpos, hround, withSign_fsign_fmag]

/-- Settles O48: the overflow bound is half way to the pattern after the greatest finite one; below it the nearest
magnitude is the nearest word, because rounding keeps the sign. -/
theorem roundingIsToNearestEven : Obligations.RoundingIsToNearestEven := by
  intro q
  refine ⟨by rw [isfinite_iff, fmag_ofrat, roundMag_lt_infMag_iff], fun hinf => ?_, fun hfin w _ => ?_⟩
  · have hmag : roundMag q = infMag := by
      have hle := roundMag_le q
      simp only [isfinite, fmag_ofrat, decide_eq_false_iff_not] at hinf
      omega
    rw [ofrat, hmag]
    split_ifs with hq <;> simp only [hq] <;> decide
  · have herr := abs_val_ofrat_sub q hfin
    have hrev : |magNum (fmag w) - (|q|)| ≤ |val w - q| := by
      rw [← abs_val]
      exact abs_abs_sub_abs_le _ _
    obtain ⟨hnear, htie⟩ := nearestMag_nearest q (fmag w)
    refine ⟨by rw [herr]; exact hnear.trans hrev, fun heq => ?_⟩
    have hfmag : fmag (ofrat q) = nearestMag q := by
      rw [isfinite_iff, fmag_ofrat] at hfin
      rw [fmag_ofrat, roundMag_of_lt q hfin]
    rcases htie (le_antisymm (by rw [← herr, ← heq]; exact hrev) hnear) with hsame | heven
    · have habs : |val w| = |val (ofrat q)| := by rw [abs_val, abs_val, hfmag, hsame]
      refine (eq_of_abs_eq_of_dist_eq _ _ q habs heq).imp_right ?_
      rintro rfl
      decide
    · exact .inr (hfmag ▸ heven)

/-- Settles O34: the free magnitude depends on the two normalised significands, the difference of the exponents and the
sign of `x` alone, and the sign of `y` is put on it last. -/
theorem angleHasNamedProperties : Obligations.AngleHasNamedProperties := by
  intro y x hy hx hyx
  refine ⟨fmag_fatan2_le y x hy hx hyx, fatan2_zero_right y x hy hx, fun hx0 hpos => ?_, fun hx0 hneg => ?_,
    fun hy0 => ?_, fun hy0 => ?_, fun y' x' k hy' hx' hsy hsx hvy hvx =>
      fatan2_scaled y x y' x' k hy hx hy' hx' hyx (scaledBy_of_val k y y' hsy hvy) (scaledBy_of_val k x x' hsx hvx)⟩
  · obtain ⟨-, hsign, -⟩ := (fgt0_iff y).1 hpos
    rw [fatan2_axis y x hy hx (by simpa [hx0] using hyx) hx0, hsign]
    decide
  · rw [fatan2_axis y x hy hx (by simpa [hx0] using hyx) hx0, hneg]
    decide
  · obtain ⟨m, hm, -⟩ := fatan2_signed y x hy hx hy0
    rw [hm, fsign_withSign]
  · obtain ⟨m, hm, hm'⟩ := fatan2_signed y x hy hx hy0
    rw [hm, hm', fneg_withSign]

/-- Settles O56, move by move: the hosts touch the queues only, and hardware reset starts again as a launch does. -/
theorem invariantsKeptByHostMoves : Obligations.InvariantsKeptByHostMoves := by
  intro s m h
  cases m with
  | pushCommand w => exact h.with_queues_and_counters (s.cmdq ++ [w]) s.rspq s.inq s.outq s.arbCount s.tapsEpoch
  | popResponse => exact h.with_queues_and_counters s.cmdq s.rspq.tail s.inq s.outq s.arbCount s.tapsEpoch
  | pushSample w => exact h.with_queues_and_counters s.cmdq s.rspq (s.inq ++ [w]) s.outq s.arbCount s.tapsEpoch
  | popOutput => exact h.with_queues_and_counters s.cmdq s.rspq s.inq s.outq.tail s.arbCount s.tapsEpoch
  | hardwareReset => exact inv_hardwareReset h.sizeMin h.sizeMax

end Sys2Proof.Proofs
end

section
/-! SUPPORT. What a step of the machine can answer, and the invariants of R47 under every operation. -/

namespace Sys2Proof.Machine

/-! ## What a step takes and answers (R186 to R188) -/

/-- A command leaves the head of `CMDQ`, and one choice of `ARB` is drawn at most. -/
theorem State.fetch_command {s u : State} {w : CmdWord} (h : s.fetch = .command w u) :
    ∃ n, u = { s with cmdq := s.cmdq.tail, arbCount := n } := by
  rcases s.fetch_cases with ⟨-, -, e⟩ | ⟨_, -, -, e⟩ | ⟨_, -, -, e⟩ | ⟨_, _, -, -, -, e⟩ | ⟨_, _, -, -, -, e⟩ <;>
    rw [e] at h <;> cases h
  · exact ⟨s.arbCount, rfl⟩
  · exact ⟨s.arbCount + 1, rfl⟩

/-- A sample leaves the head of `INQ`, and only while the pipeline runs. -/
theorem State.fetch_sample {s u : State} {w : SmpWord} (h : s.fetch = .sample w u) :
    s.fsm = .run ∧ ∃ n, u = { s with inq := s.inq.tail, arbCount := n } := by
  rcases s.fetch_cases with ⟨-, -, e⟩ | ⟨_, -, -, e⟩ | ⟨_, -, hx, e⟩ | ⟨_, _, -, -, -, e⟩ | ⟨_, _, -, hx, -, e⟩ <;>
    rw [e] at h <;> cases h
  · exact ⟨(s.sampleHead?_some _ hx).1, s.arbCount, rfl⟩
  · exact ⟨(s.sampleHead?_some _ hx).1, s.arbCount + 1, rfl⟩

/-- Every sample word runs the sample operation with its three fields (R92, R199). -/
theorem exec_decodeSample (w : SmpWord) (s : State) :
    exec (decodeSample w) s =
      OutcomeOf.toState (s.toStateOf.runSample b32Machine (lastField w) (iField w) (qField w)) := by
  rcases decodeSample_cases w with ⟨h, e⟩ | ⟨h, e⟩ <;> rw [e, h] <;> rfl

/-- The next state of a step: the same state, an operation's, a rejected word's, or a sample's. -/
theorem step_next_cases {s t : State} (h : step s = .next t) :
    t = s ∨
    (∃ w u, s.fetch = .command w u ∧
      ((∃ i, decodeCommand w = .ok i ∧ exec i u = .next t) ∨
        t = ⟨u.toStateOf.reject b32Machine .illegal w⟩)) ∨
    (∃ w u, s.fetch = .sample w u ∧
      t = ⟨u.toStateOf.applySample b32Machine (lastField w) (iField w) (qField w)⟩) := by
  rcases step_cases s with ⟨-, e⟩ | ⟨w, u, hf, ⟨i, hi, e⟩ | ⟨_, -, e⟩⟩ | ⟨w, u, hf, e⟩ <;> rw [e] at h
  · exact .inl (by cases h; rfl)
  · exact .inr (.inl ⟨w, u, hf, .inl ⟨i, hi, h⟩⟩)
  · exact .inr (.inl ⟨w, u, hf, .inr (by cases h; rfl)⟩)
  · rw [exec_decodeSample] at h
    rcases u.toStateOf.runSample_cases b32Machine (lastField w) (iField w) (qField w) with ⟨-, er⟩ | ⟨-, er⟩ <;>
      rw [er] at h <;> cases h
    exact .inr (.inr ⟨w, u, hf, rfl⟩)

/-! ## What a command can change (R163, R230) -/

/-- A command writes the error log only where it is rejected (R230). -/
theorem exec_command_log {i : Instr} {s t : State} (hi : i.isCommand = true) (h : exec i s = .next t) :
    (∃ c, t = ⟨s.toStateOf.reject b32Machine c (encodeCommand i)⟩) ∨
      (t.errv = s.errv ∧ t.errcode = s.errcode ∧ t.errcmdh = s.errcmdh ∧ t.errcmdl = s.errcmdl) := by
  obtain ⟨u, e, hu⟩ := exec_command_cases i s hi
  obtain rfl : (⟨u⟩ : State) = t := Host.Outcome.next.inj (e.symm.trans h)
  rcases hu with ⟨c, rfl⟩ | accepted
  · exact .inl ⟨c, rfl⟩
  · right
    rcases accepted with ⟨_, -, -, rfl⟩ | ⟨_, -, -, rfl⟩ | ⟨_, -, -, rfl⟩ | ⟨_, -, -, rfl⟩ | ⟨_, _, -, -, -, rfl⟩ |
      ⟨-, -, -, rfl⟩ | ⟨-, rfl⟩ | ⟨_, _, -, -, rfl⟩ | ⟨_, -, -, -, rfl⟩ | ⟨_, -, -, -, rfl⟩ <;>
      exact ⟨rfl, rfl, rfl, rfl⟩

/-- A command changes neither `L` nor the draw, and the written cells only as an accepted `LDTAP` (R163). -/
theorem exec_command_taps {i : Instr} {s t : State} (hi : i.isCommand = true) (h : exec i s = .next t) :
    t.L = s.L ∧ t.tapsEpoch = s.tapsEpoch ∧
      (t.taps = s.taps ∨
        ∃ j d, i = .ldtap j d ∧ s.fsm = .unbuilt ∧ j < s.tapCells ∧
          t = ⟨(s.toStateOf.writeTap j d).accept b32Machine⟩) := by
  obtain ⟨u, e, hu⟩ := exec_command_cases i s hi
  obtain rfl : (⟨u⟩ : State) = t := Host.Outcome.next.inj (e.symm.trans h)
  rcases hu with ⟨_, rfl⟩ | ⟨_, -, -, rfl⟩ | ⟨_, -, -, rfl⟩ | ⟨_, -, -, rfl⟩ | ⟨_, -, -, rfl⟩ |
    ⟨j, d, hj, hf, hlt, rfl⟩ | ⟨-, -, -, rfl⟩ | ⟨-, rfl⟩ | ⟨_, _, -, -, rfl⟩ | ⟨_, -, -, -, rfl⟩ | ⟨_, -, -, -, rfl⟩
  pick_goal 6
  · exact ⟨rfl, rfl, .inr ⟨j, d, hj, hf, hlt, rfl⟩⟩
  all_goals exact ⟨rfl, rfl, .inl rfl⟩

/-! ## The scheduler (R169 to R172) -/

theorem StateOf.schedulerValid_iff {Num Cmd Rsp Smp : Type} (s : StateOf Num Cmd Rsp Smp) :
    s.schedulerValid = true ↔ 0 ≤ s.rpos ∧ 0 < s.rstep := by
  simp [StateOf.schedulerValid]

theorem StateOf.runSample_of_valid {Num Cmd Rsp Smp : Type} (P : Profile Num Cmd Rsp Smp)
    {s : StateOf Num Cmd Rsp Smp} (h : s.schedulerValid = true) (last : Bool) (i q : Num) :
    s.runSample P last i q = .next (s.applySample P last i q) := if_pos h

/-- A sample stops exactly where the scheduler is not valid (log 12). -/
theorem runSample_fault_iff (s : State) (last : Bool) (i q : Word) :
    OutcomeOf.toState (s.toStateOf.runSample b32Machine last i q) = .fault .schedulerInvalid ↔
      s.rpos < 0 ∨ s.rstep ≤ 0 := by
  have hvalid := s.toStateOf.schedulerValid_iff
  rcases s.toStateOf.runSample_cases b32Machine last i q with ⟨hv, e⟩ | ⟨hv, e⟩ <;> rw [e] <;> rw [hv] at hvalid
  · obtain ⟨hpos, hstep⟩ := hvalid.1 rfl
    simp [hpos, hstep]
  · simp only [Bool.false_eq_true, false_iff, not_and_or, not_le, not_lt] at hvalid
    simpa using hvalid

/-- The loop ends in the last `RSTEP` units past 32, so `RPOS` stays in its range (R47 I3). -/
theorem nextRpos_bounds (rpos rstep : Rat) (h0 : 0 ≤ rpos) (h1 : rpos < rstep) :
    0 ≤ nextRpos rpos rstep ∧ nextRpos rpos rstep < rstep := by
  have hstep : 0 < rstep := h0.trans_lt h1
  have hend := scheduleLoop_ends rpos rstep hstep
  obtain ⟨k, -, he, hlt, -⟩ := scheduleLoop_cases rstep (loopCount rpos rstep) rpos
  have hnext : nextRpos rpos rstep = rpos + k * rstep - Config.NPH := by rw [nextRpos, he]
  rw [he] at hend
  refine ⟨by rw [hnext]; exact sub_nonneg.2 hend, ?_⟩
  cases k with
  | zero =>
    have hnph : (0 : Rat) < Config.NPH := by norm_num [Config.NPH]
    simp only [Nat.cast_zero, zero_mul, add_zero] at hnext
    linarith
  | succ k =>
    have hlast := hlt k (Nat.lt_succ_self k)
    push_cast at hnext
    linarith

/-! ## The checks of `BUILD` (R196) -/

/-- All five checks pass. -/
theorem configError?_eq_none {α : Type} (P : Config.NumProfile α) (qrate arate maxdev tau : α) :
    configError? P qrate arate maxdev tau = none ↔
      validPositive P qrate = true ∧ validPositive P arate = true ∧ validPositive P maxdev = true ∧
        P.isFinite tau = true ∧ cutoffInvalid P qrate arate = false := by
  simp only [configError?]
  split_ifs <;> simp_all

/-- A word that passes the check of R196 is a positive number. -/
theorem val_pos_of_validPositive {w : Word} (h : validPositive b32 w = true) : 0 < val w := by
  obtain ⟨-, hgt⟩ := (Bool.and_eq_true _ _).mp h
  exact (val_pos_iff w).2 ((fgt0_iff w).1 hgt).2

/-- Valid rates give a positive `RSTEP` (R169). -/
theorem stepOfRates_pos {qrate arate : Word} (hq : validPositive b32 qrate = true)
    (ha : validPositive b32 arate = true) : 0 < stepOfRates b32 qrate arate :=
  div_pos (mul_pos (by norm_num [Config.NPH]) (val_pos_of_validPositive hq)) (val_pos_of_validPositive ha)

/-! ## The Demodulator State (R131, R132) -/

/-- R47 I5 for the Demodulator State: set, it holds a sample of non-zero magnitude; unset, it is zero. -/
def PrevOk (prevI prevQ : Word) (prevValid : Bool) : Prop :=
  (prevValid = true → ¬(iszero prevI = true ∧ iszero prevQ = true)) ∧
    (prevValid = false → prevI = NUM_ZERO ∧ prevQ = NUM_ZERO)

theorem demod_prevOk (gain prevI prevQ : Word) (prevValid : Bool) (i q : Word) (h : PrevOk prevI prevQ prevValid) :
    PrevOk (demod b32 gain prevI prevQ prevValid i q).prevI (demod b32 gain prevI prevQ prevValid i q).prevQ
      (demod b32 gain prevI prevQ prevValid i q).prevValid := by
  have taken (hne : (iszero i && iszero q) = false) : PrevOk i q true :=
    ⟨fun _ => by simpa using hne, nofun⟩
  rcases demod_cases b32 gain prevI prevQ prevValid i q with ⟨-, e⟩ | ⟨hne, -, e⟩ | ⟨hne, -, e⟩ <;> rw [e]
  · exact h
  · exact taken hne
  · exact taken hne

/-! ## The invariants under every operation (R47) -/

namespace Inv
variable {s : State}

theorem prevOk (h : Inv s) : PrevOk s.prevI s.prevQ s.prevValid := ⟨h.prevSet, h.prevUnset⟩

/-- A response changes `RSPQ` only. -/
theorem respond (h : Inv s) (data : Datum Word) : Inv ⟨s.toStateOf.respond b32Machine data⟩ :=
  h.with_queues_and_counters s.cmdq _ s.inq s.outq s.arbCount s.tapsEpoch

theorem accept (h : Inv s) : Inv ⟨s.toStateOf.accept b32Machine⟩ := h.respond (.bits 0)

/-- A rejection changes the error log and `RSPQ` only, and sets `ERRV`. -/
theorem reject (h : Inv s) (c : Cause) (w : CmdWord) : Inv ⟨s.toStateOf.reject b32Machine c w⟩ :=
  { h with
    unbuilt := fun hf => { h.unbuilt hf with }
    built := fun hf => { h.built hf with }
    log := nofun }

/-- The four loads: R47 says nothing of the construction arguments while no pipeline exists. -/
theorem load (h : Inv s) (hf : s.fsm = .unbuilt) (qrate arate maxdev tau : Word) :
    Inv { s with qrate := qrate, arate := arate, maxdev := maxdev, tau := tau } :=
  { h with
    unbuilt := fun _ => { h.unbuilt hf with }
    built := fun hrun => nomatch hf.symm.trans hrun }

theorem writeTap (h : Inv s) {j : Nat} (hj : j < s.tapCells) (d : Word) : Inv ⟨s.toStateOf.writeTap j d⟩ :=
  { h with
    unbuilt := fun hf => { h.unbuilt hf with }
    built := fun hf => { h.built hf with }
    tapsForm := Memory.write_wf s.taps j d h.tapsForm
    tapsRange := fun c hc => by
      rcases Memory.mem_write s.taps j d c hc with rfl | hmem
      · exact hj
      · exact h.tapsRange c hmem }

/-- `BUILD` establishes I3 from its checks. -/
theorem applyBuild (h : Inv s) (hc : configError? b32 s.qrate s.arate s.maxdev s.tau = none) :
    Inv ⟨s.toStateOf.applyBuild b32Machine⟩ := by
  obtain ⟨hq, ha, hm, ht, -⟩ := (configError?_eq_none b32 _ _ _ _).1 hc
  have hstep := stepOfRates_pos hq ha
  exact { h with
    stable := .inr rfl
    unbuilt := nofun
    built := fun _ => {
      qrate := hq, arate := ha, maxdev := hm, tau := ht
      rstep := rfl, rstepPos := hstep, rposNonneg := le_rfl, rposLt := hstep
      deEn := decoef_en b32 s.tau s.qrate
      gain := rfl, coef := rfl }
    bypass := fun _ => rfl
    prevSet := nofun
    prevUnset := fun _ => ⟨rfl, rfl⟩
    histLength := List.length_replicate }

/-- `TEARDN` establishes I2. -/
theorem applyTeardn (h : Inv s) : Inv ⟨s.toStateOf.applyTeardn b32Machine⟩ :=
  { h with
    stable := .inl rfl
    unbuilt := fun _ => ⟨rfl, rfl, rfl, rfl, rfl, rfl, rfl, rfl, rfl, rfl, rfl, rfl⟩
    built := nofun
    bypass := fun _ => rfl
    prevSet := nofun
    prevUnset := fun _ => ⟨rfl, rfl⟩
    histLength := List.length_replicate }

/-- `SETDEV` keeps `GAIN` the gain of `MAXDEV`. -/
theorem applySetdev (h : Inv s) (hf : s.fsm = .run) {d : Word} (hd : validPositive b32 d = true) :
    Inv ⟨s.toStateOf.applySetdev b32Machine d⟩ :=
  { h with
    stable := .inr rfl
    unbuilt := nofun
    built := fun _ => { h.built hf with maxdev := hd, gain := rfl } }

/-- `SETTAU` keeps the coefficients those of `TAU`. -/
theorem applySettau (h : Inv s) (hf : s.fsm = .run) {d : Word} (hd : isfinite d = true) :
    Inv ⟨s.toStateOf.applySettau b32Machine d⟩ :=
  { h with
    stable := .inr rfl
    unbuilt := nofun
    built := fun _ => { h.built hf with tau := hd, deEn := decoef_en b32 d s.qrate, coef := rfl }
    bypass := fun _ => rfl }

/-- A sample keeps the Demodulator State (I5), a bypassed filter's `YPREV` (I4), the delay line's length and the range
of `RPOS` (I3). -/
theorem applySample (h : Inv s) (hf : s.fsm = .run) (last : Bool) (i q : Word) :
    Inv ⟨s.toStateOf.applySample b32Machine last i q⟩ := by
  have hb := h.built hf
  obtain ⟨hnonneg, hlt⟩ := nextRpos_bounds s.rpos s.rstep hb.rposNonneg hb.rposLt
  obtain ⟨hset, hunset⟩ := demod_prevOk s.gain s.prevI s.prevQ s.prevValid i q h.prevOk
  exact { h with
    unbuilt := fun hu => nomatch hf.symm.trans hu
    built := fun _ => { hb with rposNonneg := hnonneg, rposLt := hlt }
    bypass := fun hde => by
      have hde : s.deEn = false := hde
      simpa [StateOf.deemphResult, hde] using h.bypass hde
    prevSet := hset
    prevUnset := hunset
    histLength := shiftIn_length _ _ _ h.histLength }

/-- I3 makes the scheduler valid, so a sample answers (log 12). -/
theorem schedulerValid (h : Inv s) (hf : s.fsm = .run) : s.toStateOf.schedulerValid = true :=
  (StateOf.schedulerValid_iff _).2 ⟨(h.built hf).rposNonneg, (h.built hf).rstepPos⟩

theorem of_fetch_command (h : Inv s) {w : CmdWord} {u : State} (hu : s.fetch = .command w u) : Inv u := by
  obtain ⟨n, rfl⟩ := State.fetch_command hu
  exact h.with_queues_and_counters _ s.rspq s.inq s.outq n s.tapsEpoch

theorem of_fetch_sample (h : Inv s) {w : SmpWord} {u : State} (hu : s.fetch = .sample w u) :
    Inv u ∧ u.fsm = .run := by
  obtain ⟨hf, n, rfl⟩ := State.fetch_sample hu
  exact ⟨h.with_queues_and_counters s.cmdq s.rspq _ s.outq n s.tapsEpoch, hf⟩

/-- Every command keeps the invariants, one case for each way it can be answered. -/
theorem of_exec_command (h : Inv s) {i : Instr} (hi : i.isCommand = true) {t : State} (ht : exec i s = .next t) :
    Inv t := by
  obtain ⟨u, e, hu⟩ := exec_command_cases i s hi
  obtain rfl : (⟨u⟩ : State) = t := Host.Outcome.next.inj (e.symm.trans ht)
  rcases hu with ⟨c, rfl⟩ | ⟨d, -, hf, rfl⟩ | ⟨d, -, hf, rfl⟩ | ⟨d, -, hf, rfl⟩ | ⟨d, -, hf, rfl⟩ |
    ⟨j, d, -, -, hj, rfl⟩ | ⟨-, -, hc, rfl⟩ | ⟨-, rfl⟩ | ⟨_, r, -, -, rfl⟩ | ⟨d, -, hf, hd, rfl⟩ | ⟨d, -, hf, hd, rfl⟩
  · exact h.reject c _
  · exact (h.load hf d s.arate s.maxdev s.tau).accept
  · exact (h.load hf s.qrate d s.maxdev s.tau).accept
  · exact (h.load hf s.qrate s.arate d s.tau).accept
  · exact (h.load hf s.qrate s.arate s.maxdev d).accept
  · exact (h.writeTap hj d).accept
  · exact (h.applyBuild hc).accept
  · exact h.applyTeardn.accept
  · exact h.respond _
  · exact (h.applySetdev hf hd).accept
  · exact (h.applySettau hf hd).accept

/-- Every step keeps the invariants. -/
theorem of_step {t : State} (h : Inv s) (ht : step s = .next t) : Inv t := by
  rcases step_next_cases ht with rfl | ⟨w, u, hu, ⟨i, hi, he⟩ | rfl⟩ | ⟨w, u, hu, rfl⟩
  · exact h
  · exact (h.of_fetch_command hu).of_exec_command (decodeCommand_isCommand w i hi) he
  · exact (h.of_fetch_command hu).reject .illegal w
  · obtain ⟨hinv, hf⟩ := h.of_fetch_sample hu
    exact hinv.applySample hf _ _ _

/-- No step from a state with the invariants stops: a command always answers, a sample by I3. -/
theorem safe (h : Inv s) : s.safe := by
  rcases step_cases s with ⟨-, e⟩ | ⟨w, u, -, ⟨i, hi, e⟩ | ⟨_, -, e⟩⟩ | ⟨w, u, hu, e⟩
  · exact ⟨s, e⟩
  · obtain ⟨t, he, -⟩ := exec_command_cases i u (decodeCommand_isCommand w i hi)
    exact ⟨⟨t⟩, e.trans he⟩
  · exact ⟨_, e⟩
  · obtain ⟨hinv, hf⟩ := h.of_fetch_sample hu
    exact ⟨_, e.trans ((exec_decodeSample w u).trans (congrArg OutcomeOf.toState
      (StateOf.runSample_of_valid b32Machine (hinv.schedulerValid hf) _ _ _)))⟩

end Inv

/-! ## `STATUS` (R27, R32) -/

theorem statusWord_fsm (f : Fsm) (deEn prevValid errv : Bool) :
    (statusWord f deEn prevValid errv).extractLsb' 0 2 = fsmCode f := by
  rw [statusWord, BitVec.extractLsb'_append_eq_right]

theorem statusWord_flags (f : Fsm) (deEn prevValid errv : Bool) :
    (statusWord f deEn prevValid errv).getLsbD 2 = deEn ∧
      (statusWord f deEn prevValid errv).getLsbD 3 = prevValid ∧
      (statusWord f deEn prevValid errv).getLsbD 4 = errv := by
  simp only [statusWord, BitVec.getLsbD_append]
  simp

theorem statusWord_high (f : Fsm) (deEn prevValid errv : Bool) {k : Nat} (hk : 5 ≤ k) :
    (statusWord f deEn prevValid errv).getLsbD k = false := by
  obtain ⟨n, rfl⟩ := Nat.exists_eq_add_of_le' hk
  simp only [statusWord, BitVec.getLsbD_append]
  simp

end Sys2Proof.Machine
end

section
/-! The statements settled: the state, its registers and its invariants. -/

namespace Sys2Proof.Proofs

open Sys2Proof.Machine

/-- Settles O55: a command keeps the invariants in each way it can be answered, a sample runs only where I3 holds. -/
theorem invariantsKeptByEveryStep : Obligations.InvariantsKeptByEveryStep :=
  fun _ _ h ht => h.of_step ht

/-- Every reachable state keeps the invariants, by induction on the run. -/
theorem inv_of_reachable {s : State} (h : Reachable s) : Inv s := by
  induction h with
  | launch L hmin hmax => exact inv_launch L hmin hmax
  | step s t _ ht ih => exact ih.of_step ht
  | host s m _ ih => exact invariantsKeptByHostMoves s m ih

/-- Settles O57: I3 gives the sample's step an answer, and the invariants hold along every run. -/
theorem reachableStatesNeverStop : Obligations.ReachableStatesNeverStop := by
  refine ⟨fun s h => ?_, fun s h => ⟨inv_of_reachable h, (inv_of_reachable h).safe⟩⟩
  obtain ⟨t, ht⟩ := h.safe
  exact ⟨t, ht, h.of_step ht⟩

/-- Settles O17: a step writes the error log only by a rejection, which sets `ERRV` and responds with its cause. -/
theorem errorLogIsSticky : Obligations.ErrorLogIsSticky := by
  intro s t ht
  rcases step_next_cases ht with rfl | ⟨w, u, hu, ⟨i, hi, he⟩ | rfl⟩ | ⟨w, u, hu, rfl⟩
  · exact ⟨id, by simp⟩
  · obtain ⟨n, rfl⟩ := State.fetch_command hu
    rcases exec_command_log (decodeCommand_isCommand w i hi) he with ⟨c, rfl⟩ | ⟨hv, hcode, hh, hl⟩
    · exact ⟨fun _ => rfl, fun _ => ⟨c, rfl⟩⟩
    · exact ⟨hv.trans, by simp [hcode, hh, hl]⟩
  · obtain ⟨n, rfl⟩ := State.fetch_command hu
    exact ⟨fun _ => rfl, fun _ => ⟨.illegal, rfl⟩⟩
  · obtain ⟨-, n, rfl⟩ := State.fetch_sample hu
    exact ⟨id, by simp⟩

/-- Settles O59: a sample and a rejection leave `TAPS`, and of the commands only an accepted `LDTAP` writes it. -/
theorem tapsChangeOnlyByLdtap : Obligations.TapsChangeOnlyByLdtap := by
  intro s t ht
  rcases step_next_cases ht with rfl | ⟨w, u, hu, ⟨i, hi, he⟩ | rfl⟩ | ⟨w, u, hu, rfl⟩
  · exact ⟨rfl, rfl, fun hne => absurd rfl hne⟩
  · obtain ⟨hL, hepoch, htaps⟩ := exec_command_taps (decodeCommand_isCommand w i hi) he
    obtain ⟨n, rfl⟩ := State.fetch_command hu
    refine ⟨hL, hepoch, fun hne => ?_⟩
    rcases htaps with heq | ⟨j, d, rfl, hf, hj, rfl⟩
    · exact absurd heq hne
    · exact ⟨hf, w, _, j, d, hu, hi, hj, StateOf.readTap_writeTap_same b32Machine s.toStateOf j d,
        fun k hk => StateOf.readTap_writeTap_other b32Machine s.toStateOf j k d hk⟩
  · obtain ⟨n, rfl⟩ := State.fetch_command hu
    exact ⟨rfl, rfl, fun hne => absurd rfl hne⟩
  · obtain ⟨-, n, rfl⟩ := State.fetch_sample hu
    exact ⟨rfl, rfl, fun hne => absurd rfl hne⟩

/-- Settles O25: `STATUS` is the concatenation of its fields, read back field by field. -/
theorem statusShowsFlags : Obligations.StatusShowsFlags := by
  intro s
  obtain ⟨hdeEn, hprev, herrv⟩ := statusWord_flags s.fsm s.deEn s.prevValid s.errv
  have hfsm := statusWord_fsm s.fsm s.deEn s.prevValid s.errv
  have reset : statusWord .unbuilt false false false = 0 := by decide
  have encoded (f : Fsm) (h : s.fsm = f) := hfsm.trans (congrArg fsmCode h)
  exact ⟨_, rfl, encoded .unbuilt, encoded .building, encoded .run, encoded .reconf, hdeEn, hprev, herrv,
    fun k hk => statusWord_high s.fsm s.deEn s.prevValid s.errv hk, fun _ => congrArg some reset⟩

/-- Settles O41: the sample operation checks its scheduler and faults on nothing else. -/
theorem sampleFaultsOnlyWithoutScheduler : Obligations.SampleFaultsOnlyWithoutScheduler :=
  fun s i q => ⟨runSample_fault_iff s true i q, runSample_fault_iff s false i q⟩

/-- Settles O53: hardware reset is the launch with the queues and the model's counters kept; a register's content does
not depend on either, and no cell of `TAPS` is written after it. -/
theorem hardwareResetKeepsOnlyQueues : Obligations.HardwareResetKeepsOnlyQueues :=
  fun _ => ⟨rfl, fun _ => rfl, fun _ => rfl⟩

/-- Settles O54: reset is the launch with the `L` of log 2, which is legal. -/
theorem invariantsHoldAtLaunch : Obligations.InvariantsHoldAtLaunch :=
  ⟨inv_launch, inv_launch Config.tapsPerPhase (by decide) (by decide)⟩

end Sys2Proof.Proofs
end

section
/-! SUPPORT. What a step adds to `RSPQ` and `OUTQ`, and what an event adds to a run's output (R72, R74, R200). -/

namespace Sys2Proof.Machine

/-! ## The response to a command (R74, R91, R221) -/

@[simp] theorem responseWord_data (code : BitVec 8) (data : Word) :
    (responseWord code data).extractLsb' 0 32 = data :=
  BitVec.extractLsb'_append_eq_right

/-- A command pushes one response and no output word; data beside a code 0 is a register's. -/
theorem exec_command_response {i : Instr} (s : State) (hi : i.isCommand = true) :
    ∃ t r, exec i s = .next t ∧ t.rspq = s.rspq ++ [r] ∧ t.outq = s.outq ∧ KnownResponse r ∧
      (r.extractLsb' 0 32 ≠ 0 → ∃ a, i = .rdreg a) := by
  obtain ⟨t, e, ht⟩ := exec_command_cases i s hi
  rcases ht with ⟨c, rfl⟩ | ⟨_, -, -, rfl⟩ | ⟨_, -, -, rfl⟩ | ⟨_, -, -, rfl⟩ | ⟨_, -, -, rfl⟩ |
    ⟨_, _, -, -, -, rfl⟩ | ⟨-, -, -, rfl⟩ | ⟨-, rfl⟩ | ⟨a, csr, ha, -, rfl⟩ | ⟨_, -, -, -, rfl⟩ | ⟨_, -, -, -, rfl⟩
  pick_goal 9
  · exact ⟨_, responseWord 0 (s.csrValue b32Machine csr).word, e, rfl, rfl, .inl ⟨_, rfl⟩, fun _ => ⟨a, ha⟩⟩
  · exact ⟨_, responseWord c.code 0, e, rfl, rfl, .inr ⟨c, rfl⟩, by simp⟩
  all_goals exact ⟨_, responseWord 0 0, e, rfl, rfl, .inl ⟨0, rfl⟩, by simp⟩

/-- The same of every word that a step takes from `CMDQ`, those rejected as illegal included. -/
theorem step_command_response {s t : State} {w : CmdWord} (h : s.fetch = .command w t) :
    ∃ u r, step s = .next u ∧ u.rspq = s.rspq ++ [r] ∧ u.outq = s.outq ∧ KnownResponse r ∧
      (r.extractLsb' 0 32 ≠ 0 → ∃ a, decodeCommand w = .ok (.rdreg a)) := by
  rcases step_cases s with ⟨hf, -⟩ | ⟨w', t', hf, ran⟩ | ⟨_, _, hf, -⟩ <;> rw [h] at hf <;> cases hf
  obtain ⟨n, rfl⟩ := State.fetch_command h
  rcases ran with ⟨i, hi, e⟩ | ⟨_, -, e⟩
  · obtain ⟨u, r, he, hrsp, hout, hknown, hdata⟩ := exec_command_response _ (decodeCommand_isCommand w i hi)
    refine ⟨u, r, e.trans he, hrsp, hout, hknown, fun hne => ?_⟩
    obtain ⟨a, rfl⟩ := hdata hne
    exact ⟨a, hi⟩
  · exact ⟨_, responseWord Cause.illegal.code 0, e, rfl, rfl, .inr ⟨.illegal, rfl⟩, by simp⟩

/-! ## The two queues of the block's answers (R72, R74) -/

/-- A step pushes at the end of `RSPQ` or of `OUTQ`, or at neither. -/
theorem step_extends_queues {s t : State} (h : step s = .next t) : s.rspq <+: t.rspq ∧ s.outq <+: t.outq := by
  rcases step_next_cases h with rfl | ⟨w, u, hf, -⟩ | ⟨w, u, hf, rfl⟩
  · exact ⟨List.prefix_rfl, List.prefix_rfl⟩
  · obtain ⟨t', r, e, hrsp, hout, -⟩ := step_command_response hf
    obtain rfl : t' = t := Host.Outcome.next.inj (e.symm.trans h)
    exact ⟨hrsp ▸ List.prefix_append _ _, hout ▸ List.prefix_rfl⟩
  · obtain ⟨-, n, rfl⟩ := State.fetch_sample hf
    exact ⟨List.prefix_rfl, List.prefix_append _ _⟩

/-! ## The output of a run (R200) -/

/-- A step of the block under profile `B32` pushes as the machine's does. -/
theorem StateOf.step_extends_queues {s t : StateOf Word CmdWord RspWord SmpWord} (h : s.step b32Machine = .next t) :
    s.rspq <+: t.rspq ∧ s.outq <+: t.outq :=
  Machine.step_extends_queues (s := ⟨s⟩) (t := ⟨t⟩) ((step_eq_profile_step ⟨s⟩).trans (congrArg OutcomeOf.toState h))

/-- An event keeps the run's output as the beginning of the next: words that hosts have taken come before those still
in the queues, and the block pushes behind both. -/
theorem Running.event_extends_output {r r' : Running Word CmdWord RspWord SmpWord} {e : Event}
    (h : r.event b32Machine e = some r') :
    r.output.responses <+: r'.output.responses ∧ r.output.outputs <+: r'.output.outputs := by
  by_cases he : e = .block
  · subst he
    obtain ⟨t, ht, hout⟩ := r.event_output_of_block b32Machine r' h
    obtain ⟨hrsp, houtq⟩ := StateOf.step_extends_queues ht
    rw [hout]
    exact ⟨(List.prefix_append_right_inj _).2 hrsp, (List.prefix_append_right_inj _).2 houtq⟩
  · rw [r.event_output_of_host b32Machine r' e he h]
    exact ⟨List.prefix_rfl, List.prefix_rfl⟩

end Sys2Proof.Machine
end

section
/-! The statements settled: the responses and the output words. -/

namespace Sys2Proof.Proofs

open Sys2Proof.Machine

/-- Settles O13: a command is accepted or rejected with one response, and `RDREG` alone responds with data. -/
theorem everyCommandGetsOneResponse : Obligations.EveryCommandGetsOneResponse := by
  intro s w t hf
  obtain ⟨u, r, e, hrsp, -, hknown, hdata⟩ := step_command_response hf
  exact ⟨u, r, e, hrsp, hknown, hdata⟩

/-- Settles O14: the block pushes behind what it has pushed, and a host's move leaves the output. -/
theorem pushedWordsAreNeverChanged : Obligations.PushedWordsAreNeverChanged :=
  ⟨fun _ _ h => step_extends_queues h, Launch.start_output b32Machine, fun r r' e h =>
    ⟨(Running.event_extends_output h).1, (Running.event_extends_output h).2,
      fun he => r.event_output_of_host b32Machine r' e he h⟩⟩

end Sys2Proof.Proofs
end

section
/-! SUPPORT. The two round trips of the encoding (R64, R98, R104), the opcode map as fields (R98), the illegal words
(R100), and the commands of a script in an unbuilt block (R107, R108). -/

namespace Sys2Proof

/-! ## Serialisation (R64) -/

@[simp] theorem bytesLE_length (n w : Nat) : (bytesLE n w).length = n := by simp [bytesLE]

/-- The least significant byte comes first; the others are those of the number without it. -/
theorem bytesLE_succ (n w : Nat) : bytesLE (n + 1) w = BitVec.ofNat 8 w :: bytesLE n (w / 256) := by
  have shift (k : Nat) : w >>> (8 * (k + 1)) = (w / 256) >>> (8 * k) := by
    rw [Nat.mul_succ, Nat.add_comm, Nat.shiftRight_add, Nat.shiftRight_eq_div_pow w 8]
  simp [bytesLE, List.range_succ_eq_map, Function.comp_def, shift]

theorem natOfBytesLE_bytesLE (n w : Nat) : natOfBytesLE (bytesLE n w) = w % 256 ^ n := by
  induction n generalizing w with
  | zero => simp [bytesLE, natOfBytesLE, Nat.mod_one]
  | succ n ih =>
    rw [bytesLE_succ, natOfBytesLE, ih, Nat.pow_succ', Nat.mod_mul]
    rfl

/-- No bit of a port word is lost in its bytes, and their number tells the port. -/
theorem portWordOfBytes_toBytes (p : PortWord) : portWordOfBytes p.toBytes = .ok p := by
  cases p with
  | cmd w =>
    have bits : natOfBytesLE (bytesLE 8 w.toNat) = w.toNat := by
      rw [natOfBytesLE_bytesLE]; exact Nat.mod_eq_of_lt w.isLt
    simp [portWordOfBytes, PortWord.toBytes, bits]
  | smp s =>
    have bits : natOfBytesLE (bytesLE 9 s.toNat) = s.toNat := by
      rw [natOfBytesLE_bytesLE]; exact Nat.mod_eq_of_lt (s.isLt.trans (by norm_num))
    simp [portWordOfBytes, PortWord.toBytes, bits, s.isLt]

theorem decodeBytes_toBytes (p : PortWord) : decodeBytes p.toBytes = decode p := by
  simp [decodeBytes, portWordOfBytes_toBytes]

/-! ## The round trips (R98, R104) -/

theorem exists_packCommand (w : CmdWord) : ∃ op a d, w = packCommand op a d :=
  ⟨_, _, _, (packCommand_fields w).symm⟩

theorem exists_packSample (s : SmpWord) : ∃ last q i, s = packSample last q i :=
  ⟨_, _, _, (packSample_fields s).symm⟩

theorem decodeCommand_packCommand (op : BitVec 8) (a : BitVec 24) (d : Word) :
    decodeCommand (packCommand op a d) = decodeFields instructions ⟨op, a, d⟩ (decide (d = 0)) := by
  simp [decodeCommand, commandFields]

/-- R90, R105: an integer operand that fits comes back from its field. -/
theorem toNat_ofNat_of_fits {a : Nat} (h : fitsAddressField a = true) : (BitVec.ofNat 24 a).toNat = a := by
  rw [BitVec.toNat_ofNat]
  exact Nat.mod_eq_of_lt (of_decide_eq_true h)

theorem fitsAddressField_toNat (a : BitVec 24) : fitsAddressField a.toNat = true := decide_eq_true a.isLt

theorem decode_encode {i : Instr} (h : WellFormed i) : decode (encode i) = .ok i := by
  cases i with
  | ldtap j d =>
    exact (decodeCommand_packCommand _ _ _).trans (congrArg (Except.ok <| Instr.ldtap · d) (toNat_ofNat_of_fits h))
  | rdreg a =>
    exact (decodeCommand_packCommand _ _ _).trans (congrArg (Except.ok <| Instr.rdreg ·) (toNat_ofNat_of_fits h))
  | sample i q => simp [encode, decode, decodeSample]
  | samplec i q => simp [encode, decode, decodeSample]
  | _ => exact decodeCommand_packCommand _ _ _

/-- A command word is the word of the operation it decodes to: the format has checked every field that the operation
does not carry. -/
theorem encode_of_decodeCommand {w : CmdWord} {i : Instr} (h : decodeCommand w = .ok i) :
    WellFormed i ∧ encode i = .cmd w := by
  obtain ⟨op, a, d, rfl⟩ := exists_packCommand w
  have row := decodeCommand_cases _ i h
  simp only [opField_packCommand, aField_packCommand, dField_packCommand] at row
  rcases row with ⟨rfl, rfl, rfl⟩ | ⟨rfl, rfl, rfl⟩ | ⟨rfl, rfl, rfl⟩ | ⟨rfl, rfl, rfl⟩ | ⟨rfl, rfl⟩ |
    ⟨rfl, rfl, rfl, rfl⟩ | ⟨rfl, rfl, rfl, rfl⟩ | ⟨rfl, rfl, rfl⟩ | ⟨rfl, rfl, rfl⟩ | ⟨rfl, rfl, rfl⟩ <;>
    simp [WellFormed, Instr.wellFormed, fitsAddressField_toNat, encode, encodeCommand]

theorem encode_decodeSample (s : SmpWord) : WellFormed (decodeSample s) ∧ encode (decodeSample s) = .smp s := by
  have fields := packSample_fields s
  rcases decodeSample_cases s with ⟨h, e⟩ | ⟨h, e⟩ <;> rw [e] <;> rw [h] at fields <;>
    exact ⟨rfl, congrArg PortWord.smp fields⟩

theorem encode_of_decode {p : PortWord} {i : Instr} (h : decode p = .ok i) : WellFormed i ∧ encode i = p := by
  cases p with
  | cmd w => exact encode_of_decodeCommand h
  | smp s =>
    obtain rfl : decodeSample s = i := Except.ok.inj h
    exact encode_decodeSample s

/-! ## The opcode map as fields (R94 to R98) -/

/-- The word of every operation lies in the operation's row. -/
theorem encodedInRow (i : Instr) : Laws.EncodedInRow.Statement i := by
  cases i with
  | ldqr d => exact Laws.EncodedInRow.ldqr d
  | ldar d => exact Laws.EncodedInRow.ldar d
  | lddv d => exact Laws.EncodedInRow.lddv d
  | ldtc d => exact Laws.EncodedInRow.ldtc d
  | ldtap j d => exact Laws.EncodedInRow.ldtap j d
  | build => exact Laws.EncodedInRow.build
  | teardn => exact Laws.EncodedInRow.teardn
  | rdreg a => exact Laws.EncodedInRow.rdreg a
  | setdev d => exact Laws.EncodedInRow.setdev d
  | settau d => exact Laws.EncodedInRow.settau d
  | sample i q => exact Laws.EncodedInRow.sample i q
  | samplec i q => exact Laws.EncodedInRow.samplec i q

/-- A port word lies in the row of what it decodes to. -/
theorem mask_of_decode {p : PortWord} {j : Instr} (h : decode p = .ok j) :
    p.bits &&& (opcodeRow j).1 = (opcodeRow j).2 := by
  have row := encodedInRow j
  rwa [Laws.EncodedInRow.Statement, (encode_of_decode h).2] at row

section Fields
variable {op rop : BitVec 8} {a : BitVec 24} {d : Word}

/-- The converse of `packCommand_mask`, for the masks of the opcode map, which all cover the opcode. -/
theorem fields_of_mask (ma ra : BitVec 24) (md rd : Word) {m r : Nat}
    (hm : (packCommand (BitVec.allOnes 8) ma md).toNat = m) (hr : (packCommand rop ra rd).toNat = r)
    (h : (packCommand op a d).toNat &&& m = r) : op = rop ∧ a &&& ma = ra ∧ d &&& md = rd := by
  rw [← hm, ← hr, ← BitVec.toNat_and, packCommand_and, BitVec.and_allOnes] at h
  have e := BitVec.eq_of_toNat_eq h
  exact ⟨by simpa using congrArg opField e, by simpa using congrArg aField e, by simpa using congrArg dField e⟩

theorem fields_of_mask_C0 (h : (packCommand op a d).toNat &&& 0xFFFFFFFFFFFFFFFF = (packCommand rop 0 0).toNat) :
    op = rop ∧ a = 0 ∧ d = 0 := by
  simpa only [BitVec.and_allOnes] using fields_of_mask (BitVec.allOnes 24) 0 (BitVec.allOnes 32) 0 rfl rfl h

theorem fields_of_mask_CD (h : (packCommand op a d).toNat &&& 0xFFFFFFFF00000000 = (packCommand rop 0 0).toNat) :
    op = rop ∧ a = 0 := by
  obtain ⟨ho, ha, -⟩ := fields_of_mask (BitVec.allOnes 24) 0 0 0 rfl rfl h
  exact ⟨ho, BitVec.and_allOnes.symm.trans ha⟩

theorem fields_of_mask_CAD (h : (packCommand op a d).toNat &&& 0xFF00000000000000 = (packCommand rop 0 0).toNat) :
    op = rop :=
  (fields_of_mask 0 0 0 0 rfl rfl h).1

theorem fields_of_mask_CA (h : (packCommand op a d).toNat &&& 0xFF000000FFFFFFFF = (packCommand rop 0 0).toNat) :
    op = rop ∧ d = 0 := by
  obtain ⟨ho, -, hd⟩ := fields_of_mask 0 0 (BitVec.allOnes 32) 0 rfl rfl h
  exact ⟨ho, BitVec.and_allOnes.symm.trans hd⟩

end Fields

/-- A command word in the row of a command decodes to an operation of that row. -/
theorem decode_of_mask_command {w : CmdWord} {i : Instr} (hi : i.isCommand = true)
    (h : w.toNat &&& (opcodeRow i).1 = (opcodeRow i).2) :
    ∃ j, decode (.cmd w) = .ok j ∧ opcodeRow j = opcodeRow i := by
  obtain ⟨op, a, d, rfl⟩ := exists_packCommand w
  have found (j : Instr) (hw : encode j = .cmd (packCommand op a d)) (hj : WellFormed j)
      (hrow : opcodeRow j = opcodeRow i) :
      ∃ j, decode (.cmd (packCommand op a d)) = .ok j ∧ opcodeRow j = opcodeRow i :=
    ⟨j, hw ▸ decode_encode hj, hrow⟩
  cases i with
  | ldqr _ => obtain ⟨rfl, rfl⟩ := fields_of_mask_CD (rop := 0x01) h; exact found (.ldqr d) rfl rfl rfl
  | ldar _ => obtain ⟨rfl, rfl⟩ := fields_of_mask_CD (rop := 0x02) h; exact found (.ldar d) rfl rfl rfl
  | lddv _ => obtain ⟨rfl, rfl⟩ := fields_of_mask_CD (rop := 0x03) h; exact found (.lddv d) rfl rfl rfl
  | ldtc _ => obtain ⟨rfl, rfl⟩ := fields_of_mask_CD (rop := 0x04) h; exact found (.ldtc d) rfl rfl rfl
  | ldtap _ _ =>
    obtain rfl := fields_of_mask_CAD (rop := 0x05) h
    exact found (.ldtap a.toNat d) (by simp [encode, encodeCommand]) (fitsAddressField_toNat a) rfl
  | build => obtain ⟨rfl, rfl, rfl⟩ := fields_of_mask_C0 (rop := 0x06) h; exact found .build rfl rfl rfl
  | teardn => obtain ⟨rfl, rfl, rfl⟩ := fields_of_mask_C0 (rop := 0x07) h; exact found .teardn rfl rfl rfl
  | rdreg _ =>
    obtain ⟨rfl, rfl⟩ := fields_of_mask_CA (rop := 0x08) h
    exact found (.rdreg a.toNat) (by simp [encode, encodeCommand]) (fitsAddressField_toNat a) rfl
  | setdev _ => obtain ⟨rfl, rfl⟩ := fields_of_mask_CD (rop := 0x10) h; exact found (.setdev d) rfl rfl rfl
  | settau _ => obtain ⟨rfl, rfl⟩ := fields_of_mask_CD (rop := 0x11) h; exact found (.settau d) rfl rfl rfl
  | sample _ _ => cases hi
  | samplec _ _ => cases hi

/-- The mask of both sample rows keeps `LAST` alone (R92). -/
theorem lastField_of_mask {s : SmpWord} {last : Bool}
    (h : s.toNat &&& 0x10000000000000000 = (packSample last 0 0).toNat) : lastField s = last := by
  obtain ⟨l, q, i, rfl⟩ := exists_packSample s
  have hm : 0x10000000000000000 = (packSample true 0 0).toNat := rfl
  rw [hm, ← BitVec.toNat_and, packSample_and] at h
  simpa using congrArg lastField (BitVec.eq_of_toNat_eq h)

/-- A sample word in the row of a sample decodes to an operation of that row. -/
theorem decode_of_mask_sample {s : SmpWord} {i : Instr} (hi : i.isCommand = false)
    (h : s.toNat &&& (opcodeRow i).1 = (opcodeRow i).2) :
    ∃ j, decode (.smp s) = .ok j ∧ opcodeRow j = opcodeRow i := by
  refine ⟨decodeSample s, rfl, ?_⟩
  cases i with
  | sample _ _ => rw [decodeSample, lastField_of_mask (last := true) h]; rfl
  | samplec _ _ => rw [decodeSample, lastField_of_mask (last := false) h]; rfl
  | _ => cases hi

/-! ## Illegal words (R100) -/

section Illegal
variable {Num β : Type} (c : Command Num) (dZero : Bool)

theorem formatC0_error_iff (x : β) : (∃ e, formatC0 c dZero x = .error e) ↔ c.a ≠ 0 ∨ dZero = false := by
  unfold formatC0
  split <;> simp_all [imp_iff_not_or]

theorem formatCD_error_iff (mk : Num → β) : (∃ e, formatCD c mk = .error e) ↔ c.a ≠ 0 := by
  unfold formatCD
  split <;> simp_all

theorem formatCAD_error_iff (mk : Nat → Num → β) : (∃ e, formatCAD c mk = .error e) ↔ False := by
  simp [formatCAD]

theorem formatCA_error_iff (mk : Nat → β) : (∃ e, formatCA c dZero mk = .error e) ↔ dZero = false := by
  cases dZero <;> simp [formatCA]

/-- No row has the opcode, or a field that the row's format wants 0 is not. -/
theorem decodeFields_error_iff (m : Operations Num β) :
    (∃ e, decodeFields m c dZero = .error e) ↔
      c.op.toNat ∉ [1, 2, 3, 4, 5, 6, 7, 8, 0x10, 0x11] ∨
      (c.op.toNat ∈ [1, 2, 3, 4, 6, 7, 0x10, 0x11] ∧ c.a ≠ 0) ∨
      (c.op.toNat ∈ [6, 7, 8] ∧ dZero = false) := by
  unfold decodeFields
  split
  case h_11 => simp_all
  all_goals
    rename_i hop
    simp [hop, formatC0_error_iff, formatCD_error_iff, formatCAD_error_iff, formatCA_error_iff]

theorem decodeCommand_error_iff (w : CmdWord) :
    (∃ e, decodeCommand w = .error e) ↔
      (opField w).toNat ∉ [1, 2, 3, 4, 5, 6, 7, 8, 0x10, 0x11] ∨
      ((opField w).toNat ∈ [1, 2, 3, 4, 6, 7, 0x10, 0x11] ∧ aField w ≠ 0) ∨
      ((opField w).toNat ∈ [6, 7, 8] ∧ dField w ≠ 0) := by
  simpa only [decodeCommand, commandFields, decide_eq_false_iff_not] using
    decodeFields_error_iff (commandFields w) (decide (dField w = 0)) instructions

end Illegal

end Sys2Proof

namespace Sys2Proof.Machine

open Sys2Proof.Claims

/-- The rejection of the model is the one that the statements write out (R230). -/
theorem reject_eq_rejected (s : State) (c : Cause) (w : CmdWord) :
    (⟨s.toStateOf.reject b32Machine c w⟩ : State) = rejected s c.code w := by
  cases c <;> rfl

/-- The head command is taken where no sample competes with it (R186). -/
theorem State.fetch_of_cmdq {s : State} {w : CmdWord} {rest : List CmdWord} (hq : s.cmdq = w :: rest)
    (hb : s.inbatch = false) (hx : s.sampleHead? = none) : s.fetch = .command w { s with cmdq := rest } := by
  have hc : s.commandHead? = some w := by simp [StateOf.commandHead?, hb, hq]
  simp [State.fetch, StateOf.fetch, hc, hx, StateOf.popCommand, hq]

/-- A step at a head command runs its word in the state whose queue has lost it (R186). -/
theorem step_of_cmdq {s : State} {w : CmdWord} {rest : List CmdWord} (hq : s.cmdq = w :: rest)
    (hb : s.inbatch = false) (hx : s.sampleHead? = none) : step s = runCommandWord w { s with cmdq := rest } := by
  rw [step, State.fetch_of_cmdq hq hb hx]
  rfl

theorem runCommandWord_of_error {w : CmdWord} {e : DecodeError} (t : State) (h : decodeCommand w = .error e) :
    runCommandWord w t = .next (rejected t 0x01 w) := by
  rw [runCommandWord, h]
  exact congrArg Host.Outcome.next (reject_eq_rejected t .illegal w)

theorem runCommandWord_of_ok {w : CmdWord} {i : Instr} (t : State) (h : decodeCommand w = .ok i) :
    runCommandWord w t = exec i t := by
  rw [runCommandWord, h]

/-! ## A script of commands in an unbuilt block (R107, R108) -/

/-- An unbuilt block that has nothing left to do, between two lines of a script. -/
structure IdleUnbuilt (s : State) : Prop where
  fsm : s.fsm = .unbuilt
  inbatch : s.inbatch = false
  cmdq : s.cmdq = []
  inq : s.inq = []

/-- A command line is performed at once: its word is the only one that a step can take. -/
theorem runScript_command {s t : State} (hs : IdleUnbuilt s) {i : Instr} {w : CmdWord} (ps : List PortWord)
    (hw : decodeCommand w = .ok i) (ht : exec i s = .next t) : runScript (.cmd w :: ps) s = runScript ps t := by
  have enabled : s.lineEnabled (.cmd w) = true := by simp [State.lineEnabled, hs.inbatch]
  have popped : ({ s.pushPort (.cmd w) with cmdq := [] } : State) = s := by
    rw [← hs.cmdq]
    rfl
  have ran : step (s.pushPort (.cmd w)) = .next t := by
    rw [step_of_cmdq (w := w) (rest := []), popped, runCommandWord_of_ok s hw, ht]
    all_goals simp [State.pushPort, StateOf.pushCommand, StateOf.sampleHead?, hs.cmdq, hs.inbatch, hs.inq]
  simp [runScript, enabled, ran]

/-- What the four loads of `CONSTRUCT` leave of an unbuilt block (R192 to R195). -/
def State.withArguments (s : State) (fq fa dmax tau : Word) : State :=
  { s with qrate := fq, arate := fa, maxdev := dmax, tau := tau, rspq := s.rspq ++ [0, 0, 0, 0] }

namespace IdleUnbuilt
variable {s : State} (hs : IdleUnbuilt s)
include hs

theorem permits (w : CmdWord) (t : StateOf Word CmdWord RspWord SmpWord) :
    (Host.Outcome.next ⟨s.toStateOf.whenFsm b32Machine .unbuilt w t⟩ : Outcome) = .next ⟨t⟩ := by
  rw [s.toStateOf.whenFsm_of_eq b32Machine _ _ _ hs.fsm]

theorem runScript_ldqr (d : Word) (ps : List PortWord) :
    runScript (encode (.ldqr d) :: ps) s = runScript ps { s with qrate := d, rspq := s.rspq ++ [0] } :=
  runScript_command hs ps (decode_encode (i := .ldqr d) rfl) (hs.permits _ _)

theorem runScript_ldar (d : Word) (ps : List PortWord) :
    runScript (encode (.ldar d) :: ps) s = runScript ps { s with arate := d, rspq := s.rspq ++ [0] } :=
  runScript_command hs ps (decode_encode (i := .ldar d) rfl) (hs.permits _ _)

theorem runScript_lddv (d : Word) (ps : List PortWord) :
    runScript (encode (.lddv d) :: ps) s = runScript ps { s with maxdev := d, rspq := s.rspq ++ [0] } :=
  runScript_command hs ps (decode_encode (i := .lddv d) rfl) (hs.permits _ _)

theorem runScript_ldtc (d : Word) (ps : List PortWord) :
    runScript (encode (.ldtc d) :: ps) s = runScript ps { s with tau := d, rspq := s.rspq ++ [0] } :=
  runScript_command hs ps (decode_encode (i := .ldtc d) rfl) (hs.permits _ _)

/-- The four loads are accepted, one after the other. -/
theorem runScript_loads (fq fa dmax tau : Word) (ps : List PortWord) :
    runScript (encode (.ldqr fq) :: encode (.ldar fa) :: encode (.lddv dmax) :: encode (.ldtc tau) :: ps) s =
      runScript ps (s.withArguments fq fa dmax tau) := by
  rw [hs.runScript_ldqr, runScript_ldar, runScript_lddv, runScript_ldtc]
  · simp [State.withArguments]
  all_goals exact ⟨hs.fsm, hs.inbatch, hs.cmdq, hs.inq⟩

end IdleUnbuilt

/-! ## The response to `BUILD` (R91, R196, R221) -/

@[simp] theorem responseWord_code (code : BitVec 8) (data : Word) :
    (responseWord code data).extractLsb' 32 8 = code :=
  BitVec.extractLsb'_append_eq_left

theorem Cause.code_ne_zero (c : Cause) : c.code ≠ 0 := by
  cases c <;> decide

/-- `BUILD` in an unbuilt block keeps the four arguments, and its one response tells whether the pipeline runs. -/
theorem exec_build_of_unbuilt {s : State} (hf : s.fsm = .unbuilt) :
    ∃ t r, exec .build s = .next t ∧ t.rspq = s.rspq ++ [r] ∧
      t.qrate = s.qrate ∧ t.arate = s.arate ∧ t.maxdev = s.maxdev ∧ t.tau = s.tau ∧
      (t.fsm = .run ↔ r.extractLsb' 32 8 = 0) := by
  refine ⟨⟨s.toStateOf.build b32Machine⟩, ?_⟩
  rcases s.toStateOf.build_cases b32Machine with ⟨-, -, e⟩ | ⟨c, e⟩
  · exact ⟨responseWord 0 0, rfl, by simp [e]⟩
  · exact ⟨responseWord c.code 0, rfl, by simpa [e, hf] using c.code_ne_zero⟩

end Sys2Proof.Machine
end

section
/-! The statements settled: the encoding and `CONSTRUCT`. -/

namespace Sys2Proof.Proofs

open Sys2Proof.Machine

/-- Settles O1: the fields of a packed word come back, and so do the bits of a word from its bytes. -/
theorem decodeOfEncode : Obligations.DecodeOfEncode :=
  fun _ h => ⟨decode_encode h, (decodeBytes_toBytes _).trans (decode_encode h)⟩

/-- Settles O2: a word is its fields, and those that the operation does not carry were checked to be 0. -/
theorem encodeOfDecode : Obligations.EncodeOfDecode := fun _ _ => encode_of_decode

/-- Settles O3: in a row's mask the fields of a word are those of an operation of the row, which the decoder finds; and
the word of what it finds lies in that row. -/
theorem decodeAgreesWithOpcodeMap : Obligations.DecodeAgreesWithOpcodeMap := by
  refine ⟨fun w i hi => ⟨decode_of_mask_command hi, ?_⟩, fun w i hi => ⟨decode_of_mask_sample hi, ?_⟩⟩ <;>
  · rintro ⟨j, hj, hrow⟩
    exact hrow ▸ mask_of_decode hj

/-- Settles O4: by the decoder's cases, and by the step at a head command. -/
theorem illegalWordsAreRejected : Obligations.IllegalWordsAreRejected :=
  ⟨decodeCommand_error_iff, ⟨.reservedOpcode, rfl⟩, ⟨.reservedOpcode, rfl⟩, fun _ _ _ _ hq hb hx he =>
    (step_of_cmdq hq hb hx).trans (runCommandWord_of_error _ he)⟩

/-- Settles O6: the four loads are accepted one by one, then `BUILD` answers for the whole. -/
theorem constructSucceedsIffBuildAccepted : Obligations.ConstructSucceedsIffBuildAccepted := by
  intro s fq fa dmax tau ws hf hb hc hi hws
  have hs : IdleUnbuilt s := ⟨hf, hb, hc, hi⟩
  have hs' : IdleUnbuilt (s.withArguments fq.word fa.word dmax.word tau.word) := ⟨hf, hb, hc, hi⟩
  obtain rfl : [encode (.ldqr fq.word), encode (.ldar fa.word), encode (.lddv dmax.word), encode (.ldtc tau.word),
    encode .build] = ws := Option.some.inj hws
  obtain ⟨t, r, ht, hrsp, hq, ha, hd, htau, hrun⟩ := exec_build_of_unbuilt hs'.fsm
  refine ⟨t, r, ?_, by simp [hrsp, State.withArguments], hq, ha, hd, htau, hrun⟩
  rw [hs.runScript_loads]
  exact runScript_command hs' [] (decode_encode (i := .build) rfl) ht

/-- Settles O5: the assembler and the decoder computed on the twelve lines of R109. -/
theorem exampleWordsAssembleAndDecode : Obligations.ExampleWordsAssembleAndDecode := by
  unfold Obligations.ExampleWordsAssembleAndDecode
  decide +kernel

end Sys2Proof.Proofs
end

section
/-! SUPPORT. That rounding, the product and the quotient of profile `B32` keep the order of magnitudes (R14, R15), and
the answers of `SETDEV` (R121). -/

namespace Sys2Proof.Machine

open Sys2Proof.Claims

/-! ## Rounding keeps the order (R15) -/

theorem magVal_mono {a b : Word} (h : fmag a ≤ fmag b) : magVal a ≤ magVal b := by
  rw [magVal_eq, magVal_eq]
  exact magNum_strictMono.monotone h

theorem magVal_pos_of_fgt0 {a : Word} (h : fgt0 a = true) : 0 < magVal a := by
  obtain ⟨-, -, hne⟩ := (fgt0_iff a).1 h
  rw [magVal_eq]
  exact (magNum_pos _).2 hne

/-- Were the pattern nearest to the smaller number the greater one, the squared distances would add up to a product of
the two differences that is both positive and not. -/
theorem nearestMag_mono {p q : Rat} (hp : 0 ≤ p) (hpq : p ≤ q) : nearestMag p ≤ nearestMag q := by
  rcases hpq.eq_or_lt with rfl | hlt
  · exact le_rfl
  by_contra hgt
  have hmag : magNum (nearestMag q) < magNum (nearestMag p) := magNum_strictMono (not_le.1 hgt)
  have hnearp := (nearestMag_nearest p (nearestMag q)).1
  have hnearq := (nearestMag_nearest q (nearestMag p)).1
  rw [abs_of_nonneg hp, ← sq_le_sq] at hnearp
  rw [abs_of_nonneg (hp.trans hpq), ← sq_le_sq] at hnearq
  have hcross : 0 < (magNum (nearestMag p) - magNum (nearestMag q)) * (q - p) :=
    mul_pos (sub_pos.2 hmag) (sub_pos.2 hlt)
  linarith

theorem roundMag_mono {p q : Rat} (hp : 0 ≤ p) (hpq : p ≤ q) : roundMag p ≤ roundMag q :=
  min_le_min_right infMag (nearestMag_mono hp hpq)

/-- The magnitude of a finite pattern is rounded to that pattern. -/
theorem roundMag_magVal {a : Word} (h : isfinite a = true) : roundMag (magVal a) = fmag a := by
  rw [roundMag_eq, nearestMag_of_abs_eq _ _ (by rw [abs_of_nonneg (magVal_nonneg a), magVal_eq]),
    min_eq_left ((isfinite_iff a).1 h).le]

/-! ## Comparison, product and quotient by magnitudes (R14) -/

/-- Of two patterns with the sign clear, the one of greater magnitude is not below the other. -/
theorem flt_eq_false_of_fmag_le {a b : Word} (ha : fsign a = false) (hb : fsign b = false) (h : fmag b ≤ fmag a) :
    flt a b = false := by
  simp [flt, orderKey, ha, hb, h]

theorem fmag_lt_of_flt {a b : Word} (ha : fsign a = false) (hb : fsign b = false) (h : flt a b = true) :
    fmag a < fmag b := by
  by_contra hle
  simp [flt_eq_false_of_fmag_le ha hb (not_lt.1 hle)] at h

/-- The product by a fixed factor grows with the other factor. -/
theorem fmag_fmul_mono {a b c : Word} (ha : isfinite a = true) (hb : isfinite b = true) (hc : isfinite c = true)
    (h : fmag b ≤ fmag c) : fmag (fmul a b) ≤ fmag (fmul a c) := by
  rw [fmul_finite a b ha hb, fmul_finite a c ha hc, fmag_withSign_roundMag, fmag_withSign_roundMag]
  exact roundMag_mono (mul_nonneg (magVal_nonneg a) (magVal_nonneg b))
    (mul_le_mul_of_nonneg_left (magVal_mono h) (magVal_nonneg a))

/-- The product by a factor of magnitude 1 or more is no smaller than the other factor, so a positive one stays
positive; it may overflow to the infinity. -/
theorem fgt0_fmul {a b : Word} (ha : isfinite a = true) (hsign : fsign a = false) (hone : 1 ≤ magVal a)
    (hb : isfinite b = true) (hpos : fgt0 b = true) : fgt0 (fmul a b) = true := by
  obtain ⟨-, hsb, hne⟩ := (fgt0_iff b).1 hpos
  have hle : fmag b ≤ roundMag (magVal a * magVal b) := by
    rw [← roundMag_magVal hb]
    exact roundMag_mono (magVal_nonneg b) (le_mul_of_one_le_left (magVal_nonneg b) hone)
  rw [fgt0_iff, fmul_finite a b ha hb, fmag_withSign_roundMag, fsign_withSign, hsign, hsb]
  exact ⟨roundMag_le _, rfl, by omega⟩

/-- A finite number divided by a positive one: by the infinity the quotient is a zero. -/
theorem fdiv_of_fgt0 {a b : Word} (ha : isfinite a = true) (hb : fgt0 b = true) :
    fdiv a b = withSign (fsign a) (if isinf b = true then 0 else roundMag (magVal a / magVal b)) := by
  obtain ⟨hle, hsign, hne⟩ := (fgt0_iff b).1 hb
  have hnan : isnan b = false := by simpa [isnan] using hle
  have hzero : iszero b = false := by simpa [iszero] using hne
  simp only [fdiv, not_isnan_of_isfinite a ha, not_isinf_of_isfinite a ha, hnan, hzero, hsign]
  cases isinf b <;> simp

theorem fsign_fdiv_of_fgt0 {a b : Word} (ha : isfinite a = true) (hb : fgt0 b = true) :
    fsign (fdiv a b) = fsign a := by
  rw [fdiv_of_fgt0 ha hb, fsign_withSign]

/-- The quotient of a fixed dividend falls as the divisor grows, up to the infinity. -/
theorem fmag_fdiv_antitone {a b c : Word} (ha : isfinite a = true) (hb : fgt0 b = true) (hc : fgt0 c = true)
    (h : fmag b ≤ fmag c) : fmag (fdiv a c) ≤ fmag (fdiv a b) := by
  rw [fdiv_of_fgt0 ha hb, fdiv_of_fgt0 ha hc]
  by_cases hinf : isinf c = true
  · simp [hinf]
  · have hinf' : ¬isinf b = true := by
      obtain ⟨hle, -, -⟩ := (fgt0_iff c).1 hc
      rw [isinf_iff] at hinf ⊢
      omega
    rw [if_neg hinf, if_neg hinf', fmag_withSign_roundMag, fmag_withSign_roundMag]
    exact roundMag_mono (div_nonneg (magVal_nonneg a) (magVal_nonneg c))
      (div_le_div_of_nonneg_left (magVal_nonneg a) (magVal_pos_of_fgt0 hb) (magVal_mono h))

/-! ## The gain formula (R120) -/

theorem one_le_magVal_twoPi : 1 ≤ magVal NUM_TWO_PI := by decide +kernel

/-- The divisor of the gain formula is positive; for a great deviation it is the infinity. -/
theorem fgt0_twoPi_mul {d : Word} (hd : isfinite d = true) (hpos : fgt0 d = true) : fgt0 (fmul NUM_TWO_PI d) = true :=
  fgt0_fmul (by decide) (by decide) one_le_magVal_twoPi hd hpos

/-- In `B32` a greater deviation never gives a greater gain: both rounded operations keep the order. -/
theorem flt_gaincalc_eq_false {fs d e : Word} (hfs : positiveFinite fs = true) (hd : positiveFinite d = true)
    (he : positiveFinite e = true) (hlt : flt d e = true) :
    flt (gaincalc b32 fs d) (gaincalc b32 fs e) = false := by
  obtain ⟨hfs, hfs0⟩ := Bool.and_eq_true_iff.1 hfs
  obtain ⟨hd, hd0⟩ := Bool.and_eq_true_iff.1 hd
  obtain ⟨he, he0⟩ := Bool.and_eq_true_iff.1 he
  obtain ⟨-, hsfs, -⟩ := (fgt0_iff fs).1 hfs0
  obtain ⟨-, hsd, -⟩ := (fgt0_iff d).1 hd0
  obtain ⟨-, hse, -⟩ := (fgt0_iff e).1 he0
  have hdivd := fgt0_twoPi_mul hd hd0
  have hdive := fgt0_twoPi_mul he he0
  have hdiv : fmag (fmul NUM_TWO_PI d) ≤ fmag (fmul NUM_TWO_PI e) :=
    fmag_fmul_mono (by decide) hd he (fmag_lt_of_flt hsd hse hlt).le
  exact flt_eq_false_of_fmag_le ((fsign_fdiv_of_fgt0 hfs hdivd).trans hsfs) ((fsign_fdiv_of_fgt0 hfs hdive).trans hsfs)
    (fmag_fdiv_antitone hfs hdivd hdive hdiv)

/-- Under `IDEAL` the gain falls strictly with the deviation. -/
theorem gaincalc_ideal_lt {fs d e : ℝ} (hfs : 0 < fs) (hd : 0 < d) (hde : d < e) :
    gaincalc ideal fs e < gaincalc ideal fs d :=
  div_lt_div_of_pos_left hfs (mul_pos Real.two_pi_pos hd) (mul_lt_mul_of_pos_left hde Real.two_pi_pos)

/-! ## A fetched command word (R98, R186) -/

/-- A step runs the command word that it fetched in the state whose queue has lost it. -/
theorem step_of_fetch_command {s t : State} {w : CmdWord} (h : s.fetch = .command w t) :
    step s = runCommandWord w t := by
  rw [step, h]
  rfl

/-- An opcode whose words decode to `i w` where the fields that must be 0 are, and to nothing where they are not. -/
theorem runsAs_of_decodeCommand {op : BitVec 8} {fieldsZero : CmdWord → Prop} {i : CmdWord → Instr}
    (hok : ∀ w, opField w = op → fieldsZero w → decodeCommand w = .ok (i w))
    (herr : ∀ w, opField w = op → ¬fieldsZero w → ∃ e, decodeCommand w = .error e) : RunsAs op fieldsZero i := by
  intro s t w hf hop
  rw [step_of_fetch_command hf]
  refine ⟨fun hz => runCommandWord_of_ok t (hok w hop hz), fun hz => ?_⟩
  obtain ⟨e, he⟩ := herr w hop hz
  exact runCommandWord_of_error t he

/-- The words of an opcode of format `CD` (R95). -/
theorem runsAs_of_formatCD {op : BitVec 8} {mk : Word → Instr}
    (h : ∀ w, opField w = op → decodeCommand w = formatCD (commandFields w) mk) :
    RunsAs op (fun w => aField w = 0) (fun w => mk (dField w)) :=
  runsAs_of_decodeCommand (fun w hop hz => (h w hop).trans (if_pos hz))
    (fun w hop hz => ⟨.mustBeZero, (h w hop).trans (if_neg hz)⟩)

theorem decodeCommand_setdev (w : CmdWord) (h : opField w = 0x10) :
    decodeCommand w = formatCD (commandFields w) .setdev := by
  simp [decodeCommand, decodeFields, commandFields, instructions, h]

/-! ## The answers of `SETDEV` (R121, R227) -/

theorem exec_setdev_of_ne_run {s : State} (d : Word) (hf : s.fsm ≠ .run) :
    exec (.setdev d) s = .next ⟨s.toStateOf.reject b32Machine .state (encodeCommand (.setdev d))⟩ :=
  congrArg (fun t => (.next ⟨t⟩ : Outcome)) (s.toStateOf.whenFsm_of_ne b32Machine .run _ _ hf)

theorem exec_setdev_of_run {s : State} (d : Word) (hf : s.fsm = .run) :
    exec (.setdev d) s = .next ⟨if validPositive b32 d then (s.toStateOf.applySetdev b32Machine d).accept b32Machine
      else s.toStateOf.reject b32Machine .maxdev (encodeCommand (.setdev d))⟩ :=
  congrArg (fun t => (.next ⟨t⟩ : Outcome)) (s.toStateOf.whenFsm_of_eq b32Machine .run _ _ hf)

/-- An accepted `SETDEV` ends in the `FSM` state it was found in, so deviation, gain and response are all it writes. -/
theorem applySetdev_accept_eq {s : State} (d : Word) (hf : s.fsm = .run) :
    (⟨(s.toStateOf.applySetdev b32Machine d).accept b32Machine⟩ : State) =
      { s with maxdev := d, gain := fdiv s.qrate (fmul 0x40C90FDB d), rspq := s.rspq ++ [0] } := by
  rw [hf]
  rfl

end Sys2Proof.Machine
end

section
/-! The statements settled: the gain calculator. -/

namespace Sys2Proof.Proofs

open Sys2Proof.Machine Sys2Proof.Claims

/-- Settles O26: `SETDEV` has format `CD`, and its answer is read off the state check and the check of the deviation. -/
theorem setdevSwapsGain : Obligations.SetdevSwapsGain := by
  refine ⟨runsAs_of_formatCD decodeCommand_setdev, fun s d => ⟨fun hf hd => ?_, fun hf hd => ?_, fun hf => ?_⟩⟩
  · have hd : validPositive b32 d = true := hd
    rw [exec_setdev_of_run d hf, if_pos hd, applySetdev_accept_eq d hf]
  · have hd : ¬validPositive b32 d = true := ne_true_of_eq_false hd
    rw [exec_setdev_of_run d hf, if_neg hd, reject_eq_rejected]
    rfl
  · rw [exec_setdev_of_ne_run d hf, reject_eq_rejected]
    rfl

/-- Settles O28: product and quotient keep the order of magnitudes, rounded (`B32`) as well as exact (`IDEAL`). -/
theorem gainDecreasesWithDeviation : Obligations.GainDecreasesWithDeviation :=
  ⟨fun _ _ _ hfs hd he hlt => flt_gaincalc_eq_false hfs hd he hlt,
    fun _ _ _ hfs hd hde => ⟨rfl, gaincalc_ideal_lt hfs hd hde⟩⟩

end Sys2Proof.Proofs
end

section
/-! SUPPORT. The three branches of `DEMOD` and of its phase difference (R131 to R136), in both profiles; the operations
that leave the Demodulator State (R29, R133); a tone under `IDEAL` (R137); and a sample's next state (R199). -/

namespace Sys2Proof.Machine

open Sys2Proof.Claims

/-! ## The branches of `DEMOD` (R131 to R136) -/

section AnyProfile
variable {α : Type} (P : Config.NumProfile α)

/-- R132: the branch of a zero-magnitude sample. -/
theorem demod_of_isZero (gain pI pQ : α) (pv : Bool) {i q : α} (h : (P.isZero i && P.isZero q) = true) :
    demod P gain pI pQ pv i q = ⟨P.zero, pI, pQ, pv⟩ := by
  simpa [h] using demod_cases P gain pI pQ pv i q

/-- R133: the branch of the first other sample. -/
theorem demod_unprimed (gain pI pQ : α) {i q : α} (h : (P.isZero i && P.isZero q) = false) :
    demod P gain pI pQ false i q = ⟨P.zero, i, q, true⟩ := by
  simpa [h] using demod_cases P gain pI pQ false i q

/-- R131: the branch of every later one. -/
theorem demod_primed (gain pI pQ : α) {i q : α} (h : (P.isZero i && P.isZero q) = false) :
    demod P gain pI pQ true i q =
      ⟨P.mul gain (dphi P (demodRe P i q pI pQ) (demodIm P i q pI pQ)), i, q, true⟩ := by
  simpa [h] using demod_cases P gain pI pQ true i q

/-- No sample unprimes the state (R29). -/
theorem demod_keeps_prevValid (gain pI pQ i q : α) : (demod P gain pI pQ true i q).prevValid = true := by
  cases h : P.isZero i && P.isZero q
  · rw [demod_primed P gain pI pQ h]
  · rw [demod_of_isZero P gain pI pQ true h]

/-- R136: a vanishing product. -/
theorem dphi_of_isZero {re im : α} (hre : P.isZero re = true) (him : P.isZero im = true) :
    dphi P re im = P.zero := by
  simpa [hre, him] using dphi_cases P re im

/-- R135: the branch cut, for either sign of the zero. -/
theorem dphi_branchCut {re im : α} (hre : P.isZero re = false) (him : P.isZero im = true)
    (hneg : P.lt re P.zero = true) : dphi P re im = P.pi := by
  simpa [hre, him, hneg] using dphi_cases P re im

/-- R131: everywhere else the phase difference is the angle. -/
theorem dphi_eq_atan2 {re im : α} (h : P.isZero im = false ∨ (P.isZero re = false ∧ P.lt re P.zero = false)) :
    dphi P re im = P.atan2 im re := by
  rcases h with him | ⟨hre, hneg⟩
  · simpa [him] using dphi_cases P re im
  · simpa [hre, hneg] using dphi_cases P re im

end AnyProfile

/-- A sample of non-zero magnitude passes the first test of `DEMOD`. -/
theorem b32_magnitude_ne_zero {i q : Word} (h : ¬(iszero i = true ∧ iszero q = true)) :
    (b32.isZero i && b32.isZero q) = false := by
  simpa using h

/-- R135: the phase difference of a finite product is within `NUM_PI`. -/
theorem dphi_within_pi {re im : Word} (hre : isfinite re = true) (him : isfinite im = true) :
    isfinite (dphi b32 re im) = true ∧ fmag (dphi b32 re im) ≤ fmag NUM_PI := by
  have hle : fmag (dphi b32 re im) ≤ fmag NUM_PI := by
    rcases dphi_cases b32 re im with ⟨-, e⟩ | ⟨-, -, e⟩ | ⟨hnz, -, e⟩ <;> rw [e]
    · exact Nat.zero_le _
    · exact le_rfl
    · exact fmag_fatan2_le im re him hre fun ⟨him0, hre0⟩ => by simp [him0, hre0] at hnz
  exact ⟨(isfinite_iff _).2 (hle.trans_lt (by decide)), hle⟩

/-! ## The Demodulator State under the operations (R29, R133) -/

/-- No command but `BUILD` and `TEARDN` writes the Demodulator State. -/
theorem exec_command_prev {i : Instr} {s t : State} (hi : i.isCommand = true) (hb : i ≠ .build) (ht : i ≠ .teardn)
    (h : exec i s = .next t) : t.prevValid = s.prevValid ∧ t.prevI = s.prevI ∧ t.prevQ = s.prevQ := by
  obtain ⟨u, e, hu⟩ := exec_command_cases i s hi
  obtain rfl : (⟨u⟩ : State) = t := Host.Outcome.next.inj (e.symm.trans h)
  rcases hu with ⟨_, rfl⟩ | ⟨_, -, -, rfl⟩ | ⟨_, -, -, rfl⟩ | ⟨_, -, -, rfl⟩ | ⟨_, -, -, rfl⟩ | ⟨_, _, -, -, -, rfl⟩ |
    ⟨hbuild, -⟩ | ⟨hteardn, -⟩ | ⟨_, _, -, -, rfl⟩ | ⟨_, -, -, -, rfl⟩ | ⟨_, -, -, -, rfl⟩
  pick_goal 7
  · exact absurd hbuild hb
  pick_goal 7
  · exact absurd hteardn ht
  all_goals exact ⟨rfl, rfl, rfl⟩

/-- A sample that answers a next state leaves a primed state primed. -/
theorem exec_sample_keeps_prevValid {i : Instr} {s t : State} (hi : i.isCommand = false) (h : exec i s = .next t)
    (hv : s.prevValid = true) : t.prevValid = true := by
  obtain ⟨last, x, y, -, e⟩ := exec_sample_cases i s hi
  rw [e] at h
  rcases s.toStateOf.runSample_cases b32Machine last x y with ⟨-, er⟩ | ⟨-, er⟩ <;> rw [er] at h <;> cases h
  rw [StateOf.applySample_prevValid, StateOf.demodResult, hv]
  exact demod_keeps_prevValid b32 _ _ _ x y

/-- A `BUILD` that makes an unbuilt block run was accepted, so it left the state unprimed (R196). -/
theorem exec_build_unprimed {s t : State} (hf : s.fsm = .unbuilt) (h : exec .build s = .next t)
    (hrun : t.fsm = .run) : t.prevValid = false := by
  obtain rfl : (⟨s.toStateOf.build b32Machine⟩ : State) = t := Host.Outcome.next.inj h
  rcases s.toStateOf.build_cases b32Machine with ⟨-, -, e⟩ | ⟨c, e⟩
  · simp [e]
  · simp [e, hf] at hrun

/-! ## The demodulator under `IDEAL` (R134, R137) -/

/-- The two special branches of the phase difference are values that the principal argument has anyway. -/
theorem dphi_ideal (z : ℂ) : dphi ideal z.re z.im = Complex.arg z := by
  rcases dphi_cases ideal z.re z.im with ⟨h, e⟩ | ⟨-, h, e⟩ | ⟨-, -, e⟩ <;> rw [e]
  · obtain ⟨hre, him⟩ : z.re = 0 ∧ z.im = 0 := by simpa using h
    rw [show z = 0 from Complex.ext hre him, Complex.arg_zero, ideal_zero]
  · obtain ⟨him, hneg⟩ : z.im = 0 ∧ z.re < 0 := by simpa using h
    rw [Complex.arg_eq_pi_iff.2 ⟨hneg, him⟩, ideal_pi]
  · rfl

/-- The new sample times the conjugate of the previous one (R131). -/
noncomputable def conjProduct (i q pI pQ : ℝ) : ℂ := (⟨i, q⟩ : ℂ) * (starRingEnd ℂ) (⟨pI, pQ⟩ : ℂ)

theorem conjProduct_re (i q pI pQ : ℝ) : (conjProduct i q pI pQ).re = i * pI + q * pQ := by
  rw [conjProduct, Complex.mul_re, Complex.conj_re, Complex.conj_im]
  ring

theorem conjProduct_im (i q pI pQ : ℝ) : (conjProduct i q pI pQ).im = q * pI - i * pQ := by
  rw [conjProduct, Complex.mul_im, Complex.conj_re, Complex.conj_im]
  ring

theorem demodRe_ideal (i q pI pQ : ℝ) : demodRe ideal i q pI pQ = (conjProduct i q pI pQ).re :=
  (conjProduct_re i q pI pQ).symm

theorem demodIm_ideal (i q pI pQ : ℝ) : demodIm ideal i q pI pQ = (conjProduct i q pI pQ).im :=
  (conjProduct_im i q pI pQ).symm

theorem ideal_magnitude_ne_zero {i q : ℝ} (h : i ≠ 0 ∨ q ≠ 0) : (ideal.isZero i && ideal.isZero q) = false := by
  rw [← Bool.not_eq_true, Bool.and_eq_true, ideal_isZero, ideal_isZero]
  tauto

theorem demod_ideal_primed (gain pI pQ : ℝ) {i q : ℝ} (h : i ≠ 0 ∨ q ≠ 0) :
    demod ideal gain pI pQ true i q = ⟨gain * Complex.arg (conjProduct i q pI pQ), i, q, true⟩ := by
  rw [demod_primed ideal gain pI pQ (ideal_magnitude_ne_zero h), demodRe_ideal, demodIm_ideal, dphi_ideal, ideal_mul]

/-- `n` points on the circle of radius `A`, the angle `δ` apart, from the angle `φ` on. -/
noncomputable def tonePoints (A φ δ : ℝ) (n : Nat) : List (ℝ × ℝ) :=
  (List.range n).map fun k : Nat => (A * Real.cos (φ + k * δ), A * Real.sin (φ + k * δ))

theorem tone_eq_tonePoints (A φ δ : ℝ) (n : Nat) : tone A φ δ n = tonePoints A φ δ (n + 1) := rfl

theorem tonePoints_succ (A φ δ : ℝ) (n : Nat) :
    tonePoints A φ δ (n + 1) = (A * Real.cos φ, A * Real.sin φ) :: tonePoints A (φ + δ) δ n := by
  have shift (k : Nat) : φ + ((k + 1 : Nat) : ℝ) * δ = φ + δ + k * δ := by
    push_cast
    ring
  simp [tonePoints, List.range_succ_eq_map, Function.comp_def, ← shift]

theorem tonePoint_ne_zero {A : ℝ} (hA : 0 < A) (θ : ℝ) : A * Real.cos θ ≠ 0 ∨ A * Real.sin θ ≠ 0 := by
  by_contra! h
  have hc : Real.cos θ = 0 := (mul_eq_zero.1 h.1).resolve_left hA.ne'
  have hs : Real.sin θ = 0 := (mul_eq_zero.1 h.2).resolve_left hA.ne'
  simpa [hc, hs] using Real.cos_sq_add_sin_sq θ

/-- R137 in polar form: the radius squared, at the phase increment. -/
theorem conjProduct_tonePoints (A δ θ : ℝ) :
    conjProduct (A * Real.cos (θ + δ)) (A * Real.sin (θ + δ)) (A * Real.cos θ) (A * Real.sin θ) =
      (A * A : ℝ) * (Complex.cos δ + Complex.sin δ * Complex.I) := by
  have hcos : Real.cos δ = Real.cos (θ + δ) * Real.cos θ + Real.sin (θ + δ) * Real.sin θ := by
    rw [← Real.cos_sub, add_sub_cancel_left]
  have hsin : Real.sin δ = Real.sin (θ + δ) * Real.cos θ - Real.cos (θ + δ) * Real.sin θ := by
    rw [← Real.sin_sub, add_sub_cancel_left]
  rw [← Complex.ofReal_cos, ← Complex.ofReal_sin]
  apply Complex.ext
  · rw [conjProduct_re, Complex.re_ofReal_mul, Complex.add_re, Complex.re_ofReal_mul, Complex.ofReal_re, Complex.I_re,
      hcos]
    ring
  · rw [conjProduct_im, Complex.im_ofReal_mul, Complex.add_im, Complex.im_ofReal_mul, Complex.ofReal_im, Complex.I_im,
      hsin]
    ring

/-- The angle between two successive points is the phase increment, whatever the radius. -/
theorem arg_conjProduct_tonePoints {A δ : ℝ} (hA : 0 < A) (hδ : δ ∈ Set.Ioc (-Real.pi) Real.pi) (θ : ℝ) :
    Complex.arg (conjProduct (A * Real.cos (θ + δ)) (A * Real.sin (θ + δ)) (A * Real.cos θ) (A * Real.sin θ)) = δ := by
  rw [conjProduct_tonePoints, Complex.arg_mul_cos_add_sin_mul_I (mul_pos hA hA) hδ]

/-- Primed with one point of a tone, the demodulator returns the same value for every further one. -/
theorem demodStream_tonePoints {A δ : ℝ} (hA : 0 < A) (hδ : δ ∈ Set.Ioc (-Real.pi) Real.pi) (gain : ℝ) (n : Nat)
    (φ : ℝ) : demodStream ideal gain (A * Real.cos φ) (A * Real.sin φ) true (tonePoints A (φ + δ) δ n) =
      List.replicate n (gain * δ) := by
  induction n generalizing φ with
  | zero => rfl
  | succ n ih =>
    simp only [tonePoints_succ, demodStream]
    rw [demod_ideal_primed gain _ _ (tonePoint_ne_zero hA (φ + δ)), arg_conjProduct_tonePoints hA hδ, ih,
      List.replicate_succ]

/-! ## The next state of a sample (R199) -/

/-- R168: what the scheduler outputs at a position, with the two dot products written out. -/
theorem outputAt_eq_positionWord (tap : Nat → Word) (h : List Word) (L : Nat) (pos : Rat) :
    outputAt b32 tap h L pos = positionWord tap h L pos.floor.toNat (pos - pos.floor) := rfl

theorem sampleOutputs_eq_positionWords (s : State) (i q : Word) :
    s.toStateOf.sampleOutputs b32Machine i q = (outputPositions s.rpos s.rstep).map fun pos =>
      positionWord s.readTap (s.histAfter b32Machine i q) s.L pos.floor.toNat (pos - pos.floor) :=
  List.map_congr_left fun pos _ => outputAt_eq_positionWord _ _ _ pos

/-- Where the scheduler is valid a sample answers the pipeline's state. -/
theorem exec_samples_of_valid {s : State} (h : s.toStateOf.schedulerValid = true) (i q : Word) :
    exec (.sample i q) s = .next ⟨s.toStateOf.applySample b32Machine true i q⟩ ∧
      exec (.samplec i q) s = .next ⟨s.toStateOf.applySample b32Machine false i q⟩ :=
  ⟨congrArg OutcomeOf.toState (StateOf.runSample_of_valid b32Machine h true i q),
    congrArg OutcomeOf.toState (StateOf.runSample_of_valid b32Machine h false i q)⟩

end Sys2Proof.Machine
end

section
/-! The statements settled: the quadrature demodulator and the sample path. -/

namespace Sys2Proof.Proofs

open Sys2Proof.Machine Sys2Proof.Claims

/-- Settles O30: the first branch of `DEMOD`, which does not look at the gain. -/
theorem zeroSampleIsPhasePreserving : Obligations.ZeroSampleIsPhasePreserving :=
  fun gain pI pQ _ _ pv hi hq => demod_of_isZero b32 gain pI pQ pv (Bool.and_eq_true_iff.2 ⟨hi, hq⟩)

/-- Settles O31: only `BUILD` and `TEARDN` write `PREV_VALID` among the commands, and a sample can only set it. -/
theorem firstSampleSeedsDemodulator : Obligations.FirstSampleSeedsDemodulator := by
  refine ⟨fun gain pI pQ i q h => demod_unprimed b32 gain pI pQ (b32_magnitude_ne_zero h),
    fun s t hf h hrun => exec_build_unprimed hf h hrun, fun i s t hb ht h => ?_⟩
  cases hi : i.isCommand
  case true =>
    have hprev := exec_command_prev hi hb ht h
    exact ⟨hprev.1.trans, fun _ => hprev⟩
  case false => exact ⟨exec_sample_keeps_prevValid hi h, nofun⟩

/-- Settles O32: the value of the last branch of `DEMOD`, by the three branches of the phase difference. -/
theorem demodulatorMeasuresPhaseDifference : Obligations.DemodulatorMeasuresPhaseDifference := by
  intro gain pI pQ i q h
  rw [demod_primed b32 gain pI pQ (b32_magnitude_ne_zero h)]
  exact ⟨_, _, rfl, rfl, rfl, rfl, rfl,
    fun hre him => congrArg (fmul gain) (dphi_of_isZero b32 hre him),
    fun hre him hneg => congrArg (fmul gain) (dphi_branchCut b32 hre him hneg),
    fun hangle => congrArg (fmul gain) (dphi_eq_atan2 b32 hangle)⟩

/-- Settles O33: the phase difference is within `NUM_PI`, and the rounded product by the gain keeps that order. -/
theorem demodulatorOutputIsBounded : Obligations.DemodulatorOutputIsBounded := by
  intro gain pI pQ i q pv hg hre him
  rcases demod_cases b32 gain pI pQ pv i q with ⟨-, e⟩ | ⟨-, -, e⟩ | ⟨-, -, e⟩ <;> rw [e]
  · exact Nat.zero_le _
  · exact Nat.zero_le _
  · obtain ⟨hfin, hle⟩ := dphi_within_pi hre him
    exact fmag_fmul_mono hg hfin (by decide) hle

/-- Settles O35: real and imaginary part of the conjugate product are those that `DEMOD` computes. -/
theorem idealDemodulatorIsArgument : Obligations.IdealDemodulatorIsArgument :=
  fun gain _ _ pI pQ h _ => congrArg DemodResult.out (demod_ideal_primed gain pI pQ h)

/-- Settles O36: the first point primes the state, each later one is the angle `δ` ahead of the one before it. -/
theorem idealToneGivesConstant : Obligations.IdealToneGivesConstant := by
  refine ⟨fun gain A φ δ n hA hlo hhi => ?_, fun fq dmax f0 hfq hdmax => ?_⟩
  · rw [tone_eq_tonePoints, tonePoints_succ, demodStream,
      demod_unprimed ideal gain 0 0 (ideal_magnitude_ne_zero (tonePoint_ne_zero hA φ)),
      demodStream_tonePoints hA ⟨hlo, hhi⟩ gain n φ, ideal_zero]
  · have hpi := Real.pi_pos
    simp only [gaincalc, ideal_div, ideal_mul, ideal_twoPi]
    field_simp

/-- Settles O40: the next state is the model's `applySample`; the stages in it are those written out. -/
theorem sampleRunsThreeStages : Obligations.SampleRunsThreeStages := by
  refine ⟨fun tap h L p => ⟨rfl, rfl⟩, fun s i q hpos hstep => ?_⟩
  obtain ⟨hsample, hsamplec⟩ := exec_samples_of_valid ((StateOf.schedulerValid_iff _).2 ⟨hpos, hstep⟩) i q
  refine ⟨s.demodResult b32Machine i q, (s.deemphResult b32Machine i q).1, (s.deemphResult b32Machine i q).2,
    s.histAfter b32Machine i q, _, rfl, fun hen => ?_, fun hen => ?_, rfl, rfl, hsample.trans ?_, hsamplec.trans ?_⟩
  · rw [StateOf.deemphResult, hen]
    exact ⟨rfl, rfl⟩
  · rw [StateOf.deemphResult, hen]
    exact ⟨rfl, rfl⟩
  all_goals
    rw [StateOf.applySample, sampleOutputs_eq_positionWords]
    rfl

end Sys2Proof.Proofs
end

section
/-! SUPPORT. The de-emphasis filter: both coefficients within the unit interval (R145), the answers of `SETTAU` (R147),
the bypass (R148), and the filter as a linear recurrence under `IDEAL` (R149). -/

namespace Sys2Proof.Machine

open Sys2Proof.Claims

/-! ## The unit interval in `B32` (R14) -/

/-- The patterns with the sign clear up to that of 1. -/
def InUnitInterval (a : Word) : Prop := fsign a = false ∧ fmag a ≤ fmag NUM_ONE

theorem magVal_one : magVal NUM_ONE = 1 := by decide +kernel

namespace InUnitInterval
variable {a : Word}

theorem isfinite (h : InUnitInterval a) : isfinite a = true :=
  (isfinite_iff a).2 (h.2.trans_lt (by decide))

theorem val_nonneg (h : InUnitInterval a) : 0 ≤ val a := by
  rw [val_of_sign_false a h.1]
  exact magVal_nonneg a

theorem val_le_one (h : InUnitInterval a) : val a ≤ 1 := by
  rw [val_of_sign_false a h.1, ← magVal_one]
  exact magVal_mono h.2

end InUnitInterval

/-! ## The coefficients (R145) -/

/-- The product of two positive finite numbers is positive or underflows to `+0`; it may overflow to the infinity. -/
theorem fmul_of_positive {a b : Word} (ha : isfinite a = true) (hapos : fgt0 a = true) (hb : isfinite b = true)
    (hbpos : fgt0 b = true) : fsign (fmul a b) = false ∧ fmag (fmul a b) ≤ infMag := by
  obtain ⟨-, hsa, -⟩ := (fgt0_iff a).1 hapos
  obtain ⟨-, hsb, -⟩ := (fgt0_iff b).1 hbpos
  rw [fmul_finite a b ha hb, fsign_withSign, fmag_withSign_roundMag, hsa, hsb]
  exact ⟨rfl, roundMag_le _⟩

theorem fadd_isinf_right {a b : Word} (ha : isfinite a = true) (hb : isinf b = true) : fadd a b = b := by
  have hnan : isnan b = false := by simp [isnan, (isinf_iff b).1 hb]
  simp [fadd, sumOr, not_isnan_of_isfinite a ha, not_isinf_of_isfinite a ha, hnan, hb]

/-- 1 and a number that is not negative add up to 1 at least, rounded, or to the infinity. -/
theorem fadd_one_of_nonneg {b : Word} (hsign : fsign b = false) (hle : fmag b ≤ infMag) :
    fgt0 (fadd NUM_ONE b) = true ∧ fmag NUM_ONE ≤ fmag (fadd NUM_ONE b) := by
  rw [fgt0_iff]
  rcases hle.lt_or_eq with hlt | hinf
  · have hval : val NUM_ONE + val b = 1 + magVal b := by
      rw [val_of_sign_false _ (by decide), val_of_sign_false b hsign, magVal_one]
    have hb := magVal_nonneg b
    have hmag : fmag NUM_ONE ≤ roundMag (1 + magVal b) := by
      rw [← roundMag_magVal (by decide : isfinite NUM_ONE = true), magVal_one]
      exact roundMag_mono zero_le_one (by linarith)
    have hone : 0 < fmag NUM_ONE := by decide
    rw [fadd_finite _ b (by decide) ((isfinite_iff b).2 hlt), hval, if_neg (by linarith), fmag_ofrat, fsign_ofrat,
      decide_eq_false_iff_not]
    exact ⟨⟨roundMag_le _, by linarith, by omega⟩, hmag⟩
  · rw [fadd_isinf_right (by decide) ((isinf_iff b).2 hinf), hinf]
    exact ⟨⟨le_rfl, hsign, by decide⟩, by decide⟩

/-- The reciprocal of a number of 1 or more: the quotient falls from `1 ÷ 1` as the divisor grows. -/
theorem fdiv_one_inUnitInterval {b : Word} (hpos : fgt0 b = true) (hle : fmag NUM_ONE ≤ fmag b) :
    InUnitInterval (fdiv NUM_ONE b) :=
  ⟨fsign_fdiv_of_fgt0 (by decide) hpos,
    (fmag_fdiv_antitone (by decide) (by decide) hpos hle).trans (by decide +kernel)⟩

/-- The unit interval is closed under `1 − a`. -/
theorem fsub_one_inUnitInterval {a : Word} (h : InUnitInterval a) : InUnitInterval (fsub NUM_ONE a) := by
  have hval : val NUM_ONE - val a = 1 - val a := by rw [val_of_sign_false _ (by decide), magVal_one]
  have hnonneg : 0 ≤ 1 - val a := sub_nonneg.2 h.val_le_one
  rw [fsub_finite _ a (by decide) h.isfinite, hval]
  split_ifs
  · exact ⟨fsign_withSign _ _, by simp⟩
  · refine ⟨by rw [fsign_ofrat, decide_eq_false_iff_not]; exact not_lt.2 hnonneg, ?_⟩
    rw [fmag_ofrat, ← roundMag_magVal (by decide : isfinite NUM_ONE = true), magVal_one]
    exact roundMag_mono hnonneg (sub_le_self 1 h.val_nonneg)

theorem decoefAlpha_inUnitInterval {tau fs : Word} (htau : isfinite tau = true) (hpos : fgt0 tau = true)
    (hfs : positiveFinite fs = true) : InUnitInterval (decoefAlpha b32 tau fs) := by
  obtain ⟨hfs, hfspos⟩ := Bool.and_eq_true_iff.1 hfs
  obtain ⟨hsign, hle⟩ := fmul_of_positive htau hpos hfs hfspos
  obtain ⟨hdivpos, hdiv⟩ := fadd_one_of_nonneg hsign hle
  exact fdiv_one_inUnitInterval hdivpos hdiv

/-! ## The answers of `SETTAU` (R147, R229) -/

theorem decodeCommand_settau (w : CmdWord) (h : opField w = 0x11) :
    decodeCommand w = formatCD (commandFields w) .settau := by
  simp [decodeCommand, decodeFields, commandFields, instructions, h]

theorem exec_settau_of_ne_run {s : State} (d : Word) (hf : s.fsm ≠ .run) :
    exec (.settau d) s = .next ⟨s.toStateOf.reject b32Machine .state (encodeCommand (.settau d))⟩ :=
  congrArg (fun t => (.next ⟨t⟩ : Outcome)) (s.toStateOf.whenFsm_of_ne b32Machine .run _ _ hf)

theorem exec_settau_of_run {s : State} (d : Word) (hf : s.fsm = .run) :
    exec (.settau d) s = .next ⟨if isfinite d then (s.toStateOf.applySettau b32Machine d).accept b32Machine
      else s.toStateOf.reject b32Machine .tau (encodeCommand (.settau d))⟩ :=
  congrArg (fun t => (.next ⟨t⟩ : Outcome)) (s.toStateOf.whenFsm_of_eq b32Machine .run _ _ hf)

/-- An accepted `SETTAU` ends in the `FSM` state it was found in; the three answers of `DECOEF` are what it writes
beside the time constant, `YPREV` and the response. -/
theorem applySettau_accept_eq {s : State} (d : Word) (hf : s.fsm = .run) :
    (⟨(s.toStateOf.applySettau b32Machine d).accept b32Machine⟩ : State) =
      { s with
        tau := d
        deEn := (decoef b32 d s.qrate).en
        alpha := (decoef b32 d s.qrate).alpha
        beta := (decoef b32 d s.qrate).beta
        yprev := 0
        rspq := s.rspq ++ [0] } := by
  rw [hf]
  rfl

/-- `DECOEF` with its two branches written out (R145). -/
theorem decoef_b32 (tau fs : Word) :
    decoef b32 tau fs = ⟨fgt0 tau,
      if fgt0 tau then fdiv 0x3F800000 (fadd 0x3F800000 (fmul tau fs)) else 0x3F800000,
      if fgt0 tau then fsub 0x3F800000 (fdiv 0x3F800000 (fadd 0x3F800000 (fmul tau fs))) else 0x00000000⟩ := by
  cases h : fgt0 tau
  case false => exact decoef_bypass b32 tau fs h
  case true => exact decoef_active b32 tau fs h

/-! ## The bypass (R148) -/

theorem deemphStream_bypass {α : Type} (P : Config.NumProfile α) (alpha beta y : α) (xs : List α) :
    deemphStream P false alpha beta y xs = xs := by
  induction xs with
  | nil => rfl
  | cons x xs ih => simp [deemphStream, ih]

section AnyProfile
variable {Num Cmd Rsp Smp : Type} (P : Profile Num Cmd Rsp Smp) (s : StateOf Num Cmd Rsp Smp)

/-- With the filter off `DEEMPH` passes on what `DEMOD` answered and keeps `YPREV`. -/
theorem StateOf.deemphResult_bypass (h : s.deEn = false) (i q : Num) :
    s.deemphResult P i q = ((s.demodResult P i q).out, s.yprev) := by
  rw [StateOf.deemphResult, h, deemph_bypass]

/-- With the filter off the newest entry of the delay line is the demodulated value. -/
theorem StateOf.histAfter_head_bypass (h : s.deEn = false) (hL : 1 ≤ s.L) (i q : Num) :
    (s.histAfter P i q).head? = some (s.demodResult P i q).out := by
  rw [StateOf.histAfter, shiftIn_head _ _ _ hL, s.deemphResult_bypass P h]

/-- With the filter off a sample neither reads nor writes `YPREV`. -/
theorem StateOf.applySample_with_yprev (h : s.deEn = false) (last : Bool) (i q v : Num) :
    ({ s with yprev := v } : StateOf Num Cmd Rsp Smp).applySample P last i q =
      { s.applySample P last i q with yprev := v } := by
  have hfilter (t : StateOf Num Cmd Rsp Smp) (ht : t.deEn = false) := t.deemphResult_bypass P ht i q
  simp only [StateOf.applySample, StateOf.sampleOutputs, StateOf.histAfter, hfilter s h,
    hfilter { s with yprev := v } h]
  rfl

end AnyProfile

/-- `SAMPLE` answers a next state only where the scheduler is valid, and it is the pipeline's. -/
theorem exec_sample_eq_next {s t : State} {i q : Word} (h : exec (.sample i q) s = .next t) :
    s.toStateOf.schedulerValid = true ∧ t = ⟨s.toStateOf.applySample b32Machine true i q⟩ := by
  have hrun : OutcomeOf.toState (s.toStateOf.runSample b32Machine true i q) = .next t := h
  rcases s.toStateOf.runSample_cases b32Machine true i q with ⟨hv, e⟩ | ⟨-, e⟩ <;> rw [e] at hrun <;> cases hrun
  exact ⟨hv, rfl⟩

/-- With the filter off a sample keeps `YPREV` and enters the delay line as demodulated. -/
theorem exec_sample_bypass {s t : State} {i q : Word} (hen : s.deEn = false) (hL : 1 ≤ s.L)
    (h : exec (.sample i q) s = .next t) :
    t.yprev = s.yprev ∧ t.hist.head? = some (demod b32 s.gain s.prevI s.prevQ s.prevValid i q).out := by
  obtain ⟨-, rfl⟩ := exec_sample_eq_next h
  exact ⟨congrArg Prod.snd (s.toStateOf.deemphResult_bypass b32Machine hen i q),
    s.toStateOf.histAfter_head_bypass b32Machine hen hL i q⟩

/-! ## The filter under `IDEAL` (R146, R149) -/

/-- One step of the recurrence, and the stream goes on from its result. -/
theorem deemphStream_ideal_cons (α β y x : ℝ) (xs : List ℝ) :
    deemphStream ideal true α β y (x :: xs) =
      (α * x + β * y) :: deemphStream ideal true α β (α * x + β * y) xs := rfl

/-- The response from any filter state: the convolution with `α·β^m`, and what is left of the state. -/
theorem deemphStream_ideal_getElem? (α β y : ℝ) (xs : List ℝ) (n : Nat) (hn : n < xs.length) :
    (deemphStream ideal true α β y xs)[n]? =
      some (∑ m ∈ Finset.range (n + 1), α * β ^ m * xs.getD (n - m) 0 + β ^ (n + 1) * y) := by
  induction xs generalizing y n with
  | nil => exact absurd hn (Nat.not_lt_zero n)
  | cons x xs ih =>
    rw [deemphStream_ideal_cons]
    cases n with
    | zero => simp
    | succ n =>
      have earlier : ∑ m ∈ Finset.range (n + 1), α * β ^ m * (x :: xs).getD (n + 1 - m) 0 =
          ∑ m ∈ Finset.range (n + 1), α * β ^ m * xs.getD (n - m) 0 := by
        refine Finset.sum_congr rfl fun m hm => ?_
        rw [Nat.succ_sub (Finset.mem_range_succ_iff.1 hm), List.getD_cons_succ]
      rw [List.getElem?_cons_succ, ih _ n (Nat.lt_of_succ_lt_succ hn), Finset.sum_range_succ _ (n + 1), earlier,
        Nat.sub_self, List.getD_cons_zero]
      congr 1
      ring

/-- Scaling the inputs and the filter state scales the response. -/
theorem deemphStream_ideal_smul (α β k y : ℝ) (xs : List ℝ) :
    deemphStream ideal true α β (k * y) (xs.map fun x => k * x) =
      (deemphStream ideal true α β y xs).map fun y => k * y := by
  induction xs generalizing y with
  | nil => rfl
  | cons x xs ih =>
    have hstep : α * (k * x) + β * (k * y) = k * (α * x + β * y) := by ring
    rw [List.map_cons, deemphStream_ideal_cons, deemphStream_ideal_cons, hstep, ih, List.map_cons]

/-- For a constant input every step shrinks the distance to that constant by `1 − α`. -/
theorem deemphStream_ideal_replicate (α c y : ℝ) (n : Nat) :
    deemphStream ideal true α (1 - α) y (List.replicate n c) =
      (List.range n).map fun m : Nat => c + (1 - α) ^ (m + 1) * (y - c) := by
  induction n generalizing y with
  | zero => rfl
  | succ n ih =>
    have hfirst : α * c + (1 - α) * y = c + (1 - α) ^ (0 + 1) * (y - c) := by ring
    have hlater (m : Nat) : c + (1 - α) ^ (m + 1) * (c + (1 - α) ^ (0 + 1) * (y - c) - c) =
        c + (1 - α) ^ (m + 1 + 1) * (y - c) := by ring
    rw [List.replicate_succ, deemphStream_ideal_cons, hfirst, ih, List.range_succ_eq_map, List.map_cons, List.map_map]
    exact congrArg (List.cons _) (List.map_congr_left fun m _ => hlater m)

end Sys2Proof.Machine
end

section
/-! The statements settled: the de-emphasis filter. -/

namespace Sys2Proof.Proofs

open Sys2Proof.Machine Sys2Proof.Claims

/-- Settles O27: `SETTAU` has format `CD`, and its answer is read off the state check and the test for a finite time
constant. -/
theorem settauRestartsFilter : Obligations.SettauRestartsFilter := by
  refine ⟨runsAs_of_formatCD decodeCommand_settau, fun s d => ⟨fun hf hd => ?_, fun hf hd => ?_, fun hf => ?_⟩⟩
  · rw [exec_settau_of_run d hf, if_pos hd, applySettau_accept_eq d hf, decoef_b32]
  · rw [exec_settau_of_run d hf, if_neg (ne_true_of_eq_false hd), reject_eq_rejected]
    rfl
  · rw [exec_settau_of_ne_run d hf, reject_eq_rejected]
    rfl

/-- Settles O29: the divisor is 1 at least, so its reciprocal is in the unit interval, which is closed under `1 − a`. -/
theorem coefficientsLieInUnitInterval : Obligations.CoefficientsLieInUnitInterval := by
  intro tau fs htau hfs
  refine ⟨decoef_bypass b32 tau fs, fun hpos => ?_⟩
  have halpha := decoefAlpha_inUnitInterval htau hpos hfs
  have hbeta := fsub_one_inUnitInterval halpha
  rw [decoef_active b32 tau fs hpos]
  exact ⟨rfl, halpha.isfinite, hbeta.isfinite, halpha.val_nonneg, halpha.val_le_one, hbeta.val_nonneg,
    hbeta.val_le_one⟩

/-- Settles O37: the bypass looks at neither coefficient nor `YPREV`, which is zero in every reachable state by I4. -/
theorem bypassPassesValuesUnchanged : Obligations.BypassPassesValuesUnchanged := by
  refine ⟨deemph_bypass b32, deemphStream_bypass b32, fun s t i q v hen hL h => ?_,
    fun s hs hen => (inv_of_reachable hs).bypass hen⟩
  obtain ⟨hyprev, hhist⟩ := exec_sample_bypass hen hL h
  obtain ⟨hvalid, rfl⟩ := exec_sample_eq_next h
  refine ⟨hyprev, hhist, ?_⟩
  rw [(exec_samples_of_valid (s := { s with yprev := v }) hvalid i q).1]
  exact congrArg (fun u => (.next ⟨u⟩ : Outcome)) (s.toStateOf.applySample_with_yprev b32Machine hen true i q v)

/-- Settles O38: such a `SETTAU` turns the filter off, zeroes `YPREV` and leaves what the demodulator reads. -/
theorem settauToZeroLeavesNoResidue : Obligations.SettauToZeroLeavesNoResidue := by
  intro s t u d i q hf hL hd hpos ht hu
  rw [exec_settau_of_run d hf, if_pos hd] at ht
  have ht : t = ⟨(s.toStateOf.applySettau b32Machine d).accept b32Machine⟩ := (Host.Outcome.next.inj ht).symm
  have hen : t.deEn = false := by rw [ht]; exact (decoef_en b32 d s.qrate).trans hpos
  have hLt : 1 ≤ t.L := by rw [ht]; exact hL
  obtain ⟨hyprev, hhist⟩ := exec_sample_bypass hen hLt hu
  rw [ht] at hyprev hhist
  exact ⟨hhist, hyprev⟩

/-- Settles O39: the response from rest is that from any filter state, taken at zero. -/
theorem idealFilterIsLinearTimeInvariant : Obligations.IdealFilterIsLinearTimeInvariant := by
  refine fun α xs => ⟨fun n hn => ?_, fun k => ?_, fun c n => ?_⟩
  · rw [deemphStream_ideal_getElem? α (1 - α) 0 xs n hn, mul_zero, add_zero]
  · rw [← deemphStream_ideal_smul, mul_zero]
  · rw [deemphStream_ideal_replicate]
    refine List.map_congr_left fun m _ => ?_
    ring

end Sys2Proof.Proofs
end

section
/-! SUPPORT. The answers of `LDTAP` (R163), the cutoff check of `BUILD` (R175), ratio 1 and an impulse arm (R174), and
the filter bank under `IDEAL` (R165 to R168). -/

namespace Sys2Proof.Machine

open Sys2Proof.Claims

/-! ## `LDTAP` (R163) -/

/-- The one row of format `CAD`: no field must be 0. -/
theorem decodeCommand_ldtap (w : CmdWord) (h : opField w = 0x05) :
    decodeCommand w = .ok (.ldtap (aField w).toNat (dField w)) := by
  simp [decodeCommand, decodeFields, formatCAD, commandFields, instructions, h]

theorem exec_ldtap_of_ne_unbuilt {s : State} (j : Nat) (d : Word) (hf : s.fsm ≠ .unbuilt) :
    exec (.ldtap j d) s = .next ⟨s.toStateOf.reject b32Machine .state (encodeCommand (.ldtap j d))⟩ :=
  congrArg (fun t => (.next ⟨t⟩ : Outcome)) (s.toStateOf.whenFsm_of_ne b32Machine .unbuilt _ _ hf)

theorem exec_ldtap_of_unbuilt {s : State} (j : Nat) (d : Word) (hf : s.fsm = .unbuilt) :
    exec (.ldtap j d) s = .next ⟨if s.tapCells ≤ j then s.toStateOf.reject b32Machine .addr (encodeCommand (.ldtap j d))
      else (s.toStateOf.writeTap j d).accept b32Machine⟩ :=
  congrArg (fun t => (.next ⟨t⟩ : Outcome)) (s.toStateOf.whenFsm_of_eq b32Machine .unbuilt _ _ hf)

/-! ## The cutoff check (R175) -/

theorem fmul_comm_of_isfinite {a b : Word} (ha : isfinite a = true) (hb : isfinite b = true) : fmul a b = fmul b a := by
  rw [fmul_finite a b ha hb, fmul_finite b a hb ha, mul_comm, bne_comm]

theorem magVal_half : magVal NUM_HALF = 1 / 2 := by decide +kernel

/-- Halving underflows for the least subnormal only: half of any greater magnitude is rounded to that one at least. -/
theorem fmag_fmul_half_ne_zero {m : Word} (hm : isfinite m = true) (h : 2 ≤ fmag m) : fmag (fmul m NUM_HALF) ≠ 0 := by
  have hdouble : magNum 2 = 2 * magNum 1 := by simp [magNum, magUnits]; ring
  have hle : magNum 1 ≤ magVal m * magVal NUM_HALF := by
    have := magNum_strictMono.monotone h
    rw [magVal_half, magVal_eq]
    linarith
  have hone : roundMag (magNum 1) = 1 := by decide +kernel
  have hmono := roundMag_mono (magNum_nonneg 1) hle
  rw [fmul_finite m _ hm (by decide), fmag_withSign_roundMag]
  omega

/-- Half of a positive number is positive but for the least subnormal. -/
theorem fgt0_fmul_half {m : Word} (hm : positiveFinite m = true) :
    fgt0 (fmul m NUM_HALF) = false ↔ m = 0x00000001 := by
  obtain ⟨hfin, hpos⟩ := Bool.and_eq_true_iff.1 hm
  obtain ⟨-, hsign, hne⟩ := (fgt0_iff m).1 hpos
  constructor
  · intro hzero
    obtain ⟨hs, hle⟩ := fmul_of_positive hfin hpos (b := NUM_HALF) (by decide) (by decide)
    by_contra hm1
    have hmag : fmag m ≠ 1 := fun h1 => hm1 (word_ext_sign_mag _ _ hsign h1)
    have := (fgt0_iff (fmul m NUM_HALF)).2 ⟨hle, hs, fmag_fmul_half_ne_zero hfin (by omega)⟩
    simp [hzero] at this
  · rintro rfl
    decide +kernel

/-- A positive finite number by its parts. -/
theorem positiveFinite_iff (a : Word) : positiveFinite a = true ↔ fsign a = false ∧ 0 < fmag a ∧ fmag a < infMag := by
  rw [Bool.and_eq_true, isfinite_iff, fgt0_iff]
  exact ⟨fun ⟨hfin, _, hsign, hne⟩ => ⟨hsign, Nat.pos_of_ne_zero hne, hfin⟩,
    fun ⟨hsign, hpos, hfin⟩ => ⟨hfin, hfin.le, hsign, hpos.ne'⟩⟩

theorem eq_leastSubnormal_iff {a : Word} (h : positiveFinite a = true) : a = 0x00000001 ↔ fmag a = 1 := by
  obtain ⟨hsign, -, -⟩ := (positiveFinite_iff a).1 h
  exact ⟨fun e => e ▸ rfl, word_ext_sign_mag a 0x00000001 hsign⟩

/-- `min(QRATE, ARATE)` as R38 picks it is a valid rate, and its magnitude is the lesser one. -/
theorem lesserRate_spec {q a : Word} (hq : positiveFinite q = true) (ha : positiveFinite a = true) :
    positiveFinite (if flt q a then q else a) = true ∧
      fmag (if flt q a then q else a) = min (fmag q) (fmag a) := by
  obtain ⟨hsq, -, hfinq⟩ := (positiveFinite_iff q).1 hq
  obtain ⟨hsa, -, hfina⟩ := (positiveFinite_iff a).1 ha
  have hlt : flt q a = true ↔ fmag q < fmag a := by
    simp [flt, orderKey, isnan, hsq, hsa, hfinq.le, hfina.le]
  split_ifs with h <;> rw [hlt] at h
  · exact ⟨hq, (min_eq_left h.le).symm⟩
  · exact ⟨ha, (min_eq_right (not_lt.1 h)).symm⟩

/-- Halving keeps the order, so half of a number is never above half of a greater one. -/
theorem flt_fmul_half_eq_false {a b : Word} (ha : positiveFinite a = true) (hb : positiveFinite b = true)
    (h : fmag b ≤ fmag a) : flt (fmul a NUM_HALF) (fmul b NUM_HALF) = false := by
  obtain ⟨hfina, hposa⟩ := Bool.and_eq_true_iff.1 ha
  obtain ⟨hfinb, hposb⟩ := Bool.and_eq_true_iff.1 hb
  have hhalf : isfinite NUM_HALF = true := by decide
  refine flt_eq_false_of_fmag_le (fmul_of_positive hfina hposa hhalf (by decide)).1
    (fmul_of_positive hfinb hposb hhalf (by decide)).1 ?_
  rw [fmul_comm_of_isfinite hfina hhalf, fmul_comm_of_isfinite hfinb hhalf]
  exact fmag_fmul_mono hhalf hfinb hfina h

theorem requestedCutoff_eq (q a : Word) :
    requestedCutoff q a = fmul (if flt q a then q else a) NUM_HALF := rfl

/-- Of the three checks only that for a positive cutoff can fail. -/
theorem cutoffBad_eq {q a : Word} (hq : positiveFinite q = true) (ha : positiveFinite a = true) :
    cutoffBad q a = !fgt0 (requestedCutoff q a) := by
  obtain ⟨hm, hmin⟩ := lesserRate_spec hq ha
  have hq' : flt (fmul q 0x3F000000) (requestedCutoff q a) = false := flt_fmul_half_eq_false hq hm (by omega)
  have ha' : flt (fmul a 0x3F000000) (requestedCutoff q a) = false := flt_fmul_half_eq_false ha hm (by omega)
  rw [cutoffBad, hq', ha', Bool.or_false, Bool.or_false]

theorem cutoffBad_iff {q a : Word} (hq : positiveFinite q = true) (ha : positiveFinite a = true) :
    cutoffBad q a = true ↔ q = 0x00000001 ∨ a = 0x00000001 := by
  obtain ⟨hm, hmin⟩ := lesserRate_spec hq ha
  obtain ⟨-, hq0, -⟩ := (positiveFinite_iff q).1 hq
  obtain ⟨-, ha0, -⟩ := (positiveFinite_iff a).1 ha
  rw [cutoffBad_eq hq ha, Bool.not_eq_true', requestedCutoff_eq, fgt0_fmul_half hm, eq_leastSubnormal_iff hm,
    eq_leastSubnormal_iff hq, eq_leastSubnormal_iff ha, hmin]
  omega

/-- Without rounding half of the lesser rate is positive and exceeds neither half. -/
theorem cutoffInvalid_ideal {q a : ℝ} (hq : 0 < q) (ha : 0 < a) : cutoffInvalid ideal q a = false := by
  have hcutoff : dreqCutoff ideal q a = min q a * (1 / 2) := by
    rw [dreqCutoff, ideal_mul, ideal_half]
    split_ifs with hlt <;> rw [ideal_lt] at hlt
    · rw [min_eq_left hlt.le]
    · rw [min_eq_right (not_lt.1 hlt)]
  have hpos : 0 < min q a := lt_min hq ha
  have hleq := min_le_left q a
  have hlea := min_le_right q a
  rw [← Bool.not_eq_true, cutoffInvalid, hcutoff]
  simp only [Bool.or_eq_true, Bool.not_eq_true', ← Bool.not_eq_true, ideal_gt0, ideal_lt, ideal_mul, ideal_half]
  rintro ((h | h) | h) <;> linarith

/-! ## Ratio 1 (R174) -/

theorem stepOfRates_self {w : Word} (h : validPositive b32 w = true) : stepOfRates b32 w w = 32 :=
  mul_div_cancel_right₀ _ (val_pos_of_validPositive h).ne'

/-- One turn of the loop, which ends where it began, 32 phase units on. -/
theorem outputPositions_ratioOne : outputPositions 0 32 = [0] ∧ nextRpos 0 32 = 0 := by decide +kernel

/-- At position 0 the output is that of arm 0. -/
theorem outputAt_zero {α : Type} (P : Config.NumProfile α) (tap : Nat → α) (hist : List α) (L : Nat) :
    outputAt P tap hist L 0 = fir P tap hist L 0 := by
  have hfloor : (0 : Rat).floor = 0 := rfl
  rw [outputAt, hfloor, Int.cast_zero, sub_zero, Int.toNat_zero, interp_zero]

/-! ## Products and sums with a zero and with 1 (R14) -/

theorem isfinite_of_iszero {a : Word} (h : iszero a = true) : isfinite a = true := by
  rw [isfinite_iff, (iszero_iff a).1 h]
  decide

/-- A zero factor makes the product a zero. -/
theorem iszero_fmul {a b : Word} (ha : iszero a = true) (hb : isfinite b = true) : iszero (fmul a b) = true := by
  rw [fmul_finite a b (isfinite_of_iszero ha) hb, iszero_iff, fmag_withSign_roundMag, (magVal_eq_zero a).2 ha, zero_mul]
  decide

/-- The product by 1 is the other factor bit for bit. -/
theorem fmul_one_left {b : Word} (hb : isfinite b = true) : fmul NUM_ONE b = b := by
  have hsign : (fsign NUM_ONE != fsign b) = fsign b := by
    rw [show fsign NUM_ONE = false from by decide, Bool.false_bne]
  rw [fmul_finite _ b (by decide) hb, hsign, magVal_one, one_mul, roundMag_magVal hb, withSign_fsign_fmag]

/-- A sum is the exact sum rounded, but for the zero sum of two operands with the sign set. -/
theorem fadd_eq_ofrat {a b : Word} (ha : isfinite a = true) (hb : isfinite b = true)
    (h : val a + val b = 0 → (fsign a && fsign b) = false) : fadd a b = ofrat (val a + val b) := by
  rw [fadd_finite a b ha hb]
  split_ifs with h0
  · rw [h h0, h0]
    decide
  · rfl

/-- The pattern with `−0` made `+0`. -/
def plusZero (a : Word) : Word := if iszero a = true then 0 else a

theorem plusZero_of_iszero {a : Word} (h : iszero a = true) : plusZero a = NUM_ZERO := if_pos h

theorem plusZero_of_nonzero {a : Word} (h : iszero a = false) : plusZero a = a := if_neg (ne_true_of_eq_false h)

/-- Rounding a finite pattern's value gives it back so. -/
theorem ofrat_val {a : Word} (h : isfinite a = true) : ofrat (val a) = plusZero a :=
  Proofs.roundingKeepsRepresentables a h

/-- The accumulation starts from `+0`, which turns a `−0` into `+0` (R166, R174). -/
theorem fadd_zero_left {b : Word} (hb : isfinite b = true) : fadd NUM_ZERO b = plusZero b := by
  have hzero : val NUM_ZERO = 0 := (val_eq_zero _).2 (by decide)
  rw [fadd_eq_ofrat (by decide) hb fun _ => rfl, hzero, zero_add, ofrat_val hb]

/-- A zero added later, of either sign, changes nothing. -/
theorem fadd_plusZero_iszero {a b : Word} (ha : isfinite a = true) (hb : iszero b = true) :
    fadd (plusZero a) b = plusZero a := by
  cases h : iszero a
  case true =>
    rw [plusZero_of_iszero h, fadd_zero_left (isfinite_of_iszero hb), plusZero_of_iszero hb]
  case false =>
    have hval : val a + val b = val a := by rw [(val_eq_zero b).2 hb, add_zero]
    have hne : val a ≠ 0 := fun h0 => by simp [(val_eq_zero a).1 h0] at h
    rw [plusZero_of_nonzero h, fadd_eq_ofrat ha (isfinite_of_iszero hb) fun h0 => absurd (hval.symm.trans h0) hne, hval,
      ofrat_val ha, plusZero_of_nonzero h]

/-! ## An impulse arm (R166, R174) -/

/-- The accumulation of a row, its last product split off. -/
theorem dotRow_succ {α : Type} (P : Config.NumProfile α) (row : Nat → α) (hist : List α) (n : Nat) :
    dotRow P row hist (n + 1) = P.add (dotRow P row hist n) (P.mul (row n) (hist.getD n P.zero)) := by
  simp [dotRow, List.range_succ]

/-- The partial sums of a row that is a unit impulse at `k0`: `+0` up to it, the sample there from then on. -/
theorem dotRow_impulse {row : Nat → Word} {hist : List Word} {L k0 : Nat}
    (hhist : ∀ k, k < L → isfinite (hist.getD k 0) = true)
    (hrow : ∀ k, k < L → row k = if k = k0 then NUM_ONE else NUM_ZERO) :
    dotRow b32 row hist L = if k0 < L then plusZero (hist.getD k0 0) else NUM_ZERO := by
  induction L with
  | zero => rfl
  | succ n ih =>
    have hx : isfinite (hist.getD n 0) = true := hhist n n.lt_succ_self
    have hzero : iszero (fmul NUM_ZERO (hist.getD n 0)) = true := iszero_fmul (by decide) hx
    rw [dotRow_succ, ih (fun k hk => hhist k (hk.trans n.lt_succ_self)) (fun k hk => hrow k (hk.trans n.lt_succ_self)),
      hrow n n.lt_succ_self, b32_add, b32_mul, show b32.zero = (0 : Word) from rfl]
    rcases lt_trichotomy k0 n with hlt | rfl | hgt
    · rw [if_pos hlt, if_neg hlt.ne', if_pos (hlt.trans n.lt_succ_self),
        fadd_plusZero_iszero (hhist k0 (hlt.trans n.lt_succ_self)) hzero]
    · rw [if_neg (lt_irrefl _), if_pos rfl, if_pos (Nat.lt_succ_self _), fmul_one_left hx, fadd_zero_left hx]
    · rw [if_neg hgt.not_gt, if_neg hgt.ne, if_neg (by omega), fadd_zero_left (isfinite_of_iszero hzero),
        plusZero_of_iszero hzero]

/-! ## The bank under `IDEAL` (R165 to R168) -/

theorem dotRow_ideal (row : Nat → ℝ) (hist : List ℝ) (L : Nat) :
    dotRow ideal row hist L = ∑ k ∈ Finset.range L, row k * hist.getD k 0 := by
  induction L with
  | zero => rfl
  | succ n ih =>
    rw [dotRow_succ, ih, Finset.sum_range_succ, ideal_add, ideal_mul, ideal_zero]

/-- Over a constant delay line a row gives the constant times the sum of the row. -/
theorem dotRow_ideal_replicate (row : Nat → ℝ) (c : ℝ) (L : Nat) :
    dotRow ideal row (List.replicate L c) L = (∑ k ∈ Finset.range L, row k) * c := by
  rw [dotRow_ideal, Finset.sum_mul]
  refine Finset.sum_congr rfl fun k hk => ?_
  rw [List.getD_replicate _ (Finset.mem_range.1 hk)]

/-- R168: the interpolation is linear. -/
theorem interp_ideal (tap : Nat → ℝ) (hist : List ℝ) (L p : Nat) (mu : Rat) :
    interp ideal tap hist L p mu = (1 - (mu : ℝ)) * fir ideal tap hist L p + (mu : ℝ) * firn ideal tap hist L p := by
  by_cases h : mu = 0
  · subst h
    rw [interp_zero, Rat.cast_zero]
    ring
  · rw [interp_of_ne ideal tap hist L p mu h, ideal_add, ideal_mul, ideal_sub, ideal_ofRat]
    ring

/-- Arm 0 shifted by one tap sums to what arm 0 does without its tap 0 (R165). -/
theorem sum_nextTap_wrap (tap : Nat → ℝ) (L : Nat) (hL : 1 ≤ L) :
    ∑ k ∈ Finset.range L, nextTap ideal tap L 31 k = (∑ k ∈ Finset.range L, armTap tap 0 k) - armTap tap 0 0 := by
  obtain ⟨n, rfl⟩ := Nat.exists_eq_add_of_le' hL
  have hlast : nextTap ideal tap (n + 1) 31 n = 0 := by simp [nextTap_wrap]
  rw [Finset.sum_range_succ, hlast, add_zero, Finset.sum_range_succ', add_sub_cancel_right]
  refine Finset.sum_congr rfl fun k hk => ?_
  rw [nextTap_wrap, if_pos (Nat.succ_lt_succ (Finset.mem_range.1 hk))]

/-- Under `TapsArmDC` and `TapsEdgeZero` the next row has unit gain too, arm 31's included. -/
theorem sum_nextTap {tap : Nat → ℝ} {L : Nat} (hL : 1 ≤ L)
    (hdc : ∀ p, p < 32 → ∑ k ∈ Finset.range L, armTap tap p k = 1) (hedge : tap 0 = 0) {p : Nat} (hp : p < 32) :
    ∑ k ∈ Finset.range L, nextTap ideal tap L p k = 1 := by
  rcases Nat.lt_or_ge p 31 with hlt | hge
  · simpa [nextTap_of_lt ideal tap L p _ hlt] using hdc (p + 1) (by omega)
  · obtain rfl : p = 31 := by omega
    rw [sum_nextTap_wrap tap L hL, hdc 0 (by decide)]
    simp [armTap, hedge]

/-- Under the same premises a constant delay line gives that constant, whatever phase and fraction (R168). -/
theorem interp_ideal_replicate {tap : Nat → ℝ} {L : Nat} (hL : 1 ≤ L)
    (hdc : ∀ p, p < 32 → ∑ k ∈ Finset.range L, armTap tap p k = 1) (hedge : tap 0 = 0) {p : Nat} (hp : p < 32)
    (c : ℝ) (mu : Rat) : interp ideal tap (List.replicate L c) L p mu = c := by
  rw [interp_ideal, fir, firn, dotRow_ideal_replicate, dotRow_ideal_replicate, hdc p hp, sum_nextTap hL hdc hedge hp]
  ring

/-- A position below 32 lies in one of the 32 phases. -/
theorem floor_toNat_lt {pos : Rat} (h : pos < 32) : pos.floor.toNat < 32 := by
  have hfloor : pos.floor < 32 := Rat.floor_lt_iff.2 (by exact_mod_cast h)
  omega

end Sys2Proof.Machine
end

section
/-! SUPPORT. The scheduler: the positions of one input's outputs (R170, R172), and the output count law along a run
(R171). -/

namespace Sys2Proof.Machine

/-! ## The positions of one input's outputs (R170, R172) -/

/-- The loop outputs at the positions `RPOS + k·RSTEP` below 32, and `RPOS` ends at the first that is not, less 32. -/
theorem outputPositions_eq (rpos : Rat) {rstep : Rat} (hstep : 0 < rstep) :
    ∃ n : Nat, outputPositions rpos rstep = (List.range n).map (fun k : Nat => rpos + (k : Rat) * rstep) ∧
      (∀ k : Nat, k < n ↔ rpos + (k : Rat) * rstep < 32) ∧ nextRpos rpos rstep = rpos + n * rstep - 32 := by
  have hend := scheduleLoop_ends rpos rstep hstep
  obtain ⟨n, -, he, hlt, -⟩ := scheduleLoop_cases rstep (loopCount rpos rstep) rpos
  rw [he] at hend
  refine ⟨n, by rw [outputPositions, he], fun k => ⟨hlt k, fun hk => ?_⟩, by rw [nextRpos, he]; rfl⟩
  have hbelow : (k : Rat) * rstep < n * rstep := by
    have : (32 : Rat) ≤ rpos + n * rstep := hend
    linarith
  exact_mod_cast lt_of_mul_lt_mul_right hbelow hstep.le

/-- A number `n` of outputs with `RPOS + k·RSTEP` below 32 exactly for `k < n` is `floor(R)` or `ceil(R)` (R172). -/
theorem outputs_eq_floor_or_ceil {rpos rstep : Rat} (hpos : 0 ≤ rpos) (hlt : rpos < rstep) {n : Nat}
    (hn : ∀ k : Nat, k < n ↔ rpos + (k : Rat) * rstep < 32) :
    (n : Int) = ⌊32 / rstep⌋ ∨ (n : Int) = ⌈32 / rstep⌉ := by
  have hstep : 0 < rstep := hpos.trans_lt hlt
  have hfloor : ⌊32 / rstep⌋ ≤ (n : Int) := by
    have hge : 32 ≤ rpos + (n : Rat) * rstep := not_lt.1 fun h => lt_irrefl n ((hn n).2 h)
    rw [← Int.lt_add_one_iff, Int.floor_lt, div_lt_iff₀ hstep]
    push_cast
    linarith
  have hceil : (n : Int) ≤ ⌈32 / rstep⌉ := by
    cases n with
    | zero => exact Int.ceil_nonneg (by positivity)
    | succ m =>
      have hbelow := (hn m).1 m.lt_succ_self
      have : (m : Int) < ⌈32 / rstep⌉ := by
        rw [Int.lt_ceil, lt_div_iff₀ hstep]
        push_cast
        linarith
      omega
  have hgap := Int.ceil_le_floor_add_one (32 / rstep)
  omega

/-! ## The output count (R171) -/

/-- `ceil(n·R)`: how many outputs lie before input `n`. -/
def outputCount (r : Rat) (n : Nat) : Nat := ⌈(n : Rat) * r⌉₊

theorem lt_outputCount_iff {rstep : Rat} (h : 0 < rstep) (n k : Nat) :
    k < outputCount (32 / rstep) n ↔ (k : Rat) * rstep < 32 * n := by
  rw [outputCount, Nat.lt_ceil, ← mul_div_assoc, lt_div_iff₀ h, mul_comm (n : Rat)]

theorem outputCount_le_succ {rstep : Rat} (h : 0 < rstep) (n : Nat) :
    outputCount (32 / rstep) n ≤ outputCount (32 / rstep) (n + 1) :=
  Nat.ceil_mono (mul_le_mul_of_nonneg_right (Nat.cast_le.2 n.le_succ) (by positivity))

/-- The scheduler's last sample split off. -/
theorem rposAfter_succ (rstep : Rat) (n : Nat) (rpos : Rat) :
    rposAfter rstep (n + 1) rpos = nextRpos (rposAfter rstep n rpos) rstep := by
  induction n generalizing rpos with
  | zero => rfl
  | succ n ih => exact ih (nextRpos rpos rstep)

/-- From the position `T_c − 32·n` of the first output `c` not before input `n`, that input gives the outputs up to the
first one not before input `n + 1`, and leaves its position. -/
theorem outputPositions_of_count {rstep : Rat} (h : 0 < rstep) (n : Nat) :
    outputPositions (outputCount (32 / rstep) n * rstep - 32 * n) rstep =
        (List.range' (outputCount (32 / rstep) n)
          (outputCount (32 / rstep) (n + 1) - outputCount (32 / rstep) n)).map
          (fun k : Nat => (k : Rat) * rstep - 32 * n) ∧
      nextRpos (outputCount (32 / rstep) n * rstep - 32 * n) rstep =
        outputCount (32 / rstep) (n + 1) * rstep - 32 * (n + 1 : Nat) := by
  have hlt := lt_outputCount_iff h
  have hle := outputCount_le_succ h n
  generalize outputCount (32 / rstep) = c at hlt hle ⊢
  obtain ⟨m, hout, hm, hnext⟩ := outputPositions_eq ((c n : Rat) * rstep - 32 * n) h
  have hcount : m = c (n + 1) - c n := by
    have hm' (k : Nat) : k < m ↔ c n + k < c (n + 1) := by
      rw [hm, hlt]
      push_cast
      constructor <;> intro hk <;> linarith
    have hlow := hm' (c (n + 1) - c n)
    have hhigh := hm' m
    omega
  subst hcount
  constructor
  · rw [hout, List.range'_eq_map_range, List.map_map]
    refine List.map_congr_left fun k _ => ?_
    simp only [Function.comp_apply]
    push_cast
    ring
  · rw [hnext, Nat.cast_sub hle]
    push_cast
    ring

/-- At the start of the step for input `n` the position is that of the first output not before it (R171). -/
theorem rposAfter_eq {rstep : Rat} (h : 0 < rstep) (n : Nat) :
    rposAfter rstep n 0 = outputCount (32 / rstep) n * rstep - 32 * n := by
  induction n with
  | zero => simp [rposAfter, outputCount]
  | succ n ih => rw [rposAfter_succ, ih, (outputPositions_of_count h n).2]

/-! ## The operations while the pipeline runs (R202) -/

/-- While the pipeline runs every command but `TEARDN` answers, leaves it running, and touches neither the scheduler nor
`OUTQ`. -/
theorem exec_command_keeps_scheduler {i : Instr} {s : State} (hi : i.isCommand = true) (hne : i ≠ .teardn)
    (hf : s.fsm = .run) :
    ∃ t, exec i s = .next t ∧ t.fsm = .run ∧ t.rpos = s.rpos ∧ t.rstep = s.rstep ∧ t.outq = s.outq := by
  have notUnbuilt (hu : s.fsm = .unbuilt) : False := nomatch hf.symm.trans hu
  obtain ⟨t, e, ht⟩ := exec_command_cases i s hi
  refine ⟨⟨t⟩, e, ?_⟩
  rcases ht with ⟨_, rfl⟩ | ⟨_, -, hu, -⟩ | ⟨_, -, hu, -⟩ | ⟨_, -, hu, -⟩ | ⟨_, -, hu, -⟩ | ⟨_, _, -, hu, -⟩ |
    ⟨-, hu, -⟩ | ⟨hteardn, -⟩ | ⟨_, _, -, -, rfl⟩ | ⟨_, -, -, -, rfl⟩ | ⟨_, -, -, -, rfl⟩
  · exact ⟨hf, rfl, rfl, rfl⟩
  iterate 6 exact (notUnbuilt hu).elim
  · exact absurd hteardn hne
  · exact ⟨hf, rfl, rfl, rfl⟩
  · exact ⟨rfl, rfl, rfl, rfl⟩
  · exact ⟨rfl, rfl, rfl, rfl⟩

/-- Where the scheduler is valid a sample, with either `LAST` bit, answers the pipeline's state. -/
theorem exec_sample_of_valid {i : Instr} {s : State} (hi : i.isCommand = false)
    (hv : s.toStateOf.schedulerValid = true) :
    ∃ last x y, exec i s = .next ⟨s.toStateOf.applySample b32Machine last x y⟩ := by
  obtain ⟨last, x, y, -, e⟩ := exec_sample_cases i s hi
  exact ⟨last, x, y, e.trans (congrArg OutcomeOf.toState (StateOf.runSample_of_valid b32Machine hv last x y))⟩

/-! ## The count law along a run (R171) -/

/-- What a pipeline with the `RSTEP` `δ` and `base` words in `OUTQ` at its `BUILD` holds after `n` samples. -/
structure AfterSamples (δ : Rat) (base n : Nat) (s : State) : Prop where
  fsm : s.fsm = .run
  rstep : s.rstep = δ
  rpos : s.rpos = rposAfter δ n 0
  outq : s.outq.length = base + outputCount (32 / δ) n

namespace AfterSamples
variable {δ : Rat} {base n : Nat} {s : State} (h : AfterSamples δ base n s)
include h

theorem schedulerValid (hstep : 0 < δ) : s.toStateOf.schedulerValid = true := by
  have hpos : 0 ≤ outputCount (32 / δ) n * δ - 32 * (n : Rat) :=
    sub_nonneg.2 (not_lt.1 fun hc => lt_irrefl _ ((lt_outputCount_iff hstep n _).2 hc))
  rw [StateOf.schedulerValid_iff, h.rpos, h.rstep, rposAfter_eq hstep]
  exact ⟨hpos, hstep⟩

theorem exec_command {i : Instr} (hi : i.isCommand = true) (hne : i ≠ .teardn) :
    ∃ t, exec i s = .next t ∧ AfterSamples δ base n t := by
  obtain ⟨t, e, hf, hpos, hstep, hout⟩ := exec_command_keeps_scheduler hi hne h.fsm
  exact ⟨t, e, hf, hstep.trans h.rstep, hpos.trans h.rpos, by rw [hout, h.outq]⟩

/-- One more sample pushes the words from its count to the next. -/
theorem exec_sample (hstep : 0 < δ) {i : Instr} (hi : i.isCommand = false) :
    ∃ t, exec i s = .next t ∧ AfterSamples δ base (n + 1) t := by
  obtain ⟨last, x, y, e⟩ := exec_sample_of_valid hi (h.schedulerValid hstep)
  obtain ⟨hpositions, -⟩ := outputPositions_of_count hstep n
  have hle := outputCount_le_succ hstep n
  refine ⟨_, e, h.fsm, h.rstep, ?_, ?_⟩
  · rw [StateOf.applySample_rpos, h.rpos, h.rstep, rposAfter_succ]
  · rw [StateOf.applySample_outq, List.length_append, StateOf.sampleOutputs, resampOutputs_length, h.rpos, h.rstep,
      rposAfter_eq hstep, hpositions, List.length_map, List.length_range', h.outq]
    omega

/-- The operations in turn: each sample counts, no command but `TEARDN` matters. -/
theorem runInstrs_next (hstep : 0 < δ) (is : List Instr) (his : ∀ i ∈ is, i ≠ .teardn) :
    ∃ t, runInstrs is s = .next t ∧
      AfterSamples δ base (n + (is.filter fun i => !i.isCommand).length) t := by
  induction is generalizing n s with
  | nil => exact ⟨s, rfl, h⟩
  | cons i is ih =>
    have hrest : ∀ j ∈ is, j ≠ .teardn := fun j hj => his j (List.mem_cons_of_mem i hj)
    cases hi : i.isCommand
    case true =>
      obtain ⟨t, e, ht⟩ := h.exec_command hi (his i List.mem_cons_self)
      simpa [runInstrs, e, hi] using ih ht hrest
    case false =>
      obtain ⟨t, e, ht⟩ := h.exec_sample hstep hi
      simpa [runInstrs, e, hi, Nat.add_assoc, Nat.add_comm 1] using ih ht hrest

end AfterSamples

/-- A `BUILD` that makes an unbuilt block run was accepted: its rates are positive, and it starts the scheduler at the
first sample (R169, R196). -/
theorem exec_build_starts_scheduler {s t : State} (hf : s.fsm = .unbuilt) (h : exec .build s = .next t)
    (hrun : t.fsm = .run) :
    0 < val s.qrate ∧ 0 < val s.arate ∧ AfterSamples (32 * val s.qrate / val s.arate) s.outq.length 0 t := by
  obtain rfl : (⟨s.toStateOf.build b32Machine⟩ : State) = t := Host.Outcome.next.inj h
  rcases s.toStateOf.build_cases b32Machine with ⟨-, hc, e⟩ | ⟨c, e⟩
  · obtain ⟨hq, ha, -⟩ := (configError?_eq_none b32 _ _ _ _).1 hc
    refine ⟨val_pos_of_validPositive hq, val_pos_of_validPositive ha, hrun, ?_, ?_, ?_⟩
    · rw [e]; rfl
    · rw [e]; rfl
    · simp [e, outputCount]
  · simp [e, hf] at hrun

end Sys2Proof.Machine
end

section
/-! The statements settled: the rate converter. -/

namespace Sys2Proof.Proofs

open Sys2Proof.Machine Sys2Proof.Claims

/-- Settles O47: before every sample the scheduler stands at the first output not before that sample, by induction on
the samples; the commands between them move neither the scheduler nor `OUTQ`. -/
theorem outputCountLaw : Obligations.OutputCountLaw := by
  intro s t is hf hbuild hrun his
  obtain ⟨hq, ha, hstart⟩ := exec_build_starts_scheduler hf hbuild hrun
  have hstep : 0 < 32 * val s.qrate / val s.arate := by positivity
  have hratio : 32 / (32 * val s.qrate / val s.arate) = val s.arate / val s.qrate := by field_simp
  have hcount (n : Nat) : ((outputCount (32 / (32 * val s.qrate / val s.arate)) n : Nat) : Int) =
      ⌈(n : Rat) * (val s.arate / val s.qrate)⌉ := by
    rw [outputCount, hratio, Int.natCast_ceil_eq_ceil (by positivity)]
  refine ⟨?_, fun n => ?_⟩
  · obtain ⟨u, hu, hcounted⟩ := hstart.runInstrs_next hstep is his
    refine ⟨u, hu, ?_⟩
    rw [hcounted.outq, Nat.zero_add, Nat.cast_add, hcount]
  · rw [hstart.rstep, rposAfter_eq hstep, (outputPositions_of_count hstep n).1, ← hcount, ← hcount, Int.toNat_natCast,
      Int.toNat_natCast]

/-- Settles O20: `LDTAP` has format `CAD`, and its answer is read off the state check and the range of the index. -/
theorem ldtapWritesOneCell : Obligations.LdtapWritesOneCell := by
  refine ⟨runsAs_of_decodeCommand (fun w hop _ => decodeCommand_ldtap w hop) (fun _ _ h => absurd trivial h),
    fun s j d _ => ⟨fun hf hj => ?_, fun hf hj => ?_, fun hf => ?_⟩⟩
  · rw [exec_ldtap_of_unbuilt j d hf, if_neg (show ¬s.tapCells ≤ j from not_le.2 hj)]
    exact ⟨_, rfl, StateOf.readTap_writeTap_same b32Machine s.toStateOf j d,
      fun k hk => StateOf.readTap_writeTap_other b32Machine s.toStateOf j k d hk, rfl⟩
  · rw [exec_ldtap_of_unbuilt j d hf, if_pos (show s.tapCells ≤ j from hj), reject_eq_rejected]
    rfl
  · rw [exec_ldtap_of_ne_unbuilt j d hf, reject_eq_rejected]
    rfl

/-- Settles O22: the lesser rate's half exceeds neither half, and it is zero only where the halving underflows. -/
theorem cutoffErrorOnlyAtLeastSubnormal : Obligations.CutoffErrorOnlyAtLeastSubnormal :=
  ⟨fun _ _ => cutoffBad_iff, fun _ _ => cutoffInvalid_ideal⟩

/-- Settles O43: each arm and, by the edge tap, each next row has unit gain, and interpolation between two equal values
is that value. -/
theorem idealInterpolationKeepsConstants : Obligations.IdealInterpolationKeepsConstants :=
  fun tap L hL => ⟨fun hist p mu => interp_ideal tap hist L p mu,
    fun hdc hedge c _ _ hpos => interp_ideal_replicate hL hdc hedge (floor_toNat_lt hpos) c _⟩

/-- Settles O44: at equal rates `RSTEP` is 32, so the loop turns once, at position 0. -/
theorem ratioOneGivesOneOutputPerSample : Obligations.RatioOneGivesOneOutputPerSample := by
  intro s i q h hf hrates hpos
  have hb := h.built hf
  have hstep : s.rstep = 32 := by rw [hb.rstep, hrates, stepOfRates_self hb.qrate]
  refine ⟨_, (exec_samples_of_valid (h.schedulerValid hf) i q).1, ?_, ?_⟩
  · rw [StateOf.applySample_rpos, hpos, hstep, outputPositions_ratioOne.2]
  · rw [StateOf.applySample_outq, StateOf.sampleOutputs, resampOutputs, hpos, hstep, outputPositions_ratioOne.1,
      List.map_singleton, outputAt_zero]
    rfl

/-- Settles O45: the products off the impulse are zeros, which change no partial sum. -/
theorem impulseArmCopiesSample : Obligations.ImpulseArmCopiesSample := by
  intro tap hist L k0 hlen hk0 hfin hrow
  have hhist (k : Nat) (hk : k < L) : isfinite (hist.getD k 0) = true := by
    rw [List.getD_eq_getElem _ _ (hlen ▸ hk)]
    exact hfin _ (List.getElem_mem _)
  have harm (k : Nat) (hk : k < L) : armTap tap 0 k = if k = k0 then NUM_ONE else NUM_ZERO := by
    rw [armTap, Nat.zero_add]
    exact hrow k hk
  rw [fir, dotRow_impulse hhist harm, if_pos hk0, plusZero]

/-- Settles O46: the loop ends at the first position that is not below 32. -/
theorem outputsPerInput : Obligations.OutputsPerInput := by
  intro rpos rstep hpos hlt
  obtain ⟨n, hout, hn, hnext⟩ := outputPositions_eq rpos (hpos.trans_lt hlt)
  exact ⟨n, hout, hn, outputs_eq_floor_or_ceil hpos hlt hn, hnext, nextRpos_bounds rpos rstep hpos hlt⟩

end Sys2Proof.Proofs
end

section
/-! SUPPORT. What a step takes from the two input queues and when one is enabled (R186 to R189, R201), the rows of the
decoder (R98), the answers of the controller's commands (R192 to R198), and the commands while `RUN` (R202). -/

namespace Sys2Proof.Machine

open Sys2Proof.Claims

/-! ## The enabled steps (R186, R187, R201) -/

section AnyProfile
variable {Num Cmd Rsp Smp : Type} (s : StateOf Num Cmd Rsp Smp)

theorem StateOf.commandHead?_isSome : s.commandHead?.isSome = true ↔ s.inbatch = false ∧ s.cmdq ≠ [] := by
  unfold StateOf.commandHead?
  cases s.inbatch <;> simp [List.isSome_head?]

theorem StateOf.sampleHead?_isSome : s.sampleHead?.isSome = true ↔ s.fsm = .run ∧ s.inq ≠ [] := by
  unfold StateOf.sampleHead?
  split_ifs with h <;> simp [List.isSome_head?, h]

/-- A step is enabled where one of the two queues is not held and has a word. -/
theorem StateOf.enabled_iff :
    s.enabled = true ↔ (s.inbatch = false ∧ s.cmdq ≠ []) ∨ (s.fsm = .run ∧ s.inq ≠ []) := by
  rw [StateOf.enabled, Bool.or_eq_true, s.commandHead?_isSome, s.sampleHead?_isSome]

theorem StateOf.finished_iff : s.finished = true ↔ s.cmdq = [] ∧ s.inq = [] := by
  simp [StateOf.finished]

/-- Stuck: a queue has a word, and each queue that has one is held. -/
theorem StateOf.stuck_iff :
    s.stuck = true ↔ (s.cmdq ≠ [] ∨ s.inq ≠ []) ∧ (s.cmdq ≠ [] → s.inbatch = true) ∧ (s.inq ≠ [] → s.fsm ≠ .run) := by
  rw [StateOf.stuck, Bool.and_eq_true, Bool.not_eq_true', Bool.not_eq_true', ← Bool.not_eq_true, ← Bool.not_eq_true,
    s.finished_iff, s.enabled_iff, ← Bool.not_eq_false]
  tauto

end AnyProfile

/-! ## What a step takes (R186 to R188) -/

/-- A command is taken from the head of `CMDQ`, and only where no batch is in flight. -/
theorem State.cmdq_of_fetch_command {s u : State} {w : CmdWord} (h : s.fetch = .command w u) :
    s.inbatch = false ∧ s.cmdq = w :: u.cmdq := by
  rcases s.fetch_cases with ⟨-, -, e⟩ | ⟨_, hc, -, e⟩ | ⟨_, -, -, e⟩ | ⟨_, _, hc, -, -, e⟩ | ⟨_, _, -, -, -, e⟩ <;>
    rw [e] at h <;> cases h
  all_goals exact s.commandHead?_some _ hc

theorem State.inq_of_fetch_sample {s u : State} {w : SmpWord} (h : s.fetch = .sample w u) : s.inq = w :: u.inq := by
  rcases s.fetch_cases with ⟨-, -, e⟩ | ⟨_, -, -, e⟩ | ⟨_, -, hx, e⟩ | ⟨_, _, -, -, -, e⟩ | ⟨_, _, -, hx, -, e⟩ <;>
    rw [e] at h <;> cases h
  all_goals exact (s.sampleHead?_some _ hx).2

/-- No command touches an input queue or `OUTQ` (R72). -/
theorem exec_command_queues {i : Instr} {s t : State} (hi : i.isCommand = true) (h : exec i s = .next t) :
    t.cmdq = s.cmdq ∧ t.inq = s.inq ∧ t.outq = s.outq := by
  obtain ⟨u, e, hu⟩ := exec_command_cases i s hi
  obtain rfl : (⟨u⟩ : State) = t := Host.Outcome.next.inj (e.symm.trans h)
  rcases hu with ⟨_, rfl⟩ | ⟨_, -, -, rfl⟩ | ⟨_, -, -, rfl⟩ | ⟨_, -, -, rfl⟩ | ⟨_, -, -, rfl⟩ | ⟨_, _, -, -, -, rfl⟩ |
    ⟨-, -, -, rfl⟩ | ⟨-, rfl⟩ | ⟨_, _, -, -, rfl⟩ | ⟨_, -, -, -, rfl⟩ | ⟨_, -, -, -, rfl⟩ <;>
    exact ⟨rfl, rfl, rfl⟩

/-- A command word, legal or not, touches neither an input queue nor `OUTQ`. -/
theorem runCommandWord_queues {w : CmdWord} {s t : State} (h : runCommandWord w s = .next t) :
    t.cmdq = s.cmdq ∧ t.inq = s.inq ∧ t.outq = s.outq := by
  cases hw : decodeCommand w with
  | ok i => exact exec_command_queues (decodeCommand_isCommand w i hw) ((runCommandWord_of_ok s hw).symm.trans h)
  | error e =>
    obtain rfl := Host.Outcome.next.inj ((runCommandWord_of_error s hw).symm.trans h)
    exact ⟨rfl, rfl, rfl⟩

/-- A sample word that is answered leaves what the three stages write (R199). -/
theorem runSampleWord_next {w : SmpWord} {s t : State} (h : runSampleWord w s = .next t) :
    t = ⟨s.toStateOf.applySample b32Machine (lastField w) (iField w) (qField w)⟩ := by
  rw [runSampleWord, exec_decodeSample] at h
  rcases s.toStateOf.runSample_cases b32Machine (lastField w) (iField w) (qField w) with ⟨-, e⟩ | ⟨-, e⟩ <;>
    rw [e] at h <;> cases h
  rfl

theorem State.not_enabled_of_fetch_idle {s : State} (h : s.fetch = .idle) : s.enabled = false := by
  rcases s.fetch_cases with ⟨hc, hx, -⟩ | ⟨_, -, -, e⟩ | ⟨_, -, -, e⟩ | ⟨_, _, -, -, -, e⟩ | ⟨_, _, -, -, -, e⟩
  · simp [StateOf.enabled, hc, hx]
  all_goals exact nomatch h.symm.trans e

/-- What a step does to the queues of either side: nothing where none is enabled; a command step takes a command and
leaves the samples and the outputs; a sample step takes a sample and leaves the commands, the responses and the log. -/
theorem step_queue_cases {s t : State} (h : step s = .next t) :
    (s.enabled = false ∧ t = s) ∨
    (s.inbatch = false ∧ (∃ w, s.cmdq = w :: t.cmdq) ∧ t.inq = s.inq ∧ t.outq = s.outq) ∨
    (s.fsm = .run ∧ (∃ x, s.inq = x :: t.inq) ∧ t.cmdq = s.cmdq ∧ t.rspq = s.rspq ∧ t.errv = s.errv ∧
      t.errcode = s.errcode ∧ t.errcmdh = s.errcmdh ∧ t.errcmdl = s.errcmdl) := by
  cases hf : s.fetch with
  | idle =>
    rw [step, hf] at h
    exact .inl ⟨State.not_enabled_of_fetch_idle hf, (Host.Outcome.next.inj h).symm⟩
  | command w u =>
    obtain ⟨hb, hq⟩ := State.cmdq_of_fetch_command hf
    obtain ⟨hcmdq, hinq, houtq⟩ := runCommandWord_queues ((step_of_fetch_command hf).symm.trans h)
    obtain ⟨n, rfl⟩ := State.fetch_command hf
    exact .inr (.inl ⟨hb, ⟨w, hcmdq ▸ hq⟩, hinq, houtq⟩)
  | sample x u =>
    rw [step, hf] at h
    obtain rfl := runSampleWord_next h
    have hq := State.inq_of_fetch_sample hf
    obtain ⟨hrun, n, rfl⟩ := State.fetch_sample hf
    exact .inr (.inr ⟨hrun, ⟨x, hq⟩, rfl, rfl, rfl, rfl, rfl, rfl⟩)

/-! ## The step at a given head (R186 to R188) -/

/-- The head sample is taken where no command competes with it (R187). -/
theorem State.fetch_of_inq {s : State} {x : SmpWord} {rest : List SmpWord} (hq : s.inq = x :: rest)
    (hf : s.fsm = .run) (hc : s.commandHead? = none) : s.fetch = .sample x { s with inq := rest } := by
  have hx : s.sampleHead? = some x := by simp [StateOf.sampleHead?, hf, hq]
  simp [State.fetch, StateOf.fetch, hc, hx, StateOf.popSample, hq]

/-- Where both heads may be taken, `ARB` says which is (R188). -/
theorem State.fetch_of_both {s : State} {w : CmdWord} {ws : List CmdWord} {x : SmpWord} {xs : List SmpWord}
    (hw : s.cmdq = w :: ws) (hx : s.inq = x :: xs) (hb : s.inbatch = false) (hf : s.fsm = .run) :
    s.fetch = if Config.arb s.arbCount = true then .command w { s with cmdq := ws, arbCount := s.arbCount + 1 }
      else .sample x { s with inq := xs, arbCount := s.arbCount + 1 } := by
  have hc : s.commandHead? = some w := by simp [StateOf.commandHead?, hb, hw]
  have hs : s.sampleHead? = some x := by simp [StateOf.sampleHead?, hf, hx]
  cases harb : Config.arb s.arbCount <;>
    simp [State.fetch, StateOf.fetch, hc, hs, harb, StateOf.popCommand, StateOf.popSample, StateOf.drawArb, hw, hx]

/-! ## The rows of the decoder (R94, R97, R98) -/

/-- The row is picked by the opcode alone; with a given opcode this is its row's format. -/
theorem decodeCommand_of_opField {w : CmdWord} {op : BitVec 8} (h : opField w = op) :
    decodeCommand w = decodeFields instructions ⟨op, aField w, dField w⟩ (decide (dField w = 0)) := by
  rw [← h]
  rfl

/-- The words of an opcode of format `C0` (R94). -/
theorem runsAs_of_formatC0 {op : BitVec 8} {i : Instr}
    (h : ∀ w, opField w = op → decodeCommand w = formatC0 (commandFields w) (decide (dField w = 0)) i) :
    RunsAs op (fun w => aField w = 0 ∧ dField w = 0) (fun _ => i) :=
  runsAs_of_decodeCommand (fun w hop ⟨ha, hd⟩ => (h w hop).trans (if_pos ⟨ha, decide_eq_true hd⟩))
    (fun w hop hz => ⟨.mustBeZero, (h w hop).trans (if_neg fun ⟨ha, hd⟩ => hz ⟨ha, of_decide_eq_true hd⟩)⟩)

/-- The words of an opcode of format `CA` (R97). -/
theorem runsAs_of_formatCA {op : BitVec 8} {mk : Nat → Instr}
    (h : ∀ w, opField w = op → decodeCommand w = formatCA (commandFields w) (decide (dField w = 0)) mk) :
    RunsAs op (fun w => dField w = 0) (fun w => mk (aField w).toNat) :=
  runsAs_of_decodeCommand (fun w hop hz => (h w hop).trans (if_pos (decide_eq_true hz)))
    (fun w hop hz => ⟨.mustBeZero, (h w hop).trans (if_neg fun hc => hz (of_decide_eq_true hc))⟩)

/-! ## Commands that want `UNBUILT` (R192 to R196, R223) -/

section Unbuilt
variable {s : State} (w : CmdWord) (t : StateOf Word CmdWord RspWord SmpWord)

theorem next_whenUnbuilt (hf : s.fsm = .unbuilt) :
    (.next ⟨s.toStateOf.whenFsm b32Machine .unbuilt w t⟩ : Outcome) = .next ⟨t⟩ :=
  congrArg (fun u => (.next ⟨u⟩ : Outcome)) (s.toStateOf.whenFsm_of_eq b32Machine .unbuilt w t hf)

theorem next_whenNotUnbuilt (hf : s.fsm ≠ .unbuilt) :
    (.next ⟨s.toStateOf.whenFsm b32Machine .unbuilt w t⟩ : Outcome) = .next (rejected s 0x02 w) := by
  rw [s.toStateOf.whenFsm_of_ne b32Machine .unbuilt w t hf, reject_eq_rejected]
  rfl

end Unbuilt

/-! ## The answers of `BUILD` (R196, R231) -/

theorem cutoffInvalid_b32 (q a : Word) : cutoffInvalid b32 q a = cutoffBad q a := by
  rw [cutoffBad, requestedCutoff_eq, cutoffInvalid, dreqCutoff]
  rfl

/-- The checks in the words of the statements. -/
theorem configError?_b32 (q a dmax tau : Word) :
    configError? b32 q a dmax tau =
      if !positiveFinite q then some .qrate
      else if !positiveFinite a then some .arate
      else if !positiveFinite dmax then some .maxdev
      else if !isfinite tau then some .tau
      else if cutoffBad q a then some .cutoff
      else none := by
  rw [configError?, cutoffInvalid_b32]
  rfl

/-- `BUILD` is accepted where all checks pass. -/
theorem buildable_iff (s : State) : buildable s ↔ configError? b32 s.qrate s.arate s.maxdev s.tau = none := by
  rw [configError?_eq_none, cutoffInvalid_b32]
  rfl

/-- An accepted `BUILD` with `GAINCALC` and `DECOEF` written out. -/
theorem applyBuild_accept_eq (s : State) :
    (⟨(s.toStateOf.applyBuild b32Machine).accept b32Machine⟩ : State) = built s := by
  rw [StateOf.applyBuild, b32Machine_num, decoef_b32]
  rfl

theorem exec_build_of_buildable {s : State} (hf : s.fsm = .unbuilt) (h : buildable s) :
    exec .build s = .next (built s) := by
  refine (next_whenUnbuilt _ _ hf).trans ?_
  rw [b32Machine_num, (buildable_iff s).1 h, applyBuild_accept_eq]

/-- `BUILD` reports the first check that fails. -/
theorem exec_build_of_configError {s : State} (hf : s.fsm = .unbuilt) {c : Cause}
    (h : configError? b32 s.qrate s.arate s.maxdev s.tau = some c) :
    exec .build s = .next (rejected s c.code (encodeCommand .build)) := by
  refine (next_whenUnbuilt _ _ hf).trans ?_
  rw [b32Machine_num, h, reject_eq_rejected, b32Machine_word_build]

/-! ## The answers of `RDREG` (R40, R198) -/

/-- The eighteen registers of R40 beside `STATUS`. -/
def plainRegisters : List Csr :=
  [.id, .qrate, .arate, .maxdev, .tau, .gain, .alpha, .beta, .errcode, .errcmdh, .errcmdl, .dreqOsf, .dreqCutoff,
    .dreqTrans, .ntaps, .prevI, .prevQ, .yprev]

/-- A register's row of the address map: its address and its content. -/
def State.registerRow (s : State) (r : Csr) : Nat × Word := (r.addr, (s.csrValue b32Machine r).word)

theorem exec_rdreg_register (s : State) (r : Csr) :
    exec (.rdreg r.addr) s = .next (answered s ((0 : BitVec 8) ++ (s.registerRow r).2)) := by
  change (.next ⟨s.toStateOf.rdreg b32Machine r.addr⟩ : Outcome) = _
  rw [StateOf.rdreg, StateOf.csrRead?, Csr.ofAddr?_addr]
  rfl

theorem exec_rdreg_reserved (s : State) {a : Nat} (h : 0x12 < a) :
    exec (.rdreg a) s = .next (rejected s 0x03 (encodeCommand (.rdreg a))) := by
  change (.next ⟨s.toStateOf.rdreg b32Machine a⟩ : Outcome) = _
  rw [StateOf.rdreg, StateOf.csrRead?, Csr.ofAddr?_none a h]
  exact congrArg Host.Outcome.next (reject_eq_rejected s .addr _)

/-! ## Commands while `RUN` (R202, R223) -/

/-- While `RUN` a command is rejected or is one of the four that R223 permits there. -/
theorem exec_command_run_cases {i : Instr} {s t : State} (hi : i.isCommand = true) (hf : s.fsm = .run)
    (h : exec i s = .next t) :
    (∃ c, t = ⟨s.toStateOf.reject b32Machine c (encodeCommand i)⟩) ∨ i = .teardn ∨
      (∃ data, t = ⟨s.toStateOf.respond b32Machine data⟩) ∨
      (∃ d, i = .setdev d ∧ t = ⟨(s.toStateOf.applySetdev b32Machine d).accept b32Machine⟩) ∨
      (∃ d, i = .settau d ∧ t = ⟨(s.toStateOf.applySettau b32Machine d).accept b32Machine⟩) := by
  have notUnbuilt (hu : s.fsm = .unbuilt) : False := nomatch hf.symm.trans hu
  obtain ⟨u, e, hu⟩ := exec_command_cases i s hi
  obtain rfl : (⟨u⟩ : State) = t := Host.Outcome.next.inj (e.symm.trans h)
  rcases hu with ⟨c, rfl⟩ | ⟨_, -, hu, -⟩ | ⟨_, -, hu, -⟩ | ⟨_, -, hu, -⟩ | ⟨_, -, hu, -⟩ | ⟨_, _, -, hu, -⟩ |
    ⟨-, hu, -⟩ | ⟨hteardn, -⟩ | ⟨_, r, -, -, rfl⟩ | ⟨d, hd, -, -, rfl⟩ | ⟨d, hd, -, -, rfl⟩
  · exact .inl ⟨c, rfl⟩
  iterate 6 exact (notUnbuilt hu).elim
  · exact .inr (.inl hteardn)
  · exact .inr (.inr (.inl ⟨s.csrValue b32Machine r, rfl⟩))
  · exact .inr (.inr (.inr (.inl ⟨d, hd, rfl⟩)))
  · exact .inr (.inr (.inr (.inr ⟨d, hd, rfl⟩)))

end Sys2Proof.Machine
end

section
/-! The statements settled: the pipeline controller. -/

namespace Sys2Proof.Proofs

open Sys2Proof.Machine Sys2Proof.Claims

/-- Settles O7: without competition the head word is fetched, and running a word is `exec` of what it decodes to. -/
theorem stepRunsDecodedInstruction : Obligations.StepRunsDecodedInstruction := by
  refine ⟨fun s w rest i hq hb hheld hw => ?_, fun s x rest i hq hf hheld hx => ?_⟩
  · have hs : s.sampleHead? = none := by
      rcases hheld with hf | hinq
      · exact if_neg hf
      · simp [StateOf.sampleHead?, hinq]
    rw [step_of_cmdq hq hb hs]
    exact runCommandWord_of_ok _ hw
  · have hc : s.commandHead? = none := by
      rcases hheld with hb | hcmdq
      · exact if_pos hb
      · simp [StateOf.commandHead?, hcmdq]
    obtain rfl : decodeSample x = i := Except.ok.inj hx
    rw [step, State.fetch_of_inq hq hf hc]
    rfl

/-- Settles O8: both heads are there, so the fetch asks `ARB`. -/
theorem arbitrationTakesEitherStep : Obligations.ArbitrationTakesEitherStep := by
  intro s w ws x xs hw hx hb hf
  have hfetch := State.fetch_of_both hw hx hb hf
  cases harb : Config.arb s.arbCount with
  | true => exact .inl ⟨rfl, by rw [step, hfetch, if_pos harb]; rfl⟩
  | false => exact .inr ⟨rfl, by rw [step, hfetch, if_neg (ne_true_of_eq_false harb)]; rfl⟩

/-- Settles O9: a command step needs `INBATCH` clear, a sample step needs `RUN`, and each leaves the other's queues. -/
theorem heldWordsStayInTheirQueues : Obligations.HeldWordsStayInTheirQueues := by
  intro s t h
  rcases step_queue_cases h with ⟨-, rfl⟩ | ⟨hb, -, hinq, houtq⟩ | ⟨hf, -, hcmdq, hrspq, hlog⟩
  · exact ⟨fun _ => ⟨rfl, rfl, rfl, rfl, rfl, rfl⟩, fun _ => ⟨rfl, rfl⟩⟩
  · exact ⟨fun hb' => (nomatch hb.symm.trans hb'), fun _ => ⟨hinq, houtq⟩⟩
  · exact ⟨fun _ => ⟨hcmdq, hrspq, hlog⟩, fun hne => absurd hf hne⟩

/-- Settles O11: by I1 and I2 an unbuilt block holds no command and a running one no sample, so only the queue that
is held can have a word. -/
theorem stuckStatesAreTwo : Obligations.StuckStatesAreTwo := by
  intro s h
  rw [StateOf.stuck_iff]
  constructor
  · rintro ⟨hword, hcmd, hsmp⟩
    rcases h.stable with hf | hf
    · have hcmdq : s.cmdq = [] := not_not.1 fun hne => nomatch (hcmd hne).symm.trans (h.unbuilt hf).inbatch
      exact .inl ⟨hword.resolve_left (not_not.2 hcmdq), hcmdq, hf⟩
    · have hinq : s.inq = [] := not_not.1 fun hne => hsmp hne hf
      have hcmdq : s.cmdq ≠ [] := hword.resolve_right (not_not.2 hinq)
      exact .inr ⟨hcmdq, hcmd hcmdq, hinq⟩
  · rintro (⟨hinq, hcmdq, hf⟩ | ⟨hcmdq, hb, hinq⟩)
    · exact ⟨.inr hinq, fun hne => absurd hcmdq hne, fun _ => by simp [hf]⟩
    · exact ⟨.inl hcmdq, fun _ => hb, fun hne => absurd hinq hne⟩

/-- Settles O12: an enabled step takes the head of one input queue and leaves the other queue as it is. -/
theorem enabledStepTakesOneWord : Obligations.EnabledStepTakesOneWord := by
  intro s t hen h
  rcases step_queue_cases h with ⟨hno, -⟩ | ⟨-, ⟨w, hcmdq⟩, hinq, -⟩ | ⟨-, ⟨x, hinq⟩, hcmdq, -⟩
  · exact nomatch hno.symm.trans hen
  · rw [hcmdq, hinq, List.length_cons]
    omega
  · rw [hcmdq, hinq, List.length_cons]
    omega

/-- Settles O18: `LDQR` has format `CD`, and its answer is read off the state check. -/
theorem ldqrLoadsQuadratureRate : Obligations.LdqrLoadsQuadratureRate :=
  ⟨runsAs_of_formatCD fun _ => decodeCommand_of_opField,
    fun _ _ => ⟨next_whenUnbuilt _ _, next_whenNotUnbuilt _ _⟩⟩

/-- Settles O19: the three rows are those of `LDQR` with another register. -/
theorem otherLoadsLoadTheirArguments : Obligations.OtherLoadsLoadTheirArguments :=
  ⟨runsAs_of_formatCD fun _ => decodeCommand_of_opField, runsAs_of_formatCD fun _ => decodeCommand_of_opField,
    runsAs_of_formatCD fun _ => decodeCommand_of_opField, fun _ _ =>
    ⟨fun hf => ⟨next_whenUnbuilt _ _ hf, next_whenUnbuilt _ _ hf, next_whenUnbuilt _ _ hf⟩,
      fun hf => ⟨next_whenNotUnbuilt _ _ hf, next_whenNotUnbuilt _ _ hf, next_whenNotUnbuilt _ _ hf⟩⟩⟩

/-- Settles O21: `BUILD` has format `C0`; past the state check it reports the first check that fails, or builds. -/
theorem buildChecksThenBuilds : Obligations.BuildChecksThenBuilds := by
  refine ⟨runsAs_of_formatC0 fun _ => decodeCommand_of_opField,
    fun s => ⟨exec_build_of_buildable, next_whenNotUnbuilt _ _, fun hf hq => ?_, fun hf hq ha => ?_,
      fun hf hq ha hm => ?_, fun hf hq ha hm ht => ?_, fun hf hq ha hm ht hc => ?_⟩⟩
  · exact exec_build_of_configError hf (c := .qrate) (by simp [configError?_b32, hq])
  · exact exec_build_of_configError hf (c := .arate) (by simp [configError?_b32, hq, ha])
  · exact exec_build_of_configError hf (c := .maxdev) (by simp [configError?_b32, hq, ha, hm])
  · exact exec_build_of_configError hf (c := .tau) (by simp [configError?_b32, hq, ha, hm, ht])
  · exact exec_build_of_configError hf (c := .cutoff) (by simp [configError?_b32, hq, ha, hm, ht, hc])

/-- Settles O23: `TEARDN` has format `C0` and no check; its writes are the column of R45. -/
theorem teardnDiscardsPipeline : Obligations.TeardnDiscardsPipeline :=
  ⟨runsAs_of_formatC0 fun _ => decodeCommand_of_opField, fun _ => rfl⟩

/-- Settles O24: `RDREG` has format `CA`; the listed pairs are the rows of the address map, and past it there is no
register. -/
theorem rdregAnswersRegister : Obligations.RdregAnswersRegister := by
  refine ⟨runsAs_of_formatCA fun _ => decodeCommand_of_opField,
    fun s => ⟨fun x hx => ?_, ⟨_, rfl, exec_rdreg_register s .status⟩, fun a ha _ => exec_rdreg_reserved s ha⟩⟩
  have hrow : x ∈ plainRegisters.map s.registerRow := hx
  obtain ⟨r, -, rfl⟩ := List.mem_map.1 hrow
  exact exec_rdreg_register s r

/-- Settles O58: while `RUN` a command is rejected, reads a register, swaps the gain, restarts the filter or tears
down. -/
theorem mutableSurfaceInRun : Obligations.MutableSurfaceInRun := by
  intro i s t hi hf h
  rcases exec_command_run_cases hi hf h with ⟨c, rfl⟩ | rfl | ⟨data, rfl⟩ | ⟨d, rfl, rfl⟩ | ⟨d, rfl, rfl⟩
  · exact ⟨fun _ _ _ => rfl, fun _ => ⟨hf, rfl, rfl, rfl, rfl, rfl, rfl, rfl, rfl, rfl, rfl⟩⟩
  · exact ⟨fun _ _ hne => absurd rfl hne, fun hne => absurd rfl hne⟩
  · exact ⟨fun _ _ _ => rfl, fun _ => ⟨hf, rfl, rfl, rfl, rfl, rfl, rfl, rfl, rfl, rfl, rfl⟩⟩
  · exact ⟨fun hne => absurd rfl (hne d), fun _ => ⟨rfl, rfl, rfl, rfl, rfl, rfl, rfl, rfl, rfl, rfl, rfl⟩⟩
  · exact ⟨fun _ hne => absurd rfl (hne d), fun _ => ⟨rfl, rfl, rfl, rfl, rfl, rfl, rfl, rfl, rfl, rfl, rfl⟩⟩

end Sys2Proof.Proofs
end

section
/-! SUPPORT. Acceptance and rejection of a command: that they exclude each other, and the causes for which `exec` rejects
(R221 to R230); the step where none is enabled (R243), and the step that takes a sample (R234). -/

namespace Sys2Proof.Machine

open Sys2Proof.Claims

/-! ## The word that a rejection records (R98, R230) -/

theorem encode_of_isCommand {i : Instr} (hi : i.isCommand = true) : encode i = .cmd (encodeCommand i) := by
  cases i with
  | sample i q | samplec i q => cases hi
  | _ => rfl

/-- A command word is recorded as it came: it is the word of its operation (R98, R230). -/
theorem encodeCommand_of_decodeCommand {w : CmdWord} {i : Instr} (h : decodeCommand w = .ok i) :
    encodeCommand i = w := by
  have hw := (encode_of_decodeCommand h).2
  rw [encode_of_isCommand (decodeCommand_isCommand w i h)] at hw
  exact PortWord.cmd.inj hw

/-! ## The causes (R221) -/

theorem Cause.code_injective : Function.Injective Cause.code := by
  intro c d h
  cases c <;> cases d <;> simp [Cause.code] at h ⊢

theorem Cause.code_mem (c : Cause) :
    c.code ∈ ([0x01, 0x02, 0x03, 0x10, 0x11, 0x12, 0x13, 0x14] : List (BitVec 8)) := by
  cases c <;> simp [Cause.code]

/-- `E_ILLEGAL` is the decoder's cause alone (R222). -/
theorem Cause.code_mem_of_ne_illegal {c : Cause} (h : c ≠ .illegal) :
    c.code ∈ ([0x02, 0x03, 0x10, 0x11, 0x12, 0x13, 0x14] : List (BitVec 8)) :=
  (List.mem_cons.1 c.code_mem).resolve_left fun e => h (Cause.code_injective e)

/-! ## Acceptance and rejection (R221, R230) -/

/-- Of two queues with the same words before it, the last response tells the code. -/
theorem code_eq_of_push_eq {q : List RspWord} {c d : BitVec 8} {v w : Word}
    (h : q ++ [responseWord c v] = q ++ [responseWord d w]) : c = d := by
  have hcode := congrArg (BitVec.extractLsb' 32 8) (List.singleton_inj.1 (List.append_cancel_left h))
  rwa [responseWord_code, responseWord_code] at hcode

section Answers
variable {s t : StateOf Word CmdWord RspWord SmpWord}

/-- A rejection's response tells its cause. -/
theorem cause_eq_of_reject_eq {c d : Cause} {v w : CmdWord}
    (h : s.reject b32Machine c v = s.reject b32Machine d w) : c = d :=
  Cause.code_injective (code_eq_of_push_eq (congrArg StateOf.rspq h))

/-- An acceptance is no rejection: the code 0 of its response is no cause's. -/
theorem respond_ne_reject (h : t.rspq = s.rspq) (data : Datum Word) (c : Cause) (w : CmdWord) :
    t.respond b32Machine data ≠ s.reject b32Machine c w := by
  intro he
  have hq : t.rspq ++ [responseWord 0 data.word] = s.rspq ++ [responseWord c.code 0] := congrArg StateOf.rspq he
  rw [h] at hq
  exact c.code_ne_zero (code_eq_of_push_eq hq).symm

theorem accept_ne_reject (h : t.rspq = s.rspq) (c : Cause) (w : CmdWord) :
    t.accept b32Machine ≠ s.reject b32Machine c w := respond_ne_reject h (.bits 0) c w

/-- The state check adds no cause but `E_STATE` to those of the command behind it (R223). -/
theorem whenFsm_ne_reject {c : Cause} (hc : c ≠ .state) {v : CmdWord} (ht : t ≠ s.reject b32Machine c v) (need : Fsm)
    (w : CmdWord) : s.whenFsm b32Machine need w t ≠ s.reject b32Machine c v := by
  rcases s.whenFsm_cases b32Machine need w t with ⟨-, e⟩ | ⟨-, e⟩ <;> rw [e]
  · exact ht
  · exact fun h => hc (cause_eq_of_reject_eq h).symm

/-- `RDREG` is refused for its address only (R198). -/
theorem rdreg_ne_reject {c : Cause} (hc : c ≠ .addr) (a : Nat) (w : CmdWord) :
    s.rdreg b32Machine a ≠ s.reject b32Machine c w := by
  unfold StateOf.rdreg
  cases s.csrRead? b32Machine a with
  | some v => exact respond_ne_reject rfl v c w
  | none => exact fun h => hc (cause_eq_of_reject_eq h).symm

/-- Two answers differ where their states do. -/
theorem next_ne_next (h : t ≠ s) : (.next ⟨t⟩ : Outcome) ≠ .next ⟨s⟩ := fun e =>
  h (congrArg State.toStateOf (Host.Outcome.next.inj e))

end Answers

/-- The checks of `BUILD` find no illegal word (R196). -/
theorem configError?_ne_illegal {α : Type} (P : Config.NumProfile α) (qrate arate maxdev tau : α) :
    configError? P qrate arate maxdev tau ≠ some .illegal := by
  unfold configError?
  split_ifs <;> simp

/-- No operation is rejected as an illegal word: each rejects for the state or for its own operand (R222 to R229). -/
theorem exec_command_ne_illegal {i : Instr} (s : State) (hi : i.isCommand = true) (w : CmdWord) :
    exec i s ≠ .next ⟨s.toStateOf.reject b32Machine .illegal w⟩ := by
  have checked {need : Fsm} {v : CmdWord} {t : StateOf Word CmdWord RspWord SmpWord}
      (ht : t ≠ s.toStateOf.reject b32Machine .illegal w) :
      (.next ⟨s.toStateOf.whenFsm b32Machine need v t⟩ : Outcome) ≠
        .next ⟨s.toStateOf.reject b32Machine .illegal w⟩ :=
    next_ne_next (whenFsm_ne_reject (by decide) ht need v)
  have otherCause {c : Cause} (hc : c ≠ .illegal) (v : CmdWord) :
      s.toStateOf.reject b32Machine c v ≠ s.toStateOf.reject b32Machine .illegal w :=
    fun e => hc (cause_eq_of_reject_eq e)
  cases i with
  | ldqr d => exact checked (accept_ne_reject (s.setQrate_rspq d) _ _)
  | ldar d => exact checked (accept_ne_reject (s.setArate_rspq d) _ _)
  | lddv d => exact checked (accept_ne_reject (s.setMaxdev_rspq d) _ _)
  | ldtc d => exact checked (accept_ne_reject (s.setTau_rspq d) _ _)
  | ldtap j d =>
    refine checked ?_
    split_ifs
    · exact otherCause (by decide) _
    · exact accept_ne_reject (s.writeTap_rspq j d) _ _
  | build =>
    refine checked ?_
    cases hc : configError? b32Machine.num s.qrate s.arate s.maxdev s.tau with
    | none => exact accept_ne_reject (s.applyBuild_rspq b32Machine) _ _
    | some c => exact otherCause (fun e => configError?_ne_illegal _ _ _ _ _ (e ▸ hc)) _
  | teardn => exact next_ne_next (accept_ne_reject (s.applyTeardn_rspq b32Machine) _ _)
  | rdreg a => exact next_ne_next (rdreg_ne_reject (by decide) a w)
  | setdev d =>
    refine checked ?_
    split_ifs
    · exact accept_ne_reject (s.applySetdev_rspq b32Machine d) _ _
    · exact otherCause (by decide) _
  | settau d =>
    refine checked ?_
    split_ifs
    · exact accept_ne_reject (s.applySettau_rspq b32Machine d) _ _
    · exact otherCause (by decide) _
  | sample i q => cases hi
  | samplec i q => cases hi

/-- What an accepted command leaves of `RSPQ` and of the error log: one response with code 0, and the log as it was. -/
def Accepted (s t : State) : Prop :=
  ∃ data : Word, t.rspq = s.rspq ++ [responseWord 0 data] ∧ t.errv = s.errv ∧
    t.errcode = s.errcode ∧ t.errcmdh = s.errcmdh ∧ t.errcmdl = s.errcmdl

/-- Every command is accepted, or rejected for a cause other than `E_ILLEGAL`. -/
theorem exec_command_accepted_or_rejected {i : Instr} (s : State) (hi : i.isCommand = true) :
    ∃ t, exec i s = .next t ∧
      (Accepted s t ∨ ∃ c : Cause, c ≠ .illegal ∧ t = rejected s c.code (encodeCommand i)) := by
  obtain ⟨t, e, ht⟩ := exec_command_cases i s hi
  refine ⟨⟨t⟩, e, ?_⟩
  rcases ht with ⟨c, rfl⟩ | accepted
  · refine .inr ⟨c, ?_, reject_eq_rejected s c _⟩
    rintro rfl
    exact exec_command_ne_illegal s hi _ e
  · left
    rcases accepted with ⟨_, -, -, rfl⟩ | ⟨_, -, -, rfl⟩ | ⟨_, -, -, rfl⟩ | ⟨_, -, -, rfl⟩ | ⟨_, _, -, -, -, rfl⟩ |
      ⟨-, -, -, rfl⟩ | ⟨-, rfl⟩ | ⟨_, _, -, -, rfl⟩ | ⟨_, -, -, -, rfl⟩ | ⟨_, -, -, -, rfl⟩ <;>
      exact ⟨_, rfl, rfl, rfl, rfl, rfl⟩

/-- The same of every command word, those rejected as illegal included. -/
theorem runCommandWord_accepted_or_rejected (w : CmdWord) (s : State) :
    ∃ t, runCommandWord w s = .next t ∧ (Accepted s t ∨ ∃ c : Cause, t = rejected s c.code w) := by
  cases hw : decodeCommand w with
  | ok i =>
    obtain ⟨t, e, ht⟩ := exec_command_accepted_or_rejected s (decodeCommand_isCommand w i hw)
    rw [encodeCommand_of_decodeCommand hw] at ht
    exact ⟨t, (runCommandWord_of_ok s hw).trans e, ht.imp_right fun ⟨c, _, hc⟩ => ⟨c, hc⟩⟩
  | error d => exact ⟨_, runCommandWord_of_error s hw, .inr ⟨.illegal, rfl⟩⟩

/-! ## The state check of `SETDEV` and `SETTAU` (R223) -/

theorem next_whenNotRun {s : State} (w : CmdWord) (t : StateOf Word CmdWord RspWord SmpWord) (hf : s.fsm ≠ .run) :
    (.next ⟨s.toStateOf.whenFsm b32Machine .run w t⟩ : Outcome) = .next (rejected s 0x02 w) := by
  rw [s.toStateOf.whenFsm_of_ne b32Machine .run w t hf, reject_eq_rejected]
  rfl

/-! ## Steps without a command (R187, R234, R243) -/

/-- The state survives where neither queue offers a word. -/
theorem step_of_not_enabled {s : State} (h : s.enabled = false) : step s = .next s := by
  rw [StateOf.enabled, Bool.or_eq_false_iff] at h
  obtain ⟨hcmd, hsmp⟩ := h
  rw [Option.isSome_eq_false_iff, Option.isNone_iff_eq_none] at hcmd hsmp
  have hidle : s.fetch = .idle := by simp [State.fetch, StateOf.fetch, hcmd, hsmp]
  rw [step, hidle]
  rfl

/-- By I3 a step that takes a sample answers what the three stages write. -/
theorem Inv.step_of_fetch_sample {s t : State} {w : SmpWord} (h : Inv s) (hw : s.fetch = .sample w t) :
    step s = .next ⟨t.toStateOf.applySample b32Machine (lastField w) (iField w) (qField w)⟩ := by
  obtain ⟨hinv, hrun⟩ := h.of_fetch_sample hw
  have hstep : step s = exec (decodeSample w) t := by
    rw [step, hw]
    rfl
  rw [hstep, exec_decodeSample, StateOf.runSample_of_valid b32Machine (hinv.schedulerValid hrun),
    OutcomeOf.toState_next]

end Sys2Proof.Machine
end

section
/-! The statements settled: rejections, and the steps that raise nothing. -/

namespace Sys2Proof.Proofs

open Sys2Proof.Machine Sys2Proof.Claims

/-- Settles O15: a command is accepted, which leaves the log, or is the rejection that R230 writes out; `E_ILLEGAL`
is raised before `exec` only. -/
theorem rejectionChangesOnlyLogAndResponse : Obligations.RejectionChangesOnlyLogAndResponse := by
  refine ⟨fun s t w hf => ⟨(State.cmdq_of_fetch_command hf).2, ?_⟩, fun i s hi => ?_⟩
  · obtain ⟨u, e, hu⟩ := runCommandWord_accepted_or_rejected w t
    exact ⟨u, (step_of_fetch_command hf).trans e, hu.imp_right fun ⟨c, hc⟩ => ⟨c.code, c.code_mem, hc⟩⟩
  · obtain ⟨t, e, ht⟩ := exec_command_accepted_or_rejected s hi
    exact ⟨t, e, ht.imp_right fun ⟨c, hne, hc⟩ => ⟨c.code, Cause.code_mem_of_ne_illegal hne, hc⟩⟩

/-- Settles O42: I3 gives the step its answer, and the three stages write none of the elements named. -/
theorem samplePathRaisesNothing : Obligations.SamplePathRaisesNothing := by
  intro s w t hinv hw
  refine ⟨_, hinv.step_of_fetch_sample hw, ?_⟩
  have hinq := State.inq_of_fetch_sample hw
  obtain ⟨-, n, rfl⟩ := State.fetch_sample hw
  exact ⟨rfl, rfl, rfl, rfl, rfl, rfl, hinq⟩

/-- Settles O10: nothing is fetched where no step is enabled, as in a stuck state. -/
theorem noEnabledStepKeepsState : Obligations.NoEnabledStepKeepsState := by
  refine fun s => ⟨step_of_not_enabled, fun h => step_of_not_enabled ?_⟩
  rw [StateOf.stuck, Bool.and_eq_true, Bool.not_eq_true', Bool.not_eq_true'] at h
  exact h.2

/-- Settles O16: eight commands have the state check in front; `TEARDN` is always accepted, `RDREG` is refused for its
address only. -/
theorem stateCheckRejects : Obligations.StateCheckRejects := by
  refine fun s d j _ => ⟨fun hf => ?_, fun hf => ?_, fun w => ?_⟩
  · have hne : s.fsm ≠ .unbuilt := hf ▸ nofun
    exact ⟨next_whenNotUnbuilt _ _ hne, next_whenNotUnbuilt _ _ hne, next_whenNotUnbuilt _ _ hne,
      next_whenNotUnbuilt _ _ hne, next_whenNotUnbuilt _ _ hne, next_whenNotUnbuilt _ _ hne⟩
  · have hne : s.fsm ≠ .run := hf ▸ nofun
    exact ⟨next_whenNotRun _ _ hne, next_whenNotRun _ _ hne⟩
  · have hrej : rejected s 0x02 w = ⟨s.toStateOf.reject b32Machine .state w⟩ := (reject_eq_rejected s .state w).symm
    rw [hrej]
    exact ⟨next_ne_next (accept_ne_reject (s.applyTeardn_rspq b32Machine) _ _),
      next_ne_next (rdreg_ne_reject (by decide) j w)⟩

end Sys2Proof.Proofs
end

section
/-! SUPPORT. The registers at launch (R45, R251), and two states that agree but for `TAPS` and the values of the output
words: every operation, the fetch and the step keep that agreement (R252). -/

namespace Sys2Proof.Machine

open Sys2Proof.Claims

/-! ## The registers at launch (R45, R251) -/

/-- `+0` times a finite pattern of positive sign is `+0`. -/
theorem fmul_zero_left {b : Word} (hb : isfinite b = true) (hs : fsign b = false) : fmul NUM_ZERO b = NUM_ZERO := by
  rw [fmul_finite NUM_ZERO b (by decide) hb, hs, (magVal_eq_zero NUM_ZERO).2 (by decide), zero_mul]
  decide

/-- With both rates `+0` the cutoff asked for is `+0` (R38). -/
theorem dreqCutoff_zero : dreqCutoff b32 NUM_ZERO NUM_ZERO = NUM_ZERO := by
  rw [dreqCutoff, ite_self]
  exact fmul_zero_left (b := NUM_HALF) (by decide) (by decide)

/-- With both rates `+0` the transition width asked for is `+0` (R38). -/
theorem dreqTrans_zero : dreqTrans b32 NUM_ZERO NUM_ZERO = NUM_ZERO := by
  rw [dreqTrans, dreqCutoff_zero]
  exact fmul_zero_left (b := NUM_TENTH) (by decide) (by decide)

theorem launch_csrValue (L : Nat) (r : Csr) :
    ((State.launch L).csrValue b32Machine r).word =
      if r = .id then identityWord else if r = .dreqOsf then BitVec.ofNat 32 Config.NPH
      else if r = .ntaps then BitVec.ofNat 32 L else 0 := by
  cases r with
  | status => exact (by decide : statusWord .unbuilt false false false = 0)
  | dreqCutoff => exact dreqCutoff_zero
  | dreqTrans => exact dreqTrans_zero
  | _ => rfl

/-- Every address up to `0x12` is some register's. -/
theorem Csr.exists_addr {a : Nat} (h : a ≤ 0x12) : ∃ r : Csr, r.addr = a := by
  obtain ⟨r, hr⟩ := Option.isSome_iff_exists.1 (Csr.ofAddr?_isSome a h)
  exact ⟨r, Csr.addr_of_ofAddr? a r hr⟩

theorem State.csrRead?_addr (s : State) (r : Csr) : s.csrRead? r.addr = some (s.csrValue b32Machine r).word := by
  simp [State.csrRead?, StateOf.csrRead?]

/-! ## Agreement but for `TAPS` (R252) -/

section AnyProfile
variable {Num Cmd Rsp Smp : Type} (P : Profile Num Cmd Rsp Smp)

/-- The state with other written cells, another draw of the unwritten ones and other output words. -/
def StateOf.withTaps (s : StateOf Num Cmd Rsp Smp) (taps : Memory Num) (epoch : Nat) (outq : List Num) :
    StateOf Num Cmd Rsp Smp :=
  { s with taps := taps, tapsEpoch := epoch, outq := outq }

/-- `Claims.EqualButTaps` under any profile (`equalButTaps_iff`). -/
def StateOf.AgreesButTaps (s s' : StateOf Num Cmd Rsp Smp) : Prop :=
  ∃ taps epoch outq, outq.length = s.outq.length ∧ s' = s.withTaps taps epoch outq

namespace StateOf.AgreesButTaps
variable {s s' t t' : StateOf Num Cmd Rsp Smp}

/-- An update that neither reads nor writes `TAPS` and `OUTQ` keeps the agreement. -/
theorem map {f : StateOf Num Cmd Rsp Smp → StateOf Num Cmd Rsp Smp} (h : s.AgreesButTaps s')
    (hf : ∀ taps epoch outq, f (s.withTaps taps epoch outq) = (f s).withTaps taps epoch outq)
    (hq : (f s).outq = s.outq) : (f s).AgreesButTaps (f s') := by
  obtain ⟨taps, epoch, outq, hlen, rfl⟩ := h
  exact ⟨taps, epoch, outq, hlen.trans (congrArg List.length hq.symm), hf taps epoch outq⟩

/-- What is read from the rest of the state is the same on both sides. -/
theorem eq_of_read {β : Type} {f : StateOf Num Cmd Rsp Smp → β} (h : s.AgreesButTaps s')
    (hf : ∀ taps epoch outq, f (s.withTaps taps epoch outq) = f s) : f s' = f s := by
  obtain ⟨taps, epoch, outq, -, rfl⟩ := h
  exact hf taps epoch outq

theorem fsm_eq (h : s.AgreesButTaps s') : s'.fsm = s.fsm := h.eq_of_read fun _ _ _ => rfl

theorem tapCells_eq (h : s.AgreesButTaps s') : s'.tapCells = s.tapCells := h.eq_of_read fun _ _ _ => rfl

theorem commandHead?_eq (h : s.AgreesButTaps s') : s'.commandHead? = s.commandHead? := h.eq_of_read fun _ _ _ => rfl

theorem sampleHead?_eq (h : s.AgreesButTaps s') : s'.sampleHead? = s.sampleHead? := h.eq_of_read fun _ _ _ => rfl

theorem arbCount_eq (h : s.AgreesButTaps s') : s'.arbCount = s.arbCount := h.eq_of_read fun _ _ _ => rfl

theorem schedulerValid_eq (h : s.AgreesButTaps s') : s'.schedulerValid = s.schedulerValid :=
  h.eq_of_read fun _ _ _ => rfl

theorem configError?_eq (h : s.AgreesButTaps s') :
    configError? P.num s'.qrate s'.arate s'.maxdev s'.tau = configError? P.num s.qrate s.arate s.maxdev s.tau :=
  h.eq_of_read (f := fun u => configError? P.num u.qrate u.arate u.maxdev u.tau) fun _ _ _ => rfl

/-- No register shows a word of `TAPS` or of `OUTQ` (R40). -/
theorem csrValue_eq (h : s.AgreesButTaps s') (r : Csr) : s'.csrValue P r = s.csrValue P r :=
  h.eq_of_read (f := (·.csrValue P r)) fun _ _ _ => by cases r <;> rfl

theorem csrRead?_eq (h : s.AgreesButTaps s') (a : Nat) : s'.csrRead? P a = s.csrRead? P a :=
  congrArg (Option.map · (Csr.ofAddr? a)) (funext (h.csrValue_eq P))

/-! ### The shared operations -/

theorem respond (h : s.AgreesButTaps s') (data : Datum Num) : (s.respond P data).AgreesButTaps (s'.respond P data) :=
  h.map (f := (·.respond P data)) (fun _ _ _ => rfl) rfl

theorem accept (h : s.AgreesButTaps s') : (s.accept P).AgreesButTaps (s'.accept P) := h.respond P (.bits 0)

theorem reject (h : s.AgreesButTaps s') (c : Cause) (w : Cmd) :
    (s.reject P c w).AgreesButTaps (s'.reject P c w) :=
  h.map (f := (·.reject P c w)) (fun _ _ _ => rfl) rfl

/-- The state check decides alike on both sides (R223). -/
theorem whenFsm (h : s.AgreesButTaps s') (ht : t.AgreesButTaps t') (need : Fsm) (w : Cmd) :
    (s.whenFsm P need w t).AgreesButTaps (s'.whenFsm P need w t') := by
  rcases s.whenFsm_cases P need w t with ⟨hf, e⟩ | ⟨hf, e⟩ <;> rw [e]
  · rwa [s'.whenFsm_of_eq P need w t' (h.fsm_eq.trans hf)]
  · rw [s'.whenFsm_of_ne P need w t' (h.fsm_eq ▸ hf)]
    exact h.reject P .state w

/-- A write to `TAPS` keeps the agreement, which asks nothing of the cells. -/
theorem writeTap (h : s.AgreesButTaps s') (j : Nat) (d : Num) : (s.writeTap j d).AgreesButTaps (s'.writeTap j d) := by
  obtain ⟨taps, epoch, outq, hlen, rfl⟩ := h
  exact ⟨Memory.write taps j d, epoch, outq, hlen, rfl⟩

/-! ### The commands (R192 to R198) -/

theorem ldtap (h : s.AgreesButTaps s') (j : Nat) (d : Num) : (s.ldtap P j d).AgreesButTaps (s'.ldtap P j d) := by
  refine h.whenFsm P ?_ _ _
  rw [h.tapCells_eq]
  split_ifs
  · exact h.reject P _ _
  · exact (h.writeTap j d).accept P

theorem build (h : s.AgreesButTaps s') : (s.build P).AgreesButTaps (s'.build P) := by
  refine h.whenFsm P ?_ _ _
  rw [h.configError?_eq]
  cases configError? P.num s.qrate s.arate s.maxdev s.tau with
  | some c => exact h.reject P c _
  | none => exact (h.map (f := (·.applyBuild P)) (fun _ _ _ => rfl) rfl).accept P

theorem teardn (h : s.AgreesButTaps s') : (s.teardn P).AgreesButTaps (s'.teardn P) :=
  h.map (f := (·.teardn P)) (fun _ _ _ => rfl) rfl

theorem rdreg (h : s.AgreesButTaps s') (a : Nat) : (s.rdreg P a).AgreesButTaps (s'.rdreg P a) := by
  rw [StateOf.rdreg, StateOf.rdreg, h.csrRead?_eq]
  cases s.csrRead? P a with
  | some v => exact h.respond P v
  | none => exact h.reject P .addr _

theorem setdev (h : s.AgreesButTaps s') (d : Num) : (s.setdev P d).AgreesButTaps (s'.setdev P d) := by
  refine h.whenFsm P ?_ _ _
  split_ifs
  · exact (h.map (f := (·.applySetdev P d)) (fun _ _ _ => rfl) rfl).accept P
  · exact h.reject P _ _

theorem settau (h : s.AgreesButTaps s') (d : Num) : (s.settau P d).AgreesButTaps (s'.settau P d) := by
  refine h.whenFsm P ?_ _ _
  split_ifs
  · exact (h.map (f := (·.applySettau P d)) (fun _ _ _ => rfl) rfl).accept P
  · exact h.reject P _ _

/-- The four loads: the state check, one register written, a response (R192 to R195). -/
theorem load (h : s.AgreesButTaps s') {f : StateOf Num Cmd Rsp Smp → StateOf Num Cmd Rsp Smp} (w : Cmd)
    (hf : ∀ taps epoch outq, f (s.withTaps taps epoch outq) = (f s).withTaps taps epoch outq)
    (hq : (f s).outq = s.outq) :
    (s.whenFsm P .unbuilt w ((f s).accept P)).AgreesButTaps (s'.whenFsm P .unbuilt w ((f s').accept P)) :=
  h.whenFsm P ((h.map hf hq).accept P) .unbuilt w

/-- The decoder sees the entry alone, and the meaning it finds keeps the agreement. -/
theorem meanings_alike (c : Command Num) (dZero : Bool) :
    DecodesAlike
      (fun f g : StateOf Num Cmd Rsp Smp → StateOf Num Cmd Rsp Smp =>
        ∀ s s', s.AgreesButTaps s' → (f s).AgreesButTaps (g s'))
      (decodeFields (meanings P) c dZero) (decodeFields (meanings P) c dZero) :=
  decodeFields_alike _ (meanings P) (meanings P)
    (fun d => ⟨fun _ _ h => h.load P (f := (·.setQrate d)) _ (fun _ _ _ => rfl) rfl,
      fun _ _ h => h.load P (f := (·.setArate d)) _ (fun _ _ _ => rfl) rfl,
      fun _ _ h => h.load P (f := (·.setMaxdev d)) _ (fun _ _ _ => rfl) rfl,
      fun _ _ h => h.load P (f := (·.setTau d)) _ (fun _ _ _ => rfl) rfl,
      fun _ _ h => h.setdev P d, fun _ _ h => h.settau P d⟩)
    (fun a => ⟨fun _ _ h => h.rdreg P a, fun d _ _ h => h.ldtap P a d⟩)
    (fun _ _ h => h.build P) (fun _ _ h => h.teardn P) c dZero

/-- Every command entry, legal or not. -/
theorem runCommand (h : s.AgreesButTaps s') (w : Cmd) : (s.runCommand P w).AgreesButTaps (s'.runCommand P w) := by
  have alike := meanings_alike P (P.fields w) (P.isClear (P.fields w).d)
  unfold StateOf.runCommand
  cases hw : decodeFields (meanings P) (P.fields w) (P.isClear (P.fields w).d) with
  | ok f =>
    rw [hw] at alike
    exact alike s s' h
  | error e => exact h.reject P .illegal w

/-! ### The sample (R199) -/

/-- The taps decide the values of the words pushed, the scheduler alone their number. -/
theorem applySample (h : s.AgreesButTaps s') (last : Bool) (i q : Num) :
    (s.applySample P last i q).AgreesButTaps (s'.applySample P last i q) := by
  obtain ⟨taps, epoch, outq, hlen, rfl⟩ := h
  refine ⟨taps, epoch, outq ++ (s.withTaps taps epoch outq).sampleOutputs P i q, ?_, rfl⟩
  rw [StateOf.applySample_outq, List.length_append, List.length_append, hlen, StateOf.sampleOutputs,
    StateOf.sampleOutputs, resampOutputs_length, resampOutputs_length]
  rfl

theorem runSample (h : s.AgreesButTaps s') {last : Bool} {i q : Num} (hs : s.runSample P last i q = .next t) :
    ∃ t', s'.runSample P last i q = .next t' ∧ t.AgreesButTaps t' := by
  rcases s.runSample_cases P last i q with ⟨hv, e⟩ | ⟨-, e⟩ <;> rw [e] at hs <;> cases hs
  exact ⟨_, StateOf.runSample_of_valid P (h.schedulerValid_eq.trans hv) last i q, h.applySample P last i q⟩

/-! ### The fetch and the step (R186 to R188) -/

theorem popCommand (h : s.AgreesButTaps s') : s.popCommand.AgreesButTaps s'.popCommand :=
  h.map (f := (·.popCommand)) (fun _ _ _ => rfl) rfl

theorem popSample (h : s.AgreesButTaps s') : s.popSample.AgreesButTaps s'.popSample :=
  h.map (f := (·.popSample)) (fun _ _ _ => rfl) rfl

theorem drawArb (h : s.AgreesButTaps s') : s.drawArb.AgreesButTaps s'.drawArb :=
  h.map (f := (·.drawArb)) (fun _ _ _ => rfl) rfl

/-- The two fetch alike: nothing, the same command, or the same sample. -/
theorem fetch_cases (h : s.AgreesButTaps s') :
    (s.fetch = .idle ∧ s'.fetch = .idle) ∨
    (∃ w u u', s.fetch = .command w u ∧ s'.fetch = .command w u' ∧ u.AgreesButTaps u') ∨
    (∃ x u u', s.fetch = .sample x u ∧ s'.fetch = .sample x u' ∧ u.AgreesButTaps u') := by
  unfold StateOf.fetch
  rw [h.commandHead?_eq, h.sampleHead?_eq, h.arbCount_eq]
  cases s.commandHead? with
  | none =>
    cases s.sampleHead? with
    | none => exact .inl ⟨rfl, rfl⟩
    | some x => exact .inr (.inr ⟨x, _, _, rfl, rfl, h.popSample⟩)
  | some w =>
    cases s.sampleHead? with
    | none => exact .inr (.inl ⟨w, _, _, rfl, rfl, h.popCommand⟩)
    | some x =>
      cases Config.arb s.arbCount with
      | true => exact .inr (.inl ⟨w, _, _, rfl, rfl, h.popCommand.drawArb⟩)
      | false => exact .inr (.inr ⟨x, _, _, rfl, rfl, h.popSample.drawArb⟩)

/-- The step of any profile keeps the agreement. -/
theorem step (h : s.AgreesButTaps s') (hs : s.step P = .next t) : ∃ t', s'.step P = .next t' ∧ t.AgreesButTaps t' := by
  unfold StateOf.step at hs ⊢
  rcases h.fetch_cases with ⟨e, e'⟩ | ⟨w, u, u', e, e', hu⟩ | ⟨x, u, u', e, e', hu⟩ <;> rw [e] at hs <;> rw [e']
  · cases hs
    exact ⟨s', rfl, h⟩
  · cases hs
    exact ⟨_, rfl, hu.runCommand P w⟩
  · exact hu.runSample P hs

end StateOf.AgreesButTaps
end AnyProfile

/-- The agreement of the machine's states is that of profile `B32`. -/
theorem equalButTaps_iff (s s' : State) : EqualButTaps s s' ↔ s.toStateOf.AgreesButTaps s'.toStateOf := by
  constructor
  · rintro ⟨heq, hlen⟩
    refine ⟨s'.taps, s'.tapsEpoch, s'.outq, hlen, ?_⟩
    rw [← heq]
    rfl
  · obtain ⟨s'⟩ := s'
    rintro ⟨taps, epoch, outq, hlen, rfl⟩
    exact ⟨rfl, hlen⟩

/-- A next state of the machine is one of the step under profile `B32`. -/
theorem step_next_iff (s t : State) : step s = .next t ↔ s.toStateOf.step b32Machine = .next t.toStateOf := by
  obtain ⟨t⟩ := t
  rw [step_eq_profile_step]
  cases s.toStateOf.step b32Machine <;> simp [OutcomeOf.toState]

end Sys2Proof.Machine
end

section
/-! The statements settled: the registers after hardware reset, and what does not depend on `TAPS`. -/

namespace Sys2Proof.Proofs

open Sys2Proof.Machine Sys2Proof.Claims

/-- Settles O52: each of the nineteen addresses is a register's, whose value at launch is known; no cell of `TAPS` is
written. -/
theorem resetRegistersRead : Obligations.ResetRegistersRead := by
  refine fun L => ⟨fun a ha => ?_, rfl, rfl, rfl, rfl, rfl, fun _ => rfl⟩
  obtain ⟨r, rfl⟩ := Csr.exists_addr ha
  rw [State.csrRead?_addr, launch_csrValue]
  cases r <;> rfl

/-- Settles O60: every operation keeps the agreement but for `TAPS`, whose words only reach the values of `OUTQ`. -/
theorem registersDoNotDependOnTaps : Obligations.RegistersDoNotDependOnTaps := by
  intro s s' t hagree hs
  obtain ⟨t', hs', hagree'⟩ := ((equalButTaps_iff s s').1 hagree).step b32Machine ((step_next_iff s t).1 hs)
  exact ⟨⟨t'⟩, (step_next_iff s' ⟨t'⟩).2 hs', (equalButTaps_iff t ⟨t'⟩).2 hagree'⟩

end Sys2Proof.Proofs
end
